-- ==== Sys2Proof/Word.lean ====
section
/-! DEFINITION. The word and byte types of CORE (00_scope R8: `REG_WIDTH` = 32; 20_memory R51: 8-bit bytes). -/

namespace Sys2Proof

/-- A 32-bit register, bus or command word (R8, R20). -/
abbrev Word := BitVec 32

/-- A byte of the data memory (R51). -/
abbrev Byte := BitVec 8

end Sys2Proof
end

