-- ==== Sys2Proof/Syntax.lean ====
section
/-! DEFINITION. The commands of CORE: one constructor per row of spec/opcode_table.json (30_encoding R75). -/

namespace Sys2Proof

/-- The twelve commands (R3, R75). None has an operand field: the operands of a command are the current values
of the CORE registers it reads (R70, R76, R77). -/
inductive Instr where
  /-- ACC.CLR: clear the accumulator (R102). -/
  | accClr
  /-- MAC.W: 32-bit multiply-accumulate (R103). -/
  | macW
  /-- MAC.D: 64-bit multiply-accumulate (R104). -/
  | macD
  /-- DMAC.W: paired multiply-accumulate, 32-bit path (R105). -/
  | dmacW
  /-- DMAC.D: paired multiply-accumulate, 64-bit path (R106). -/
  | dmacD
  /-- CLIP: clamp OPA into [LOW, HIGH] (R107). -/
  | clip
  /-- RD.T: truncating read-out of the 32-bit accumulator (R108). -/
  | rdT
  /-- RD.S: saturating read-out of the 64-bit accumulator (R109). -/
  | rdS
  /-- CONV.F: fast convolution (R132). -/
  | convF
  /-- CONV.P: precise convolution with scratch preparation (R133, R134). -/
  | convP
  /-- MATMUL.F: fast real matrix product (R152, R153). -/
  | matmulF
  /-- MATMUL.C: complex matrix product (R154, R155). -/
  | matmulC
  deriving DecidableEq, Repr

end Sys2Proof
end

