-- ==== Sys2Proof/Decode.lean ====
section
/-! DEFINITION. The command word (30_encoding R74, R75, R79, R80): decoding, total on every 32-bit word and
rejecting by name, and the encoder. -/

namespace Sys2Proof

/-- Why a command word is illegal (R78). -/
inductive DecodeError where
  /-- `CMD[31:5] != 0`. -/
  | reservedBits
  /-- OP is not one of the twelve assigned values. -/
  | unassignedOp
  deriving DecidableEq, Repr

/-- `CMD[4:0]`, the OP field (R21, R75). -/
def opField (w : Word) : Nat := w.toNat % 32

/-- `CMD[31:5]`, reserved, must be 0 (R21, R75). -/
def reservedField (w : Word) : Nat := w.toNat / 32

/-- The opcode map of R75; every value it does not assign is unassigned (R78). -/
def decodeOp (op : Nat) : Except DecodeError Instr :=
  match op with
  | 0x01 => .ok .accClr
  | 0x02 => .ok .macW
  | 0x03 => .ok .macD
  | 0x04 => .ok .dmacW
  | 0x05 => .ok .dmacD
  | 0x06 => .ok .clip
  | 0x07 => .ok .rdT
  | 0x08 => .ok .rdS
  | 0x10 => .ok .convF
  | 0x11 => .ok .convP
  | 0x12 => .ok .matmulF
  | 0x13 => .ok .matmulC
  | _ => .error .unassignedOp

/-- `decode(w)` of R80. -/
def decode (w : Word) : Except DecodeError Instr :=
  if reservedField w = 0 then decodeOp (opField w) else .error .reservedBits

/-- OP(m) of R75, R82: the OP value of each command. -/
def opcode : Instr → Nat
  | .accClr => 0x01
  | .macW => 0x02
  | .macD => 0x03
  | .dmacW => 0x04
  | .dmacD => 0x05
  | .clip => 0x06
  | .rdT => 0x07
  | .rdS => 0x08
  | .convF => 0x10
  | .convP => 0x11
  | .matmulF => 0x12
  | .matmulC => 0x13

/-- The command word of a command: OP in bits 4:0, bits 31:5 zero (R75). -/
def encode (i : Instr) : Word := BitVec.ofNat 32 (opcode i)

/-- The 32-bit command word with the bits `w` below `nbits` and zeros above. -/
def tableWord (nbits w : Nat) : Word := BitVec.ofNat 32 (w % 2 ^ nbits)

/-- The command the decoder reads from the bits `w`, numbered as spec/opcode_table.json numbers them (the table's
row is one 32-bit word, the value written to CMD). -/
def decodeTableWord (nbits w : Nat) : Option Instr :=
  match decode (tableWord nbits w) with
  | .ok i => some i
  | .error _ => none

end Sys2Proof
end

