-- ==== Sys2Proof/Config.lean ====
section
/-! DEFINITION. What is fixed for the machine (00_scope R8) and the free value of 70_reset_and_hazards R191. -/

namespace Sys2Proof

/-- Bytes in an address space of `ADDR_WIDTH` = 32 bits (R8, R50). -/
def Config.addrSpace : Nat := 2 ^ 32

/-- `SHIFT` = 15, the Q30 to Q15 rescale (R8). -/
def Config.shift : Nat := 15

/-- Bytes of CORE's register block `[BASE, BASE + 0x100)` (R50); `BASE` is a multiple of it (R8). -/
def Config.blockBytes : Nat := 256

/-- The free draw of R191, I12: the n-th unspecified byte of the run. It has no body, so no claim can rest on
its value (log 4). -/
opaque Config.freeByte : Nat → Byte

/-- A run of backed data-memory addresses `[start, start + size)`; the parameter `MEM` (R8, R51) is a list of them. -/
structure MemRange where
  start : Nat
  size : Nat
  deriving DecidableEq, Repr

end Sys2Proof
end

