-- ==== Sys2Proof/Machine/Arith.lean ====
section
/-! DEFINITION. The arithmetic of CORE on mathematical integers: the width operators of 00_scope R10 and the pure
functions of 40_accumulator R101. `sN` and `clip` are the only places where a result is narrowed (R10). -/

namespace Sys2Proof.Machine

/-- `wrap_N(v)` of R10: the unsigned N-bit value. -/
def wrapN (n : Nat) (v : Int) : Int := v % 2 ^ n

/-- `s_N(v)` of R10: two's-complement truncation to N bits. -/
def sN (n : Nat) (v : Int) : Int :=
  if wrapN n v < 2 ^ (n - 1) then wrapN n v else wrapN n v - 2 ^ n

/-- `asr(v, n)` of R10: arithmetic shift right, rounding toward minus infinity. -/
def asr (v : Int) (n : Nat) : Int := v / 2 ^ n

/-- `clip(v, lo, hi)` of R10. -/
def clip (v lo hi : Int) : Int := min (max v lo) hi

/-- `sat16(v)` of R10. -/
def sat16 (v : Int) : Int := clip v (-32768) 32767

/-- `prod(x, y)` of R101: exact. -/
def prod (x y : Int) : Int := x * y

/-- `mac32(acc, x, y)` of R101: wraps mod 2^32. -/
def mac32 (acc x y : Int) : Int := sN 32 (acc + prod x y)

/-- `mac64(acc, x, y)` of R101: wraps mod 2^64. -/
def mac64 (acc x y : Int) : Int := sN 64 (acc + prod x y)

/-- `narrow_fast(t)` of R101: shift by 15, keep the low 16 bits. -/
def narrowFast (t : Int) : Int := sN 16 (asr (sN 32 t) Config.shift)

/-- `narrow_precise(t)` of R101: shift by 15, saturate. -/
def narrowPrecise (t : Int) : Int := sat16 (asr (sN 64 t) Config.shift)

/-- `clip32(v, lo, hi)` of R101. -/
def clip32 (v lo hi : Int) : Int := clip v lo hi

/-- The complex terms of R155, formed exactly: the real term `prod(ar, br) - prod(ai, bi)`. -/
def cplxRe (ar ai br bi : Int) : Int := prod ar br - prod ai bi

/-- The imaginary term `prod(ar, bi) + prod(ai, br)` of R155. -/
def cplxIm (ar ai br bi : Int) : Int := prod ar bi + prod ai br

end Sys2Proof.Machine
end

