-- ==== Sys2Proof/Machine/Bus.lean ====
section
/-! DEFINITION. The names the bus side of the machine uses: CORE's registers (30_encoding R71), the sizes of a host
access (20_memory R53), the operations of a host program (30_encoding R81) and the turns in which the agents move
(00_scope R7, 60_exceptions R172). -/

namespace Sys2Proof.Machine

/-- The seventeen data registers (10_state R39): every register but CMD and STATUS. -/
inductive DataReg where
  | opa | opb | low | high | accLo | accHi | res
  | srcA | srcB | dst | scr1 | scr2
  | lenA | lenB | aDim | bDim | dDim
  deriving DecidableEq, Repr

/-- The nineteen registers of the register map (R20, R71). -/
inductive RegName where
  | cmd
  | status
  | data (d : DataReg)
  deriving DecidableEq, Repr

/-- The sizes of one host bus access: 8, 16 or 32 bits. Only `word` is a legal register access (R53); `half` is the
access of `WH` and `RH` (R81). -/
inductive AccessSize where
  | byte | half | word
  deriving DecidableEq, Repr

/-- A value a host program computes (R81, R82): literal numbers, a host temporary, or a bit field of a temporary's
first number (`t[7:4]` of `CHECK`). A temporary holds a list, since `RH` reads several values into one. -/
inductive HostTerm where
  | const (vs : List Int)
  | temp (t : Nat)
  | bits (t hi lo : Nat)
  deriving DecidableEq, Repr

/-- The condition of `if <cond> goto <label>` (R81). R81 does not say which conditions there are: that they are equality
and inequality of two terms is a DESIGN CHOICE (log 16). -/
inductive HostCond where
  | eq (a b : HostTerm)
  | ne (a b : HostTerm)
  deriving DecidableEq, Repr

/-- One operation of a host program (R81). `W` is `store .word`, `R` is `load .word`, `WH` is one `store .half` per
value, `RH` one `load .half` per value, each appended to the temporary; a label is a position in the program. -/
inductive HostOp where
  /-- Store the first number of `v` at a bus address. -/
  | store (size : AccessSize) (addr : Nat) (v : HostTerm)
  /-- Load from a bus address into temporary `t`: its new value, or one more number at its end when `append`. -/
  | load (size : AccessSize) (addr : Nat) (t : Nat) (append : Bool)
  /-- Set a host temporary. -/
  | set (t : Nat) (v : HostTerm)
  /-- `if <cond> goto <target>`, the target a position in the program. -/
  | ifGoto (c : HostCond) (target : Nat)
  deriving DecidableEq, Repr

/-- One turn of one agent. `engine k` is the finish transition of instance `k` (R172), `host` the host's next
operation (R61), `reset k` the reset input of instance `k` (70_reset_and_hazards R190). -/
inductive Turn where
  | engine (k : Nat)
  | host
  | reset (k : Nat)
  deriving DecidableEq, Repr

end Sys2Proof.Machine
end

