-- ==== Sys2Proof/Machine/State.lean ====
section
/-! DEFINITION. The state of the machine (10_state R20, R45) as plain data, the reasons a step can stop, and the
state after reset (10_state R44, 70_reset_and_hazards R190). -/

namespace Sys2Proof.Machine

/-- The model fault reasons of 60_exceptions R176. Each stands for behaviour that no source defines. -/
inductive ModelFault where
  /-- BUSY_ACCESS: a host register access other than a STATUS read while BUSY (R72). -/
  | busyAccess
  /-- BAD_REG_ACCESS: a host register access that is not an aligned 32-bit one, or to a reserved offset (R53, R72). -/
  | badRegAccess
  /-- UNWRITTEN_REG: a host read or a command's read of an unwritten register (R39). -/
  | unwrittenReg
  /-- ZERO_LENGTH: a convolution with `lenA = 0` or `lenB = 0` (R130). -/
  | zeroLength
  /-- ADDR_WRAP: a command region past the top of the address space (R56). -/
  | addrWrap
  /-- OVERLAP: a written region overlapping another region of the same command (R58), or of another instance's
  running command (R185). -/
  | overlap
  /-- HOST_BUFFER_ACCESS: a host data-memory access to a region of a running command (R63). -/
  | hostBufferAccess
  deriving DecidableEq, Repr

/-- The completion codes of 60_exceptions R173 (values 4 to 15 are never produced). -/
inductive CompletionCode where
  | ok | sizeMismatch | illegalCmd | misaligned
  deriving DecidableEq, Repr

/-- The engine phase (10_state R42): IDLE, or BUSY with the CMD value written. -/
inductive Phase where
  | idle
  | busy (c : Word)
  deriving DecidableEq, Repr

/-- A data register: its 32 bits and its written-flag (10_state R39). With the flag clear the spec gives the register no
value and a read raises UNWRITTEN_REG; `value` is then what the read answers, past the mark (logs 1 and 5). -/
structure DReg where
  value : Word
  written : Bool
  deriving DecidableEq, Repr

/-- The data registers of one CORE instance (10_state R23 to R38). -/
structure RegFile where
  opa : DReg
  opb : DReg
  low : DReg
  high : DReg
  accLo : DReg
  accHi : DReg
  res : DReg
  srcA : DReg
  srcB : DReg
  dst : DReg
  scr1 : DReg
  scr2 : DReg
  lenA : DReg
  lenB : DReg
  aDim : DReg
  bDim : DReg
  dDim : DReg
  deriving DecidableEq, Repr

/-- One CORE instance (10_state R20, 60_exceptions R185): its register block's address `BASE` (a parameter, R8; no
step changes it), its nineteen registers and its engine phase. -/
structure CoreUnit where
  base : Nat
  cmd : Word
  status : Word
  phase : Phase
  regs : RegFile
  deriving DecidableEq, Repr

/-- The data memory (20_memory R51): the bytes that differ from what an unlisted address reads as, by strictly rising
address. -/
abbrev Memory := List Host.Cell

/-- The machine (10_state R45). `core` is instance 0 and `peers` are the other `N_INST - 1` instances (R8, R185);
`mem` is the data memory all of them share; `memMap` is the parameter `MEM` (R8, R51; no step changes it); `mark` is
the model fault mark (R176). The rest is the model's own: `draws` counts the free bytes drawn (R191), `sched` lists
the turns still to be taken before the default order applies (R172, R200), and `prog`, `hpc`, `temps` are the host
agent's program (R81), the position in it and its temporaries. -/
structure State where
  core : CoreUnit
  peers : List CoreUnit
  mem : Memory
  memMap : List MemRange
  mark : Option ModelFault
  draws : Nat
  sched : List Turn
  prog : List HostOp
  hpc : Nat
  temps : List (List Int)
  deriving DecidableEq, Repr

/-- Why a step or a command's transition stops. -/
inductive Fault where
  /-- Stuck (60_exceptions R177): the engine transition would access a byte outside `MEM` and is not enabled. Raised by the
  kernel commands. Safe: the transition does not exist. A `step` that meets it leaves the engine BUSY (log 6). -/
  | stuck
  /-- What follows in a marked state where no rule gives an effect (60_exceptions R176, 93: "no claim is made past it"):
  a turn of an engine or of the host past a mark other than UNWRITTEN_REG, raised by `step`; and a model fault met in a
  state that is marked already, raised by a command's checks (R174) and by a host access (R63, R72). Safe (log 5). -/
  | marked (r : ModelFault)
  /-- A host data access to a byte that neither `MEM` nor a register block holds. Raised by a host turn. Safe: no rule says
  what such an access does (log 9). -/
  | hostUnmapped
  deriving DecidableEq, Repr

/-- Why an instruction has no meaning. -/
inductive Refusal where
  /-- The instruction has no meaning in the model yet; raised only by an arm of `exec`. Safe. -/
  | notModelled (mnemonic : String)
  deriving DecidableEq, Repr

/-- A data register after reset: unwritten (R39, R44). The 0 it holds is a DESIGN CHOICE (log 1). -/
def DReg.reset : DReg := ⟨0, false⟩

/-- The data registers after reset: every written-flag clear (R39, R44). -/
def RegFile.reset : RegFile :=
  ⟨.reset, .reset, .reset, .reset, .reset, .reset, .reset, .reset, .reset,
   .reset, .reset, .reset, .reset, .reset, .reset, .reset, .reset⟩

/-- A CORE instance after reset (R44, R190): CMD and STATUS 0, the engine IDLE, every data register unwritten. -/
def CoreUnit.reset (base : Nat) : CoreUnit := ⟨base, 0, 0, .idle, .reset⟩

/-- The machine right after a power-on reset (R44, R190): one instance, the memory listing nothing, the mark clear.
The parameters BASE = 0 and MEM = [0x100, 2^32) are DESIGN CHOICES (log 3); the host has no program. -/
def State.reset : State where
  core := .reset 0
  peers := []
  mem := []
  memMap := [⟨0x100, 0xFFFFFF00⟩]
  mark := none
  draws := 0
  sched := []
  prog := []
  hpc := 0
  temps := []

end Sys2Proof.Machine
end

