-- ==== Sys2Proof/Machine/Flags.lean ====
section
/-! DEFINITION. The fields of STATUS (10_state R22). CORE has no condition codes and no overflow or saturation flag
(R41): STATUS.BUSY and STATUS.ERR are its only status bits, and only starting and finishing a command write them. -/

namespace Sys2Proof.Machine

/-- `STATUS[0]`, BUSY (R22). -/
def statusBusy (w : Word) : Bool := w.getLsbD 0

/-- `STATUS[7:4]`, ERR (R22). -/
def statusErr (w : Word) : Nat := w.toNat / 16 % 16

/-- The reserved fields `STATUS[3:1]` and `STATUS[31:8]` read 0 (R22). -/
def statusReservedZero (w : Word) : Bool := decide (w.toNat / 2 % 8 = 0) && decide (w.toNat / 256 = 0)

/-- `st.BUSY <- b`: the other bits stay. -/
def setBusy (w : Word) (b : Bool) : Word := (w &&& 0xFFFFFFFE#32) ||| (if b then 1#32 else 0#32)

/-- `st.ERR <- e`: the other bits stay. -/
def setErr (w : Word) (e : Nat) : Word := (w &&& 0xFFFFFF0F#32) ||| BitVec.ofNat 32 (e % 16 * 16)

/-- The ERR value of a completion code (60_exceptions R173). -/
def codeValue : CompletionCode → Nat
  | .ok => 0
  | .sizeMismatch => 1
  | .illegalCmd => 2
  | .misaligned => 3

/-- STATUS at the start of a command (R171): `st.ERR <- 0; st.BUSY <- 1`. -/
def statusStarted (w : Word) : Word := setBusy (setErr w 0) true

/-- STATUS at the finish of a command (R172): `st.ERR <- code; st.BUSY <- 0`. -/
def statusFinished (w : Word) (code : CompletionCode) : Word := setBusy (setErr w (codeValue code)) false

end Sys2Proof.Machine
end

