-- ==== Sys2Proof/Machine/Ops.lean ====
section
/-! DEFINITION. The named operations over memory and registers: bytes and elements of the data memory (20_memory
R51, R52, R54), the register file and its written-flags (10_state R39), starting and finishing a command
(60_exceptions R171, R172), and recording a model fault (R176). CORE has no trap entry and no trap return (R181); the
mark is its only counterpart. -/

namespace Sys2Proof.Machine

/-! ### Data memory -/

/-- What a byte that nothing has written reads as: DESIGN CHOICE 0 (log 2; R44 leaves it unspecified). -/
def unlistedByte : Byte := 0

/-- The byte at an address. -/
def readByte : Memory → Nat → Byte
  | [], _ => unlistedByte
  | (k, v) :: m, a => if k = a then v else readByte m a

/-- Store one byte, keeping the canonical form: a byte that an unlisted address reads as is not listed. -/
def writeByte : Memory → Nat → Byte → Memory
  | [], a, b => if b = unlistedByte then [] else [(a, b)]
  | (k, v) :: m, a, b =>
    if a < k then (if b = unlistedByte then (k, v) :: m else (a, b) :: (k, v) :: m)
    else if a = k then (if b = unlistedByte then m else (a, b) :: m)
    else (k, v) :: writeByte m a b

/-- The canonical form of a memory: addresses strictly rising, no entry equal to what an unlisted address reads as. -/
def memWf : Memory → Bool
  | [] => true
  | (k, v) :: m => decide (v ≠ unlistedByte) && m.all (fun c => decide (k < c.1)) && memWf m

/-- `MemRead(addr, n)` of R11: little-endian (R52). -/
def memRead (m : Memory) (a : Nat) : Nat → Nat
  | 0 => 0
  | n + 1 => (readByte m a).toNat + 256 * memRead m (a + 1) n

/-- `MemWrite(addr, n, v)` of R11: little-endian (R52). -/
def memWrite (m : Memory) (a : Nat) : Nat → Nat → Memory
  | 0, _ => m
  | n + 1, v => memWrite (writeByte m a (BitVec.ofNat 8 v)) (a + 1) n (v / 256)

/-- `Q(addr)` of R11: one Q15 element. -/
def q (m : Memory) (a : Nat) : Int := sN 16 (memRead m a 2)

/-- `PutQ(addr, v)` of R11. -/
def putQ (m : Memory) (a : Nat) (v : Int) : Memory := memWrite m a 2 (wrapN 16 v).toNat

/-- A phase of a command's element writes, in the order listed (the order is not architectural, R69). -/
def putAll (m : Memory) (es : List (Nat × Int)) : Memory := es.foldl (fun m e => putQ m e.1 e.2) m

/-- Whether `MEM` backs the byte at an address (R51); no address is 2^32 or above (R50). -/
def inMem (ranges : List MemRange) (a : Nat) : Bool :=
  decide (a < Config.addrSpace) && ranges.any (fun r => decide (r.start ≤ a) && decide (a < r.start + r.size))

/-- Whether `MEM` backs every byte of `[p, p + n)`. -/
def spanInMem (ranges : List MemRange) (p n : Nat) : Bool := (List.range n).all (fun k => inMem ranges (p + k))

/-! ### Registers -/

/-- A data register of a register file. -/
def regGet (f : RegFile) : DataReg → DReg
  | .opa => f.opa
  | .opb => f.opb
  | .low => f.low
  | .high => f.high
  | .accLo => f.accLo
  | .accHi => f.accHi
  | .res => f.res
  | .srcA => f.srcA
  | .srcB => f.srcB
  | .dst => f.dst
  | .scr1 => f.scr1
  | .scr2 => f.scr2
  | .lenA => f.lenA
  | .lenB => f.lenB
  | .aDim => f.aDim
  | .bDim => f.bDim
  | .dDim => f.dDim

/-- Replace a data register of a register file. -/
def regSet (f : RegFile) (d : DataReg) (r : DReg) : RegFile :=
  match d with
  | .opa => { f with opa := r }
  | .opb => { f with opb := r }
  | .low => { f with low := r }
  | .high => { f with high := r }
  | .accLo => { f with accLo := r }
  | .accHi => { f with accHi := r }
  | .res => { f with res := r }
  | .srcA => { f with srcA := r }
  | .srcB => { f with srcB := r }
  | .dst => { f with dst := r }
  | .scr1 => { f with scr1 := r }
  | .scr2 => { f with scr2 := r }
  | .lenA => { f with lenA := r }
  | .lenB => { f with lenB := r }
  | .aDim => { f with aDim := r }
  | .bDim => { f with bDim := r }
  | .dDim => { f with dDim := r }

/-- The bits a data register stores: `LEN_A[31:16]` and `LEN_B[31:16]` are not stored (R34, R35, R73), every other
register stores all 32. -/
def storedBits : DataReg → Word
  | .lenA => 0x0000FFFF#32
  | .lenB => 0x0000FFFF#32
  | .opa => 0xFFFFFFFF#32
  | .opb => 0xFFFFFFFF#32
  | .low => 0xFFFFFFFF#32
  | .high => 0xFFFFFFFF#32
  | .accLo => 0xFFFFFFFF#32
  | .accHi => 0xFFFFFFFF#32
  | .res => 0xFFFFFFFF#32
  | .srcA => 0xFFFFFFFF#32
  | .srcB => 0xFFFFFFFF#32
  | .dst => 0xFFFFFFFF#32
  | .scr1 => 0xFFFFFFFF#32
  | .scr2 => 0xFFFFFFFF#32
  | .aDim => 0xFFFFFFFF#32
  | .bDim => 0xFFFFFFFF#32
  | .dDim => 0xFFFFFFFF#32

/-- `x[d] <- v` on one instance: the stored bits take the value and the written-flag is set (R39). -/
def unitSetReg (c : CoreUnit) (d : DataReg) (v : Word) : CoreUnit :=
  { c with regs := regSet c.regs d ⟨v &&& storedBits d, true⟩ }

/-- Whether every register of a list is written (R39, R174 check 2). -/
def unitWritten (c : CoreUnit) (ds : List DataReg) : Bool := ds.all (fun d => (regGet c.regs d).written)

/-- The 32 bits of a data register of the instance that performs the command. -/
def regVal (s : State) (d : DataReg) : Word := (regGet s.core.regs d).value

/-- `x[d] <- v` by a command: the register takes the value and its written-flag is set (R39). -/
def setReg (d : DataReg) (v : Word) (s : State) : State := { s with core := unitSetReg s.core d v }

/-- Replace the data memory. -/
def setMem (m : Memory) (s : State) : State := { s with mem := m }

/-! ### Starting and finishing a command -/

/-- The start of command `w` on one instance (R171): `x[CMD] <- w; st.ERR <- 0; st.BUSY <- 1; phase <- BUSY(w)`. -/
def unitStart (w : Word) (c : CoreUnit) : CoreUnit :=
  { c with cmd := w, status := statusStarted c.status, phase := .busy w }

/-- `finish(code)` on one instance (R172): `st.ERR <- code; st.BUSY <- 0; phase <- IDLE`. -/
def unitFinish (code : CompletionCode) (c : CoreUnit) : CoreUnit :=
  { c with status := statusFinished c.status code, phase := .idle }

/-- The start of command `w` on instance 0 (R171). -/
def startCommand (w : Word) (s : State) : State := { s with core := unitStart w s.core }

/-- `finish(code)` of the command of the instance that performs it (R172). -/
def finish (code : CompletionCode) (s : State) : State := { s with core := unitFinish code s.core }

/-! ### Model faults and stuck states -/

/-- Mark the state faulted with one reason (R176); a mark that is set is never cleared and keeps its reason. -/
def withMark (r : ModelFault) (s : State) : State := { s with mark := some (s.mark.getD r) }

/-- `raise ModelFault(r)` (R170, R176): the state is marked and nothing else changes. In a state that is marked already no
rule says what follows, and the model stops (log 5). -/
def raiseFault (r : ModelFault) (s : State) : Host.Outcome State Fault Refusal :=
  match s.mark with
  | none => .next (withMark r s)
  | some m => .fault (.marked m)

/-- What the machine makes of an engine's transition from `s` (R170): a next state is taken; a stuck engine has no
transition, so nothing changes and it stays BUSY (R177, log 6). -/
def settle (s : State) : Host.Outcome State Fault Refusal → Host.Outcome State Fault Refusal
  | .next t => .next t
  | .fault .stuck => .next s
  | .fault (.marked r) => .fault (.marked r)
  | .fault .hostUnmapped => .fault .hostUnmapped
  | .refused r => .refused r

/-! ### Several instances (60_exceptions R185) -/

/-- Exchange instance 0 with the `j`-th peer, so that an operation on instance 0 acts on that peer; doing it twice
gives the state back. -/
def swapUnit (j : Nat) (s : State) : State :=
  match s.peers[j]? with
  | some p => { s with core := p, peers := s.peers.set j s.core }
  | none => s

/-- Apply a function to the state of a next outcome. -/
def mapNext (f : State → State) :
    Host.Outcome State Fault Refusal → Host.Outcome State Fault Refusal
  | .next t => .next (f t)
  | .fault r => .fault r
  | .refused r => .refused r

/-- The state as instance `k` sees it: that instance in instance 0's place. -/
def asCore (k : Nat) (s : State) : State :=
  match k with
  | 0 => s
  | j + 1 => swapUnit j s

/-- Run a transition of instance `k`: instance 0 is `core`, instance `j + 1` the `j`-th peer. A number that names no
instance names no agent, and nothing happens. -/
def onUnit (k : Nat) (f : State → Host.Outcome State Fault Refusal) (s : State) :
    Host.Outcome State Fault Refusal :=
  match k with
  | 0 => f s
  | j + 1 => if j < s.peers.length then mapNext (swapUnit j) (f (swapUnit j s)) else .next s

end Sys2Proof.Machine
end

