-- ==== Sys2Proof/Machine/Operands.lean ====
section
/-! DEFINITION. Operand assembly: the primitive commands' operands (30_encoding R76), the kernel commands' operands
(R77, R73), and the accumulator (10_state R27). -/

namespace Sys2Proof.Machine

/-- `lane0(r) = s_16(r[15:0])` (R76). -/
def lane0 (r : Word) : Int := sN 16 (r.toNat % 65536)

/-- `lane1(r) = s_16(r[31:16])` (R76). -/
def lane1 (r : Word) : Int := sN 16 (r.toNat / 65536)

/-- A register read as a signed 32-bit value, `s_32(r)` (R76). -/
def signed32 (r : Word) : Int := sN 32 r.toNat

/-- The 32-bit accumulator operand `s_32(x[ACC_LO])` (R76). -/
def acc32 (s : State) : Int := signed32 (regVal s .accLo)

/-- The 64-bit accumulator `x[ACC] = s_64({x[ACC_HI], x[ACC_LO]})` (R27, R76). -/
def acc64 (s : State) : Int := sN 64 ((regVal s .accHi).toNat * 2 ^ 32 + (regVal s .accLo).toNat)

/-- `wrap_32(v)` as a register value. -/
def toWord (v : Int) : Word := BitVec.ofNat 32 (wrapN 32 v).toNat

/-- Write a 32-bit path result: `x[ACC_LO] <- wrap_32(t); x[ACC_HI] <- wrap_32(asr(t, 32))` (R103, R105). -/
def setAcc32 (t : Int) (s : State) : State := setReg .accHi (toWord (asr t 32)) (setReg .accLo (toWord t) s)

/-- Write a 64-bit path result: `x[ACC_LO] <- wrap_64(t)[31:0]; x[ACC_HI] <- wrap_64(t)[63:32]` (R104, R106). -/
def setAcc64 (t : Int) (s : State) : State :=
  setReg .accHi (BitVec.ofNat 32 ((wrapN 64 t).toNat / 2 ^ 32))
    (setReg .accLo (BitVec.ofNat 32 ((wrapN 64 t).toNat % 2 ^ 32)) s)

/-- Bits 15:0 of a descriptor register, unsigned: a length or a row count (R73, R77). -/
def lowHalf (r : Word) : Nat := r.toNat % 65536

/-- Bits 31:16 of a dimension register, unsigned: a column count (R73, R77). -/
def highHalf (r : Word) : Nat := r.toNat / 65536

/-- The value of a data register of one instance. -/
def unitVal (c : CoreUnit) (d : DataReg) : Word := (regGet c.regs d).value

/-- A base address register as a zero-extended byte address (R77). -/
def unitAddr (c : CoreUnit) (d : DataReg) : Nat := (unitVal c d).toNat

/-- `lenA`, `lenB` (R77). -/
def lenAOf (c : CoreUnit) : Nat := lowHalf (unitVal c .lenA)
def lenBOf (c : CoreUnit) : Nat := lowHalf (unitVal c .lenB)

/-- `Ar`, `Ac`, `Br`, `Bc`, `Dr`, `Dc` (R77, R150). -/
def aRows (c : CoreUnit) : Nat := lowHalf (unitVal c .aDim)
def aCols (c : CoreUnit) : Nat := highHalf (unitVal c .aDim)
def bRows (c : CoreUnit) : Nat := lowHalf (unitVal c .bDim)
def bCols (c : CoreUnit) : Nat := highHalf (unitVal c .bDim)
def dRows (c : CoreUnit) : Nat := lowHalf (unitVal c .dDim)
def dCols (c : CoreUnit) : Nat := highHalf (unitVal c .dDim)

/-- `L = min(lenA, lenB)`, `M = max(lenA, lenB)`, `N = lenA + lenB - 1` (R57, R130). DESIGN CHOICE: `N` is 0 when both lengths
are 0, where the formula is negative and R130 gives it no meaning (log 19). -/
def convL (lenA lenB : Nat) : Nat := min lenA lenB
def convM (lenA lenB : Nat) : Nat := max lenA lenB
def convN (lenA lenB : Nat) : Nat := lenA + lenB - 1

end Sys2Proof.Machine
end

