-- ==== Sys2Proof/Machine/Checks.lean ====
section
/-! DEFINITION. The regions of a command (20_memory R57, R58), the per-command operand lists (60_exceptions R178), the
checks of a command in their order (60_exceptions R174), and the one frame in which every command runs (R100, R172). -/

namespace Sys2Proof.Machine

/-- The byte range `[base, base + size)` of a sequence, matrix or scratch buffer, and whether the command writes it
(R15, R57). -/
structure Region where
  base : Nat
  size : Nat
  written : Bool
  deriving DecidableEq, Repr

/-- What the checks of R174 answer before a command's rule runs. -/
inductive Verdict where
  /-- Every check passes. -/
  | pass
  /-- The command ends with a completion code. -/
  | ends (code : CompletionCode)
  /-- The command raises a model fault. -/
  | raise (r : ModelFault)
  deriving DecidableEq, Repr

/-! ### The operand lists of R178 -/

/-- Column "registers read". -/
def readRegs : Instr → List DataReg
  | .accClr => []
  | .macW => [.opa, .opb, .accLo]
  | .macD => [.opa, .opb, .accLo, .accHi]
  | .dmacW => [.opa, .opb, .accLo]
  | .dmacD => [.opa, .opb, .accLo, .accHi]
  | .clip => [.opa, .low, .high]
  | .rdT => [.accLo]
  | .rdS => [.accLo, .accHi]
  | .convF => [.srcA, .srcB, .dst, .lenA, .lenB]
  | .convP => [.srcA, .srcB, .dst, .scr1, .scr2, .lenA, .lenB]
  | .matmulF => [.srcA, .srcB, .dst, .scr1, .aDim, .bDim, .dDim]
  | .matmulC => [.srcA, .srcB, .dst, .scr1, .aDim, .bDim, .dDim]

/-- Column "base addresses checked". -/
def baseRegs : Instr → List DataReg
  | .accClr => []
  | .macW => []
  | .macD => []
  | .dmacW => []
  | .dmacD => []
  | .clip => []
  | .rdT => []
  | .rdS => []
  | .convF => [.srcA, .srcB, .dst]
  | .convP => [.srcA, .srcB, .dst, .scr1, .scr2]
  | .matmulF => [.srcA, .srcB, .dst, .scr1]
  | .matmulC => [.srcA, .srcB, .dst, .scr1]

/-- Column "registers written". -/
def writtenRegs : Instr → List DataReg
  | .accClr => [.accLo, .accHi]
  | .macW => [.accLo, .accHi]
  | .macD => [.accLo, .accHi]
  | .dmacW => [.accLo, .accHi]
  | .dmacD => [.accLo, .accHi]
  | .clip => [.res]
  | .rdT => [.res]
  | .rdS => [.res]
  | .convF => []
  | .convP => []
  | .matmulF => []
  | .matmulC => []

/-! ### The regions of R57 -/

/-- The regions of the fast convolution. `dst` is empty when both lengths are 0 (log 19). -/
def convFRegions (c : CoreUnit) : List Region :=
  [⟨unitAddr c .srcA, 2 * lenAOf c, false⟩,
   ⟨unitAddr c .srcB, 2 * lenBOf c, false⟩,
   ⟨unitAddr c .dst, 2 * convN (lenAOf c) (lenBOf c), true⟩]

/-- The regions of the precise convolution: `M + 2L - 2` and `L` scratch halfwords. DESIGN CHOICE: a size
whose formula is negative, which only zero lengths make it, is 0, so that the region is empty (log 19). -/
def convPRegions (c : CoreUnit) : List Region :=
  [⟨unitAddr c .srcA, 2 * lenAOf c, false⟩,
   ⟨unitAddr c .srcB, 2 * lenBOf c, false⟩,
   ⟨unitAddr c .dst, 2 * convN (lenAOf c) (lenBOf c), true⟩,
   ⟨unitAddr c .scr1, 2 * (convM (lenAOf c) (lenBOf c) + 2 * convL (lenAOf c) (lenBOf c) - 2), true⟩,
   ⟨unitAddr c .scr2, 2 * convL (lenAOf c) (lenBOf c), true⟩]

/-- The regions of a matrix product whose elements take `e` bytes (2 real, 4 complex). -/
def matmulRegions (e : Nat) (c : CoreUnit) : List Region :=
  [⟨unitAddr c .srcA, e * (aRows c * aCols c), false⟩,
   ⟨unitAddr c .srcB, e * (bRows c * bCols c), false⟩,
   ⟨unitAddr c .scr1, e * (bRows c * bCols c), true⟩,
   ⟨unitAddr c .dst, e * (dRows c * dCols c), true⟩]

/-- The regions of a command (R57); the primitive commands have none. -/
def regions (i : Instr) (c : CoreUnit) : List Region :=
  match i with
  | .accClr => []
  | .macW => []
  | .macD => []
  | .dmacW => []
  | .dmacD => []
  | .clip => []
  | .rdT => []
  | .rdS => []
  | .convF => convFRegions c
  | .convP => convPRegions c
  | .matmulF => matmulRegions 2 c
  | .matmulC => matmulRegions 4 c

/-- The regions whose elements the command's rule accesses, by the loops of R132 to R134 and R152 to R155: every
region of R57, except matrix `A` when `B.cols = 0`, since no dot product is then formed (log 12). -/
def accessed (i : Instr) (c : CoreUnit) : List Region :=
  match i with
  | .accClr => []
  | .macW => []
  | .macD => []
  | .dmacW => []
  | .dmacD => []
  | .clip => []
  | .rdT => []
  | .rdS => []
  | .convF => convFRegions c
  | .convP => convPRegions c
  | .matmulF => if bCols c = 0 then (matmulRegions 2 c).tail else matmulRegions 2 c
  | .matmulC => if bCols c = 0 then (matmulRegions 4 c).tail else matmulRegions 4 c

/-! ### The conditions the checks test -/

/-- Whether a command is a matrix product, whose sizes are checked (R151, R174 check 4). -/
def isMatmul : Instr → Bool
  | .accClr => false
  | .macW => false
  | .macD => false
  | .dmacW => false
  | .dmacD => false
  | .clip => false
  | .rdT => false
  | .rdS => false
  | .convF => false
  | .convP => false
  | .matmulF => true
  | .matmulC => true

/-- Whether a command is a convolution, whose lengths are checked (R130, R174 check 5). -/
def isConv : Instr → Bool
  | .accClr => false
  | .macW => false
  | .macD => false
  | .dmacW => false
  | .dmacD => false
  | .clip => false
  | .rdT => false
  | .rdS => false
  | .convF => true
  | .convP => true
  | .matmulF => false
  | .matmulC => false

/-- The size check of R151: `Ac = Br and Ar = Dr and Bc = Dc`. -/
def sizesMatch (c : CoreUnit) : Bool :=
  decide (aCols c = bRows c) && decide (aRows c = dRows c) && decide (bCols c = dCols c)

/-- Whether a base address the command uses is odd (R55). -/
def oddBase (i : Instr) (c : CoreUnit) : Bool := (baseRegs i).any (fun d => decide (unitAddr c d % 2 = 1))

/-- Whether a region wraps past the top of the address space; one of size 0 never does (R56). -/
def wraps (r : Region) : Bool := decide (r.size ≠ 0) && decide (Config.addrSpace < r.base + r.size)

/-- Whether two regions overlap (R58). -/
def overlaps (r t : Region) : Bool :=
  decide (r.size ≠ 0) && decide (t.size ≠ 0) && decide (r.base < t.base + t.size) && decide (t.base < r.base + r.size)

/-- Whether two regions overlap and one of them is written (R58). -/
def conflict (r t : Region) : Bool := (r.written || t.written) && overlaps r t

/-- Whether a written region of a list overlaps another region of it (R58). -/
def selfConflict : List Region → Bool
  | [] => false
  | r :: rs => rs.any (conflict r) || selfConflict rs

/-- Whether a region of one list conflicts with one of another (R185). -/
def crossConflict (rs ts : List Region) : Bool := rs.any (fun r => ts.any (conflict r))

/-- The regions a command of an instance uses (R57), by the values its registers hold (logs 11, 19); a matrix command uses
none if its size check fails (R151). -/
def regionsInUse (i : Instr) (c : CoreUnit) : List Region :=
  if !isMatmul i || sizesMatch c then regions i c else []

/-- The regions of the command an instance is running; none when it is IDLE or its command word is illegal. -/
def runningRegions (c : CoreUnit) : List Region :=
  match c.phase with
  | .idle => []
  | .busy w =>
    match decode w with
    | .ok i => regionsInUse i c
    | .error _ => []

/-- The regions of the commands the other instances are running (R185). -/
def peerRegions (s : State) : List Region := s.peers.flatMap runningRegions

/-! ### The check order of R174 and the command frame -/

/-- Whether a running command of instance 0 conflicts with one another instance is running (R185). -/
def runningConflict (s : State) : Bool := crossConflict (runningRegions s.core) (peerRegions s)

/-- Check 2 of R174: a register the command reads is unwritten (R39). It is met in an unmarked state only: the machine goes
on past the mark it leaves, on the values the registers hold (log 5). -/
def readsUnwritten (i : Instr) (s : State) : Bool := !unitWritten s.core (readRegs i) && s.mark.isNone

/-- Checks 2 to 7 of R174 for a legal command, the first that applies and no later one: an unwritten register, an odd base,
a size mismatch, a zero length, a region that wraps, a written region that overlaps another one of the command (R58) or one
of another instance's running command (R185, log 13). -/
def checks (i : Instr) (s : State) : Verdict :=
  if readsUnwritten i s then .raise .unwrittenReg
  else if oddBase i s.core then .ends .misaligned
  else if isMatmul i && !sizesMatch s.core then .ends .sizeMismatch
  else if isConv i && (decide (lenAOf s.core = 0) || decide (lenBOf s.core = 0)) then .raise .zeroLength
  else if (regions i s.core).any wraps then .raise .addrWrap
  else if selfConflict (regions i s.core) || crossConflict (regions i s.core) (peerRegions s) then .raise .overlap
  else .pass

/-- Whether `MEM` backs every byte of every element the command accesses (R51, R174 check 8). -/
def accessible (i : Instr) (s : State) : Bool :=
  (accessed i s.core).all (fun r => spanInMem s.memMap r.base r.size)

/-- The frame of every command (R100, R172, R174): the checks in order, then, if they pass, the command's rule and
`finish(OK)`; a command that a check ends has changed nothing but STATUS and the phase (R175). -/
def runCommand (i : Instr) (effect : State → State) (s : State) : Host.Outcome State Fault Refusal :=
  match checks i s with
  | .raise r => raiseFault r s
  | .ends code => .next (finish code s)
  | .pass => if accessible i s then .next (finish .ok (effect s)) else .fault .stuck

end Sys2Proof.Machine
end

