-- ==== Sys2Proof/Machine/Accumulator.lean ====
section
/-! DEFINITION. The accumulator datapath: ACC.CLR, MAC.W, MAC.D, DMAC.W, DMAC.D, CLIP, RD.T, RD.S (40_accumulator
R102 to R109). Each meaning is the command frame around the command's pseudocode. -/

namespace Sys2Proof.Machine

/-- The paired product `p` of R105 and R106: the exact sum of the two lane products. -/
def pairProd (x y : Word) : Int := prod (lane0 x) (lane0 y) + prod (lane1 x) (lane1 y)

/-- R102: `x[ACC_LO] <- 0; x[ACC_HI] <- 0`. -/
def accClrEffect (s : State) : State := setReg .accHi 0 (setReg .accLo 0 s)

/-- R103: `t = mac32(s_32(x[ACC_LO]), lane0(x[OPA]), lane0(x[OPB]))`. -/
def macWEffect (s : State) : State :=
  setAcc32 (mac32 (acc32 s) (lane0 (regVal s .opa)) (lane0 (regVal s .opb))) s

/-- R104: `t = mac64(x[ACC], lane0(x[OPA]), lane0(x[OPB]))`. -/
def macDEffect (s : State) : State :=
  setAcc64 (mac64 (acc64 s) (lane0 (regVal s .opa)) (lane0 (regVal s .opb))) s

/-- R105: `t = s_32(s_32(x[ACC_LO]) + p)`. -/
def dmacWEffect (s : State) : State :=
  setAcc32 (sN 32 (acc32 s + pairProd (regVal s .opa) (regVal s .opb))) s

/-- R106: `t = s_64(x[ACC] + p)`. -/
def dmacDEffect (s : State) : State :=
  setAcc64 (sN 64 (acc64 s + pairProd (regVal s .opa) (regVal s .opb))) s

/-- R107: `x[RES] <- wrap_32(clip32(s_32(x[OPA]), s_32(x[LOW]), s_32(x[HIGH])))`. -/
def clipEffect (s : State) : State :=
  setReg .res (toWord (clip32 (signed32 (regVal s .opa)) (signed32 (regVal s .low)) (signed32 (regVal s .high)))) s

/-- R108: `x[RES] <- wrap_32(narrow_fast(s_32(x[ACC_LO])))`. -/
def rdTEffect (s : State) : State := setReg .res (toWord (narrowFast (acc32 s))) s

/-- R109: `x[RES] <- wrap_32(narrow_precise(x[ACC]))`. -/
def rdSEffect (s : State) : State := setReg .res (toWord (narrowPrecise (acc64 s))) s

/-- ACC.CLR (R102). -/
def execAccClr (s : State) : Host.Outcome State Fault Refusal := runCommand .accClr accClrEffect s

/-- MAC.W (R103). -/
def execMacW (s : State) : Host.Outcome State Fault Refusal := runCommand .macW macWEffect s

/-- MAC.D (R104). -/
def execMacD (s : State) : Host.Outcome State Fault Refusal := runCommand .macD macDEffect s

/-- DMAC.W (R105). -/
def execDmacW (s : State) : Host.Outcome State Fault Refusal := runCommand .dmacW dmacWEffect s

/-- DMAC.D (R106). -/
def execDmacD (s : State) : Host.Outcome State Fault Refusal := runCommand .dmacD dmacDEffect s

/-- CLIP (R107). -/
def execClip (s : State) : Host.Outcome State Fault Refusal := runCommand .clip clipEffect s

/-- RD.T (R108). -/
def execRdT (s : State) : Host.Outcome State Fault Refusal := runCommand .rdT rdTEffect s

/-- RD.S (R109). -/
def execRdS (s : State) : Host.Outcome State Fault Refusal := runCommand .rdS rdSEffect s

end Sys2Proof.Machine
end

