-- ==== Sys2Proof/Machine/Convolution.lean ====
section
/-! DEFINITION. The convolution engine: CONV.F and CONV.P (41_convolution R130 to R134). The internal accumulators are
fresh in every output and not architectural (10_state R43). Inside one phase the element reads use the memory at the
phase's start: written regions are disjoint from every other region (R58), so the order is not architectural (R69). -/

namespace Sys2Proof.Machine

/-- The 32-bit accumulator of output `n` of CONV.F (R132): `k` runs from `max(0, n - lenB + 1)` to `min(n, lenA - 1)`. -/
def convAcc32 (m : Memory) (a b lenA lenB n : Nat) : Int :=
  (List.range' (n + 1 - lenB) (min n (lenA - 1) + 1 - (n + 1 - lenB))).foldl
    (fun acc k => mac32 acc (q m (a + 2 * k)) (q m (b + 2 * (n - k)))) 0

/-- The element writes of CONV.F (R132): `PutQ(x[DST] + 2n, narrow_fast(acc))` for `n = 0 .. N - 1`. -/
def convFWrites (m : Memory) (a b dst lenA lenB : Nat) : List (Nat × Int) :=
  (List.range (convN lenA lenB)).map fun n => (dst + 2 * n, narrowFast (convAcc32 m a b lenA lenB n))

/-- The element writes that prepare scratch buffer 1 (R133): `L - 1` zeros, the longer sequence, `L - 1` zeros. -/
def padWrites (m : Memory) (long s1 L M : Nat) : List (Nat × Int) :=
  (List.range (L - 1)).map (fun i => (s1 + 2 * i, 0))
  ++ (List.range M).map (fun j => (s1 + 2 * (L - 1 + j), q m (long + 2 * j)))
  ++ (List.range (L - 1)).map (fun i => (s1 + 2 * (L - 1 + M + i), 0))

/-- The element writes that prepare scratch buffer 2 (R133): the shorter sequence reversed. -/
def reverseWrites (m : Memory) (short s2 L : Nat) : List (Nat × Int) :=
  (List.range L).map fun i => (s2 + 2 * i, q m (short + 2 * (L - 1 - i)))

/-- Scratch preparation (R133): the longer sequence is `a` when `lenA >= lenB` (a tie selects `a`) and `b` otherwise. -/
def convPScratch (m : Memory) (a b s1 s2 lenA lenB : Nat) : Memory :=
  let long := if lenB ≤ lenA then a else b
  let short := if lenB ≤ lenA then b else a
  putAll m (padWrites m long s1 (convL lenA lenB) (convM lenA lenB) ++ reverseWrites m short s2 (convL lenA lenB))

/-- The 64-bit accumulator of output `n` of CONV.P (R134): the dot product of scratch buffer 2 with the window of scratch
buffer 1 at `n`. -/
def convAcc64 (m : Memory) (s1 s2 L n : Nat) : Int :=
  (List.range L).foldl (fun acc i => mac64 acc (q m (s2 + 2 * i)) (q m (s1 + 2 * (n + i)))) 0

/-- The output writes of CONV.P (R134): `PutQ(x[DST] + 2n, narrow_precise(acc))` for `n = 0 .. N - 1`. -/
def convPWrites (m : Memory) (s1 s2 dst lenA lenB : Nat) : List (Nat × Int) :=
  (List.range (convN lenA lenB)).map fun n =>
    (dst + 2 * n, narrowPrecise (convAcc64 m s1 s2 (convL lenA lenB) n))

/-- CONV.F's memory writes (R132). -/
def convFEffect (s : State) : State :=
  setMem (putAll s.mem (convFWrites s.mem (unitAddr s.core .srcA) (unitAddr s.core .srcB) (unitAddr s.core .dst)
    (lenAOf s.core) (lenBOf s.core))) s

/-- CONV.P's memory writes: the scratch preparation of R133, then the outputs of R134 read from the scratch. -/
def convPEffect (s : State) : State :=
  let m := convPScratch s.mem (unitAddr s.core .srcA) (unitAddr s.core .srcB) (unitAddr s.core .scr1)
    (unitAddr s.core .scr2) (lenAOf s.core) (lenBOf s.core)
  setMem (putAll m (convPWrites m (unitAddr s.core .scr1) (unitAddr s.core .scr2) (unitAddr s.core .dst)
    (lenAOf s.core) (lenBOf s.core))) s

/-- CONV.F (R132). -/
def execConvF (s : State) : Host.Outcome State Fault Refusal := runCommand .convF convFEffect s

/-- CONV.P (R133, R134). -/
def execConvP (s : State) : Host.Outcome State Fault Refusal := runCommand .convP convPEffect s

end Sys2Proof.Machine
end

