-- ==== Sys2Proof/Machine/Matmul.lean ====
section
/-! DEFINITION. The matrix-multiply engine: MATMUL.F and MATMUL.C (42_matmul R150 to R155). `B` is transposed into the
scratch, then every output element is a dot product of a row of `A` with a row of the scratch. Inside one phase the
element reads use the memory at the phase's start (R58, R69). -/

namespace Sys2Proof.Machine

/-- The element writes of the transposition of R152: `PutQ(x[SCR1] + 2(j*Br + k), Q(x[SRC_B] + 2(k*Bc + j)))`. -/
def transposeWrites (m : Memory) (b t br bc : Nat) : List (Nat × Int) :=
  (List.range br).flatMap fun k => (List.range bc).map fun j =>
    (t + 2 * (j * br + k), q m (b + 2 * (k * bc + j)))

/-- The 32-bit accumulator of output `(i, j)` of MATMUL.F (R153). -/
def dotAcc32 (m : Memory) (a t ac br i j : Nat) : Int :=
  (List.range ac).foldl (fun acc k => mac32 acc (q m (a + 2 * (i * ac + k))) (q m (t + 2 * (j * br + k)))) 0

/-- The output writes of MATMUL.F (R153): `PutQ(x[DST] + 2(i*Dc + j), narrow_fast(acc))`. -/
def matmulFWrites (m : Memory) (a t dst ar ac br bc dc : Nat) : List (Nat × Int) :=
  (List.range ar).flatMap fun i => (List.range bc).map fun j =>
    (dst + 2 * (i * dc + j), narrowFast (dotAcc32 m a t ac br i j))

/-- The element writes of the complex transposition of R154, the real half first. -/
def transposeWritesC (m : Memory) (b t br bc : Nat) : List (Nat × Int) :=
  (List.range br).flatMap fun k => (List.range bc).flatMap fun j => (List.range 2).map fun c =>
    (t + 4 * (j * br + k) + 2 * c, q m (b + 4 * (k * bc + j) + 2 * c))

/-- The real accumulator of output `(i, j)` of MATMUL.C (R155): `re = s_64(re + prod(ar, br) - prod(ai, bi))`. -/
def dotAccRe (m : Memory) (a t ac br i j : Nat) : Int :=
  (List.range ac).foldl (fun acc k =>
    sN 64 (acc + cplxRe (q m (a + 4 * (i * ac + k))) (q m (a + 4 * (i * ac + k) + 2))
      (q m (t + 4 * (j * br + k))) (q m (t + 4 * (j * br + k) + 2)))) 0

/-- The imaginary accumulator of output `(i, j)` of MATMUL.C (R155): `im = s_64(im + prod(ar, bi) + prod(ai, br))`. -/
def dotAccIm (m : Memory) (a t ac br i j : Nat) : Int :=
  (List.range ac).foldl (fun acc k =>
    sN 64 (acc + cplxIm (q m (a + 4 * (i * ac + k))) (q m (a + 4 * (i * ac + k) + 2))
      (q m (t + 4 * (j * br + k))) (q m (t + 4 * (j * br + k) + 2)))) 0

/-- The output writes of MATMUL.C (R155): the saturated real half at `x[DST] + 4(i*Dc + j)`, the imaginary half 2 above. -/
def matmulCWrites (m : Memory) (a t dst ar ac br bc dc : Nat) : List (Nat × Int) :=
  (List.range ar).flatMap fun i => (List.range bc).flatMap fun j =>
    [(dst + 4 * (i * dc + j), narrowPrecise (dotAccRe m a t ac br i j)),
     (dst + 4 * (i * dc + j) + 2, narrowPrecise (dotAccIm m a t ac br i j))]

/-- MATMUL.F's memory writes: the transposition of R152, then the outputs of R153 read from the scratch. -/
def matmulFEffect (s : State) : State :=
  let m := putAll s.mem (transposeWrites s.mem (unitAddr s.core .srcB) (unitAddr s.core .scr1) (bRows s.core) (bCols s.core))
  setMem (putAll m (matmulFWrites m (unitAddr s.core .srcA) (unitAddr s.core .scr1) (unitAddr s.core .dst)
    (aRows s.core) (aCols s.core) (bRows s.core) (bCols s.core) (dCols s.core))) s

/-- MATMUL.C's memory writes: the transposition of R154, then the outputs of R155 read from the scratch. -/
def matmulCEffect (s : State) : State :=
  let m := putAll s.mem (transposeWritesC s.mem (unitAddr s.core .srcB) (unitAddr s.core .scr1) (bRows s.core) (bCols s.core))
  setMem (putAll m (matmulCWrites m (unitAddr s.core .srcA) (unitAddr s.core .scr1) (unitAddr s.core .dst)
    (aRows s.core) (aCols s.core) (bRows s.core) (bCols s.core) (dCols s.core))) s

/-- MATMUL.F (R152, R153). -/
def execMatmulF (s : State) : Host.Outcome State Fault Refusal := runCommand .matmulF matmulFEffect s

/-- MATMUL.C (R154, R155). -/
def execMatmulC (s : State) : Host.Outcome State Fault Refusal := runCommand .matmulC matmulCEffect s

end Sys2Proof.Machine
end

