-- ==== Sys2Proof/Machine/Dispatch.lean ====
section
/-! DEFINITION. The finish transition of each legal command (60_exceptions R172): one arm per command. -/

namespace Sys2Proof.Machine

def exec (i : Instr) (s : State) : Host.Outcome State Fault Refusal :=
  match i with
  | .accClr => Sys2Proof.Machine.execAccClr s
  | .macW => Sys2Proof.Machine.execMacW s
  | .macD => Sys2Proof.Machine.execMacD s
  | .dmacW => Sys2Proof.Machine.execDmacW s
  | .dmacD => Sys2Proof.Machine.execDmacD s
  | .clip => Sys2Proof.Machine.execClip s
  | .rdT => Sys2Proof.Machine.execRdT s
  | .rdS => Sys2Proof.Machine.execRdS s
  | .convF => Sys2Proof.Machine.execConvF s
  | .convP => Sys2Proof.Machine.execConvP s
  | .matmulF => Sys2Proof.Machine.execMatmulF s
  | .matmulC => Sys2Proof.Machine.execMatmulC s

end Sys2Proof.Machine
end

