-- ==== Sys2Proof/Machine/HostBus.lean ====
section
/-! DEFINITION. The host's bus accesses: CORE's registers (20_memory R53, 30_encoding R71, R72, 70_reset_and_hazards
R195) and the data memory (20_memory R61, R63, 70_reset_and_hazards R196), and one operation of a host program
(30_encoding R81). -/

namespace Sys2Proof.Machine

/-! ### The register block of one instance -/

/-- The register map of R71: the register at an offset from BASE; offsets 0x4C to 0xFC are reserved. -/
def regAt (off : Nat) : Option RegName :=
  match off with
  | 0x00 => some .cmd
  | 0x04 => some .status
  | 0x08 => some (.data .opa)
  | 0x0C => some (.data .opb)
  | 0x10 => some (.data .low)
  | 0x14 => some (.data .high)
  | 0x18 => some (.data .accLo)
  | 0x1C => some (.data .accHi)
  | 0x20 => some (.data .res)
  | 0x24 => some (.data .srcA)
  | 0x28 => some (.data .srcB)
  | 0x2C => some (.data .dst)
  | 0x30 => some (.data .scr1)
  | 0x34 => some (.data .scr2)
  | 0x38 => some (.data .lenA)
  | 0x3C => some (.data .lenB)
  | 0x40 => some (.data .aDim)
  | 0x44 => some (.data .bDim)
  | 0x48 => some (.data .dDim)
  | _ => none

/-- The offset of a register from BASE (R71). -/
def regOffset : RegName → Nat
  | .cmd => 0x00
  | .status => 0x04
  | .data .opa => 0x08
  | .data .opb => 0x0C
  | .data .low => 0x10
  | .data .high => 0x14
  | .data .accLo => 0x18
  | .data .accHi => 0x1C
  | .data .res => 0x20
  | .data .srcA => 0x24
  | .data .srcB => 0x28
  | .data .dst => 0x2C
  | .data .scr1 => 0x30
  | .data .scr2 => 0x34
  | .data .lenA => 0x38
  | .data .lenB => 0x3C
  | .data .aDim => 0x40
  | .data .bDim => 0x44
  | .data .dDim => 0x48

/-- The number of bytes of an access. -/
def sizeBytes : AccessSize → Nat
  | .byte => 1
  | .half => 2
  | .word => 4

/-- Whether the engine of an instance is BUSY (R42). -/
def unitBusy (c : CoreUnit) : Bool :=
  match c.phase with
  | .idle => false
  | .busy _ => true

/-- The register an access names, if it is an aligned 32-bit access to an assigned offset (R53, R71). -/
def accessedReg (c : CoreUnit) (addr : Nat) (size : AccessSize) : Option RegName :=
  if size = .word ∧ addr % 4 = 0 ∧ c.base ≤ addr then regAt (addr - c.base) else none

/-- A host read of an instance's register block. While BUSY only STATUS may be read (R72, R195); a malformed access or a
reserved offset is BAD_REG_ACCESS (R53, R72). No side effect (R72). An unwritten register answers the value it holds
(log 1); that the read raises UNWRITTEN_REG (R39) is `unitReadsUnwritten`. -/
def unitRead (c : CoreUnit) (addr : Nat) (size : AccessSize) : Except ModelFault Word :=
  match unitBusy c, accessedReg c addr size with
  | _, some .status => .ok c.status
  | true, some .cmd => .error .busyAccess
  | true, some (.data _) => .error .busyAccess
  | true, none => .error .busyAccess
  | false, some .cmd => .ok c.cmd
  | false, some (.data d) => .ok (regGet c.regs d).value
  | false, none => .error .badRegAccess

/-- Whether a host read of an instance's register block is one of an unwritten register (R39). -/
def unitReadsUnwritten (c : CoreUnit) (addr : Nat) (size : AccessSize) : Bool :=
  match unitBusy c, accessedReg c addr size with
  | true, _ => false
  | false, none => false
  | false, some .cmd => false
  | false, some .status => false
  | false, some (.data d) => !(regGet c.regs d).written

/-- A host write of an instance's register block. While BUSY every write is BUSY_ACCESS (R72, R171); a write of STATUS or RES
is ignored (R72, R39); a write of CMD starts the command (R74, R171); any other write stores the register's writable bits
and sets its written-flag (R39, R72). -/
def unitWrite (c : CoreUnit) (addr : Nat) (size : AccessSize) (v : Word) : Except ModelFault CoreUnit :=
  match unitBusy c, accessedReg c addr size with
  | true, some _ => .error .busyAccess
  | true, none => .error .busyAccess
  | false, some .cmd => .ok (unitStart v c)
  | false, some .status => .ok c
  | false, some (.data .res) => .ok c
  | false, some (.data d) => .ok (unitSetReg c d v)
  | false, none => .error .badRegAccess

/-! ### Routing a host access -/

/-- The instances, instance 0 first. -/
def units (s : State) : List CoreUnit := s.core :: s.peers

/-- Whether an access of `n` bytes at an address touches the register block of an instance (R50, log 14). -/
def touchesBlock (addr n : Nat) (c : CoreUnit) : Bool :=
  decide (addr < c.base + Config.blockBytes) && decide (c.base < addr + n)

/-- The number of the instance whose register block an access touches. DESIGN CHOICE: an access that straddles the adjacent
blocks of two instances is one to the lower-numbered of them, whichever of the two is BUSY (log 14). -/
def unitFor (s : State) (addr n : Nat) : Option Nat := (units s).findIdx? (touchesBlock addr n)

/-- Replace instance `k`. -/
def setUnit (k : Nat) (c : CoreUnit) (s : State) : State :=
  match k with
  | 0 => { s with core := c }
  | j + 1 => { s with peers := s.peers.set j c }

/-- Whether a host data access touches a region of a running command (R63, R196). -/
def hitsRunning (s : State) (addr n : Nat) : Bool :=
  (units s).any fun c => (runningRegions c).any (overlaps ⟨addr, n, true⟩)

/-- Why a host access is not performed. -/
inductive BusStop where
  /-- It raises a model fault (60_exceptions R176). -/
  | raises (r : ModelFault)
  /-- It leaves `MEM` and touches no register block; no rule says what it does (log 9). -/
  | unmapped
  deriving DecidableEq, Repr

/-- A host store on the bus: to the register block it touches, else to the data memory. -/
def busStore (s : State) (addr : Nat) (size : AccessSize) (v : Word) : Except BusStop State :=
  match unitFor s addr (sizeBytes size) with
  | some k =>
    match unitWrite ((units s).getD k s.core) addr size v with
    | .ok c => .ok (setUnit k c s)
    | .error r => .error (.raises r)
  | none =>
    if hitsRunning s addr (sizeBytes size) then .error (.raises .hostBufferAccess)
    else if spanInMem s.memMap addr (sizeBytes size) then
      .ok (setMem (memWrite s.mem addr (sizeBytes size) v.toNat) s)
    else .error .unmapped

/-- The value a host load of data memory gives the host: a halfword as the Q15 value it holds (`RH`, R81), a byte or word
unsigned. -/
def loadedValue (size : AccessSize) (v : Nat) : Int :=
  match size with
  | .byte => (v : Int)
  | .half => sN 16 v
  | .word => (v : Int)

/-- What a host load on the bus answers: the value, or why there is none. A load changes nothing (R54, R72). -/
def busLoad (s : State) (addr : Nat) (size : AccessSize) : Except BusStop Int :=
  match unitFor s addr (sizeBytes size) with
  | some k =>
    match unitRead ((units s).getD k s.core) addr size with
    | .ok w => .ok (w.toNat : Int)
    | .error r => .error (.raises r)
  | none =>
    if hitsRunning s addr (sizeBytes size) then .error (.raises .hostBufferAccess)
    else if spanInMem s.memMap addr (sizeBytes size) then
      .ok (loadedValue size (memRead s.mem addr (sizeBytes size)))
    else .error .unmapped

/-- A host load of an unwritten register raises UNWRITTEN_REG (R39), which marks the state. -/
def noteLoad (s : State) (addr : Nat) (size : AccessSize) : State :=
  match unitFor s addr (sizeBytes size) with
  | some k => if unitReadsUnwritten ((units s).getD k s.core) addr size then withMark .unwrittenReg s else s
  | none => s

/-- The outcome of a host access that is not performed. -/
def busStopped (s : State) : BusStop → Host.Outcome State Fault Refusal
  | .raises r => raiseFault r s
  | .unmapped => .fault .hostUnmapped

/-! ### The host program -/

/-- The value of a host temporary; one never set is empty. -/
def tempOf (s : State) (t : Nat) : List Int := s.temps.getD t []

/-- Replace the `t`-th entry of the temporaries. -/
def tempsSet : List (List Int) → Nat → List Int → List (List Int)
  | [], 0, v => [v]
  | [], t + 1, v => [] :: tempsSet [] t v
  | _ :: l, 0, v => v :: l
  | x :: l, t + 1, v => x :: tempsSet l t v

/-- Set a host temporary. -/
def setTemp (t : Nat) (v : List Int) (s : State) : State := { s with temps := tempsSet s.temps t v }

/-- The numbers a host term stands for. -/
def termVals (s : State) : HostTerm → List Int
  | .const vs => vs
  | .temp t => tempOf s t
  | .bits t hi lo => [wrapN (hi + 1 - lo) (asr ((tempOf s t).headD 0) lo)]

/-- Whether a host condition holds: equality or inequality of two terms, the conditions of `HostCond` (log 16). -/
def condHolds (s : State) : HostCond → Bool
  | .eq a b => decide (termVals s a = termVals s b)
  | .ne a b => decide (termVals s a ≠ termVals s b)

/-- The 32-bit value a host store puts on the bus: `wrap_32` of the number. That a number outside 0 to 2^32 - 1 (a negative
Q15 value, say) is wrapped is a DESIGN CHOICE (log 17). -/
def storeWord (s : State) (v : HostTerm) : Word := BitVec.ofNat 32 (wrapN 32 ((termVals s v).headD 0)).toNat

/-- Move the host to a position of its program. -/
def setHpc (n : Nat) (s : State) : State := { s with hpc := n }

/-- One operation of a host program (R81). The host moves on only where the access answers. -/
def hostOp (op : HostOp) (s : State) : Host.Outcome State Fault Refusal :=
  match op with
  | .store size addr v =>
    match busStore s addr size (storeWord s v) with
    | .ok t => .next (setHpc (s.hpc + 1) t)
    | .error e => busStopped s e
  | .load size addr t append =>
    match busLoad s addr size with
    | .ok v => .next (setHpc (s.hpc + 1) (setTemp t (if append then tempOf s t ++ [v] else [v]) (noteLoad s addr size)))
    | .error e => busStopped s e
  | .set t v => .next (setHpc (s.hpc + 1) (setTemp t (termVals s v) s))
  | .ifGoto c target => .next (setHpc (if condHolds s c then target else s.hpc + 1) s)

/-- The host's turn: the operation at its position; a host whose program has ended does nothing. -/
def hostTurn (s : State) : Host.Outcome State Fault Refusal :=
  match s.prog[s.hpc]? with
  | none => .next s
  | some op => hostOp op s

end Sys2Proof.Machine
end

