-- ==== Sys2Proof/Machine/Turns.lean ====
section
/-! DEFINITION. The transitions of the agents and the order in which they move: the engine's finish transition
(60_exceptions R172), the reset of an instance (70_reset_and_hazards R190, R191), and one move of the machine. -/

namespace Sys2Proof.Machine

/-! ### The engine -/

/-- The engine transition of instance 0 (R172): nothing while IDLE; while BUSY the command word is decoded (R80) and the
command performed; an illegal word finishes with ILLEGAL_CMD (R78, R174 check 1). -/
def engineStep (s : State) : Host.Outcome State Fault Refusal :=
  match s.core.phase with
  | .idle => .next s
  | .busy w =>
    match decode w with
    | .error _ => .next (finish .illegalCmd s)
    | .ok i => settle s (exec i s)

/-- Whether an outcome is a next state. -/
def answers : Host.Outcome State Fault Refusal → Bool
  | .next _ => true
  | .fault _ => false
  | .refused _ => false

/-- Whether instance 0's engine has a transition: it is BUSY, not stuck (R172, R177), and not past a second model fault. -/
def engineEnabled (s : State) : Bool :=
  match s.core.phase with
  | .idle => false
  | .busy w =>
    match decode w with
    | .error _ => true
    | .ok i => answers (exec i s)

/-! ### Reset -/

/-- Draw a free value for every backed byte of a list of addresses (R191). -/
def drawBytes : List Nat → State → State
  | [], s => s
  | a :: as, s =>
    drawBytes as
      (if inMem s.memMap a then { s with mem := writeByte s.mem a (Config.freeByte s.draws), draws := s.draws + 1 } else s)

/-- The byte addresses of the written regions of a list (R57, R191). -/
def writtenBytes (rs : List Region) : List Nat :=
  (rs.filter (·.written)).flatMap fun r => (List.range r.size).map (r.base + ·)

/-- An abandoned command that conflicts with another instance's running command raises OVERLAP (R185): it never reaches its
own finish, and the other one no longer meets it at its finish (log 13). -/
def noteAbandoned (s : State) : State := if runningConflict s then withMark .overlap s else s

/-- The reset of instance 0 (R190): a BUSY command is abandoned and its written regions take unspecified bytes (R191);
then every register is as R44 says. The data memory is otherwise unchanged and the mark is not cleared. -/
def resetUnit (s : State) : State :=
  let t := drawBytes (writtenBytes (runningRegions s.core)) (noteAbandoned s)
  { t with core := .reset s.core.base }

/-! ### One move of the machine -/

/-- The first instance with an enabled engine transition, among the first `n` peers counted from `k`. -/
def firstEnabled (s : State) : List Nat → Option Nat
  | [] => none
  | 0 :: ks => if engineEnabled s then some 0 else firstEnabled s ks
  | (j + 1) :: ks => if engineEnabled (swapUnit j s) then some (j + 1) else firstEnabled s ks

/-- Who moves when no turn is scheduled: an engine that has a transition, else the host (weak fairness, R172, R200,
log 7). -/
def defaultTurn (s : State) : Turn :=
  match firstEnabled s (List.range (s.peers.length + 1)) with
  | some k => .engine k
  | none => .host

/-- Who moves next. -/
def nextTurn (s : State) : Turn :=
  match s.sched with
  | [] => defaultTurn s
  | t :: _ => t

/-- The state with the scheduled turn taken off. -/
def dropTurn (s : State) : State := { s with sched := s.sched.tail }

/-- The move of the agent whose turn it is. -/
def takeTurn (t : Turn) (s : State) : Host.Outcome State Fault Refusal :=
  match t with
  | .engine k => onUnit k engineStep s
  | .host => hostTurn s
  | .reset k => onUnit k (fun u => .next (resetUnit u)) s

/-- The reason past which no rule says what an engine or the host does: any but UNWRITTEN_REG, past which the registers
still hold values and every rule its effect (R176, log 5). -/
def haltedBy : Option ModelFault → Option ModelFault
  | none => none
  | some r => if r = .unwrittenReg then none else some r

/-- One move of the machine. A halted state takes no transition but a reset, which leaves the mark (R176, R190, log 5). -/
def advance (s : State) : Host.Outcome State Fault Refusal :=
  match haltedBy s.mark, nextTurn s with
  | none, t => takeTurn t (dropTurn s)
  | some _, .reset k => takeTurn (.reset k) (dropTurn s)
  | some r, .engine _ => .fault (.marked r)
  | some r, .host => .fault (.marked r)

/-- Place a command word for instance 0's engine and give it the next turn: the start of R171 without the host's bus
access that causes it. -/
def placeCommand (w : Word) (s : State) : State :=
  { startCommand w s with sched := .engine 0 :: s.sched }

end Sys2Proof.Machine
end

