-- ==== Sys2Proof/Machine/Step.lean ====
section
/-! DEFINITION. One step of the machine, and the placing of a command word for it. -/

namespace Sys2Proof.Machine

/-- One step: the agent whose turn it is moves (Machine/Turns.lean). -/
def step (s : State) : Host.Outcome State Fault Refusal := advance s

/-- `s` with the command word `w` (its bits below `nbits`) started on instance 0 and the engine's turn next, so that the
very next step decodes and performs it (log 8). -/
def State.withFetchWord (s : State) (nbits w : Nat) : State := placeCommand (tableWord nbits w) s

end Sys2Proof.Machine
end

