-- ==== Sys2Proof/WellFormed.lean ====
section
/-! DEFINITION. Well-formedness: of a command (it has no field to check, R70), of the parameters BASE and MEM (00_scope
R8, 20_memory R50, R51), and of a host program (30_encoding R81). -/

namespace Sys2Proof

/-- Every command is well-formed: no command has an operand field (R70, R76, R77). -/
def Instr.wf : Instr → Bool
  | .accClr => true
  | .macW => true
  | .macD => true
  | .dmacW => true
  | .dmacD => true
  | .clip => true
  | .rdT => true
  | .rdS => true
  | .convF => true
  | .convP => true
  | .matmulF => true
  | .matmulC => true

namespace Machine

/-- A register block's address: 256-byte aligned (R8) and inside the 32-bit address space (R50). -/
def baseWf (base : Nat) : Bool :=
  decide (base % Config.blockBytes = 0) && decide (base + Config.blockBytes ≤ Config.addrSpace)

/-- A range of `MEM`: inside the address space (R50). -/
def rangeWf (r : MemRange) : Bool := decide (r.start + r.size ≤ Config.addrSpace)

/-- The register block is not in `MEM` (R51). -/
def blockOutside (base : Nat) (r : MemRange) : Bool :=
  decide (r.size = 0) || decide (r.start + r.size ≤ base) || decide (base + Config.blockBytes ≤ r.start)

/-- No two instances share a register block (R7, R8). -/
def basesDistinct : List CoreUnit → Bool
  | [] => true
  | c :: cs => cs.all (fun d => decide (c.base ≠ d.base)) && basesDistinct cs

/-- The parameters of a machine (R8, R51): every `BASE` aligned and in the space, `MEM` in the space, no register block in
`MEM`, no two instances at one `BASE`. -/
def platformWf (s : State) : Bool :=
  (units s).all (fun c => baseWf c.base && s.memMap.all (blockOutside c.base)) && s.memMap.all rangeWf
    && basesDistinct (units s)

/-- A host operation in a program of `n` operations: its addresses are in the space and its jump stays in the program. -/
def hostOpWf (n : Nat) : HostOp → Bool
  | .store size addr _ => decide (addr + sizeBytes size ≤ Config.addrSpace)
  | .load size addr _ _ => decide (addr + sizeBytes size ≤ Config.addrSpace)
  | .set _ _ => true
  | .ifGoto _ target => decide (target ≤ n)

/-- A host program (R81). -/
def hostProgramWf (p : List HostOp) : Bool := p.all (hostOpWf p.length)

end Machine

end Sys2Proof
end

