-- ==== Sys2Proof/Safety.lean ====
section
/-! DEFINITION. What counts as a safe run, the invariant of the machine, what a command may change, and the exact sums
of 41_convolution R131 and 42_matmul R153, R155, in the terms the claims use. -/

namespace Sys2Proof.Machine

/-! ### Safe runs -/

/-- `k` steps from `s` end in a next state whose model fault mark is clear (60_exceptions R176). -/
def SafeFor (k : Nat) (s : State) : Prop := ∃ t, Host.Core.run Sys2Proof.core k s = .next t ∧ t.mark = none

/-- The conditions under which R174 performs a command's rule and finishes with OK: every register the command reads is
written, in a marked state too, the checks pass, and no element access is outside `MEM`. -/
def Ready (i : Instr) (s : State) : Prop :=
  unitWritten s.core (readRegs i) = true ∧ checks i s = .pass ∧ accessible i s = true

/-! ### The invariant -/

/-- The phase carries the CMD value written (10_state R42). -/
def phaseIsCmd (c : CoreUnit) : Bool :=
  match c.phase with
  | .idle => true
  | .busy w => decide (w = c.cmd)

/-- One instance: STATUS.BUSY says the phase (R42), which carries CMD; the reserved STATUS bits read 0 and ERR is at most 3
(R22), and 0 while BUSY (R171); bits 31:16 of LEN_A and LEN_B read 0 (R34, R35). -/
def unitInv (c : CoreUnit) : Bool :=
  decide (statusBusy c.status = unitBusy c) && phaseIsCmd c && statusReservedZero c.status
    && decide (statusErr c.status ≤ 3) && (!unitBusy c || decide (statusErr c.status = 0))
    && decide (highHalf c.regs.lenA.value = 0) && decide (highHalf c.regs.lenB.value = 0)

/-- The machine: the memory in its canonical form and inside `MEM` (R51), and every instance as `unitInv` says. -/
def stateInv (s : State) : Bool :=
  memWf s.mem && s.mem.all (fun c => inMem s.memMap c.1) && (units s).all unitInv

/-! ### What a command may change -/

/-- `finish(code)` (R172) and nothing else of the instance but its data registers: ERR and BUSY as the code says, the other
STATUS bits, CMD and BASE unchanged, the phase IDLE. -/
def Finished (code : CompletionCode) (s t : State) : Prop :=
  statusErr t.core.status = codeValue code ∧ statusBusy t.core.status = false
    ∧ t.core.status &&& 0xFFFFFF0E#32 = s.core.status &&& 0xFFFFFF0E#32
    ∧ t.core.phase = .idle ∧ t.core.cmd = s.core.cmd ∧ t.core.base = s.core.base

/-- Every data register but those listed, its written-flag included, is unchanged. -/
def RegsSameBut (ds : List DataReg) (s t : State) : Prop :=
  ∀ d, d ∉ ds → regGet t.core.regs d = regGet s.core.regs d

/-- Everything but instance 0 and the data memory is unchanged. -/
def EnvironmentSame (s t : State) : Prop :=
  t.peers = s.peers ∧ t.memMap = s.memMap ∧ t.mark = s.mark ∧ t.draws = s.draws ∧ t.sched = s.sched
    ∧ t.prog = s.prog ∧ t.hpc = s.hpc ∧ t.temps = s.temps

/-- Everything but instance 0, the data memory and the mark is unchanged. -/
def EnvironmentSameButMark (s t : State) : Prop :=
  t.peers = s.peers ∧ t.memMap = s.memMap ∧ t.draws = s.draws ∧ t.sched = s.sched
    ∧ t.prog = s.prog ∧ t.hpc = s.hpc ∧ t.temps = s.temps

/-- Every byte of the data memory reads as before. -/
def BytesSame (s t : State) : Prop := ∀ a, readByte t.mem a = readByte s.mem a

/-- An address lies in no written region of a list. -/
def OutsideWritten (rs : List Region) (a : Nat) : Prop :=
  ∀ r ∈ rs, r.written = true → ¬ (r.base ≤ a ∧ a < r.base + r.size)

/-- Every byte outside the written regions of a command reads as before (20_memory R59). -/
def BytesSameOutside (i : Instr) (s t : State) : Prop :=
  ∀ a, OutsideWritten (regions i s.core) a → readByte t.mem a = readByte s.mem a

/-- A primitive command completed with OK: the registers of `ds` are written, nothing else changed. -/
def CompletedPrimitive (ds : List DataReg) (s t : State) : Prop :=
  Finished .ok s t ∧ unitWritten t.core ds = true ∧ RegsSameBut ds s t ∧ EnvironmentSame s t ∧ BytesSame s t

/-- A kernel command completed with OK: no data register changed (10_state R43), no byte outside its written regions. -/
def CompletedKernel (i : Instr) (s t : State) : Prop :=
  Finished .ok s t ∧ RegsSameBut [] s t ∧ EnvironmentSame s t ∧ BytesSameOutside i s t

/-- A command ended with a completion code other than OK: only STATUS and the phase changed (60_exceptions R175). -/
def EndedWith (code : CompletionCode) (s t : State) : Prop :=
  Finished code s t ∧ RegsSameBut [] s t ∧ EnvironmentSame s t ∧ BytesSame s t

/-- A command that reads an unwritten register raises UNWRITTEN_REG, which marks an unmarked state, and has no other
outcome (R39, R174 check 2, R176). -/
def UnwrittenMarks (i : Instr) (s : State) : Prop :=
  unitWritten s.core (readRegs i) = false → s.mark = none → exec i s = .next (withMark .unwrittenReg s)

/-- What a command whose checks do not all pass, or that is stuck, ends in (60_exceptions R174, R175, R176, R177). -/
def OutcomeByChecks (i : Instr) (s : State) : Prop :=
  UnwrittenMarks i s
    ∧ (∀ r, checks i s = .raise r → s.mark = none → exec i s = .next (withMark r s))
    ∧ (∀ code, checks i s = .ends code → ∃ t, exec i s = .next t ∧ EndedWith code s t)
    ∧ (checks i s = .pass → accessible i s = false → exec i s = .fault .stuck)

/-- An address lies in a region (00_scope R15). -/
def InRegion (r : Region) (a : Nat) : Prop := r.base ≤ a ∧ a < r.base + r.size

/-! ### Exact values -/

/-- Bits 15:0 of a register as a signed lane of `n` bits; bits 31:16 (30_encoding R76). -/
def laneLo (n : Nat) (r : Word) : BitVec n := (r.extractLsb' 0 16).signExtend n
def laneHi (n : Nat) (r : Word) : BitVec n := (r.extractLsb' 16 16).signExtend n

/-- The 64-bit accumulator as one word `{ACC_HI, ACC_LO}` (10_state R27). -/
def accBits (s : State) : BitVec 64 := regVal s .accHi ++ regVal s .accLo

/-- `S(n)` of R131: the sum over the `k` for which both `a[k]` and `b[n - k]` exist. -/
def exactConv (m : Memory) (a b lenA lenB n : Nat) : Int :=
  ∑ k ∈ Finset.range lenA, if k ≤ n ∧ n - k < lenB then q m (a + 2 * k) * q m (b + 2 * (n - k)) else 0

/-- `P(i, j)` of R153: the sum over `k < Ac` of `A(i, k) * B(k, j)`. -/
def exactDot (m : Memory) (a b ac bc i j : Nat) : Int :=
  ∑ k ∈ Finset.range ac, q m (a + 2 * (i * ac + k)) * q m (b + 2 * (k * bc + j))

/-- The real and the imaginary half of a complex element (00_scope R13). -/
def reAt (m : Memory) (p cols i k : Nat) : Int := q m (p + 4 * (i * cols + k))
def imAt (m : Memory) (p cols i k : Nat) : Int := q m (p + 4 * (i * cols + k) + 2)

/-- The exact real part of a complex product element (R155). -/
def exactRe (m : Memory) (a b ac bc i j : Nat) : Int :=
  ∑ k ∈ Finset.range ac, (reAt m a ac i k * reAt m b bc k j - imAt m a ac i k * imAt m b bc k j)

/-- The exact imaginary part of a complex product element (R155). -/
def exactIm (m : Memory) (a b ac bc i j : Nat) : Int :=
  ∑ k ∈ Finset.range ac, (reAt m a ac i k * imAt m b bc k j + imAt m a ac i k * reAt m b bc k j)

end Sys2Proof.Machine
end

