-- ==== Sys2Proof/Certificates/Slice0/Obligations.lean ====
section
/-! DEFINITION. The statements for the provers, from the numbered rules of spec/. -/

open Sys2Proof Sys2Proof.Machine

/-! ### The command word -/

/-- 30_encoding section 3 on words written out from the opcode map, and on four illegal words (95 V-E1 to V-E6). -/
def Obligations.DecodeReadsWordsOfTheSpec : Prop :=
  decode 0b00000000000000000000000000000001#32 = .ok .accClr
    ∧ decode 0b00000000000000000000000000000101#32 = .ok .dmacD
    ∧ decode 0b00000000000000000000000000010001#32 = .ok .convP
    ∧ decode 0b00000000000000000000000000010011#32 = .ok .matmulC
    ∧ decode 0x00000000#32 = .error .unassignedOp
    ∧ decode 0x00000014#32 = .error .unassignedOp
    ∧ decode 0x00000022#32 = .error .reservedBits
    ∧ decode 0x80000002#32 = .error .reservedBits

/-- 30_encoding R80: the twelve assigned words, and ILLEGAL for every other word, for all 2^32 words. -/
def Obligations.DecodeIsTheOpcodeMap : Prop :=
  ∀ w : Word,
    (decode w = .ok .accClr ↔ w = 0x01#32) ∧ (decode w = .ok .macW ↔ w = 0x02#32)
    ∧ (decode w = .ok .macD ↔ w = 0x03#32) ∧ (decode w = .ok .dmacW ↔ w = 0x04#32)
    ∧ (decode w = .ok .dmacD ↔ w = 0x05#32) ∧ (decode w = .ok .clip ↔ w = 0x06#32)
    ∧ (decode w = .ok .rdT ↔ w = 0x07#32) ∧ (decode w = .ok .rdS ↔ w = 0x08#32)
    ∧ (decode w = .ok .convF ↔ w = 0x10#32) ∧ (decode w = .ok .convP ↔ w = 0x11#32)
    ∧ (decode w = .ok .matmulF ↔ w = 0x12#32) ∧ (decode w = .ok .matmulC ↔ w = 0x13#32)
    ∧ ((∃ e, decode w = .error e) ↔
        w.extractLsb' 5 27 ≠ 0#27
          ∨ (w.extractLsb' 0 5).toNat ∉ [0x01, 0x02, 0x03, 0x04, 0x05, 0x06, 0x07, 0x08, 0x10, 0x11, 0x12, 0x13])

/-- 30_encoding section 3: the encoder's word of every command decodes to it, and decoding a word gives no other
command than the one whose word it is. -/
def Obligations.DecodeAndEncodeAgree : Prop :=
  ∀ (i : Instr) (w : Word), i.wf = true → (decode w = .ok i ↔ encode i = w)

/-! ### A step runs the decoded command -/

/-- 60_exceptions section 1, in a state that is not halted by its mark (log 5): on the turn of instance 0's engine a step
is `exec` of the decoded command on the state with the turn taken off, `settle`d; on the turn of a peer's engine the same with that peer in instance 0's place; and a placed
command word is run by the very next step (log 8). -/
def Obligations.StepRunsTheDecodedCommand : Prop :=
  (∀ (s : State) (w : Word) (i : Instr), haltedBy s.mark = none → nextTurn s = .engine 0 → s.core.phase = .busy w →
      decode w = .ok i → step s = settle (dropTurn s) (exec i (dropTurn s)))
  ∧ (∀ (s : State) (w : Word) (i : Instr) (j : Nat) (h : j < s.peers.length), haltedBy s.mark = none →
      nextTurn s = .engine (j + 1) → (s.peers[j]).phase = .busy w → decode w = .ok i →
      step s = mapNext (swapUnit j) (settle (swapUnit j (dropTurn s)) (exec i (swapUnit j (dropTurn s)))))
  ∧ (∀ (s : State) (nbits w : Nat) (i : Instr), haltedBy s.mark = none → decodeTableWord nbits w = some i →
      step (s.withFetchWord nbits w)
        = settle (startCommand (tableWord nbits w) s) (exec i (startCommand (tableWord nbits w) s)))

/-- 30_encoding R78: a BUSY engine with an illegal word finishes with ILLEGAL_CMD and changes nothing else: no data
register, no other STATUS bit, no byte of memory. -/
def Obligations.IllegalCommandChangesStatusOnly : Prop :=
  ∀ (s : State) (w : Word), s.core.phase = .busy w →
    (w.extractLsb' 5 27 ≠ 0#27
      ∨ (w.extractLsb' 0 5).toNat ∉ [0x01, 0x02, 0x03, 0x04, 0x05, 0x06, 0x07, 0x08, 0x10, 0x11, 0x12, 0x13]) →
    ∃ t, engineStep s = .next t ∧ EndedWith .illegalCmd s t

/-! ### The primitive commands: each completes from every state in which the registers it reads are written, with the
value its rule gives, and marks every other unmarked state with UNWRITTEN_REG (what it computes past that mark is
UnwrittenRegistersHoldValues below) -/

/-- 40_accumulator R102. -/
def Obligations.AccClrClearsTheAccumulator : Prop :=
  decode 0x00000001#32 = .ok .accClr ∧
  ∀ s : State, ∃ t, exec .accClr s = .next t ∧ CompletedPrimitive [.accLo, .accHi] s t
    ∧ regVal t .accLo = 0#32 ∧ regVal t .accHi = 0#32

/-- 40_accumulator R103: ACC_LO gains the product of the two lanes 0 modulo 2^32 and ACC_HI takes its sign. -/
def Obligations.MacWAddsTheLaneProduct : Prop :=
  decode 0x00000002#32 = .ok .macW ∧
  ∀ s : State,
    (unitWritten s.core [.opa, .opb, .accLo] = true → ∃ t, exec .macW s = .next t
      ∧ CompletedPrimitive [.accLo, .accHi] s t
      ∧ regVal t .accLo = regVal s .accLo + laneLo 32 (regVal s .opa) * laneLo 32 (regVal s .opb)
      ∧ regVal t .accHi = if (regVal t .accLo).msb then 0xFFFFFFFF#32 else 0#32)
    ∧ (unitWritten s.core [.opa, .opb, .accLo] = false → s.mark = none →
      exec .macW s = .next (withMark .unwrittenReg s))

/-- 40_accumulator R104: ACC gains the product of the two lanes 0 modulo 2^64. -/
def Obligations.MacDAddsTheLaneProduct : Prop :=
  decode 0x00000003#32 = .ok .macD ∧
  ∀ s : State,
    (unitWritten s.core [.opa, .opb, .accLo, .accHi] = true → ∃ t, exec .macD s = .next t
      ∧ CompletedPrimitive [.accLo, .accHi] s t
      ∧ accBits t = accBits s + laneLo 64 (regVal s .opa) * laneLo 64 (regVal s .opb))
    ∧ (unitWritten s.core [.opa, .opb, .accLo, .accHi] = false → s.mark = none →
      exec .macD s = .next (withMark .unwrittenReg s))

/-- 40_accumulator R105: ACC_LO gains both lane products modulo 2^32 and ACC_HI takes its sign. -/
def Obligations.DmacWAddsBothLaneProducts : Prop :=
  decode 0x00000004#32 = .ok .dmacW ∧
  ∀ s : State,
    (unitWritten s.core [.opa, .opb, .accLo] = true → ∃ t, exec .dmacW s = .next t
      ∧ CompletedPrimitive [.accLo, .accHi] s t
      ∧ regVal t .accLo = regVal s .accLo
          + (laneLo 32 (regVal s .opa) * laneLo 32 (regVal s .opb) + laneHi 32 (regVal s .opa) * laneHi 32 (regVal s .opb))
      ∧ regVal t .accHi = if (regVal t .accLo).msb then 0xFFFFFFFF#32 else 0#32)
    ∧ (unitWritten s.core [.opa, .opb, .accLo] = false → s.mark = none →
      exec .dmacW s = .next (withMark .unwrittenReg s))

/-- 40_accumulator R106: ACC gains both lane products modulo 2^64. -/
def Obligations.DmacDAddsBothLaneProducts : Prop :=
  decode 0x00000005#32 = .ok .dmacD ∧
  ∀ s : State,
    (unitWritten s.core [.opa, .opb, .accLo, .accHi] = true → ∃ t, exec .dmacD s = .next t
      ∧ CompletedPrimitive [.accLo, .accHi] s t
      ∧ accBits t = accBits s
          + (laneLo 64 (regVal s .opa) * laneLo 64 (regVal s .opb) + laneHi 64 (regVal s .opa) * laneHi 64 (regVal s .opb)))
    ∧ (unitWritten s.core [.opa, .opb, .accLo, .accHi] = false → s.mark = none →
      exec .dmacD s = .next (withMark .unwrittenReg s))

/-- 40_accumulator R107: RES is `min(max(v, lo), hi)` on the registers' signed values, `hi` when `lo > hi`. -/
def Obligations.ClipClampsIntoTheBounds : Prop :=
  decode 0x00000006#32 = .ok .clip ∧
  ∀ s : State,
    (unitWritten s.core [.opa, .low, .high] = true → ∃ t, exec .clip s = .next t ∧ CompletedPrimitive [.res] s t
      ∧ (regVal t .res).toInt = min (max (regVal s .opa).toInt (regVal s .low).toInt) (regVal s .high).toInt
      ∧ ((regVal s .high).toInt < (regVal s .low).toInt → regVal t .res = regVal s .high))
    ∧ (unitWritten s.core [.opa, .low, .high] = false → s.mark = none →
      exec .clip s = .next (withMark .unwrittenReg s))

/-- 40_accumulator R108: RES is bits 30 to 15 of ACC_LO, sign-extended; ACC is not changed. -/
def Obligations.RdTTruncatesTheAccumulator : Prop :=
  decode 0x00000007#32 = .ok .rdT ∧
  ∀ s : State,
    (unitWritten s.core [.accLo] = true → ∃ t, exec .rdT s = .next t ∧ CompletedPrimitive [.res] s t
      ∧ regVal t .res = ((regVal s .accLo).extractLsb' 15 16).signExtend 32)
    ∧ (unitWritten s.core [.accLo] = false → s.mark = none →
      exec .rdT s = .next (withMark .unwrittenReg s))

/-- 40_accumulator R109: RES is the 64-bit ACC shifted right by 15 with floor and saturated to -32768 .. 32767. -/
def Obligations.RdSSaturatesTheAccumulator : Prop :=
  decode 0x00000008#32 = .ok .rdS ∧
  ∀ s : State,
    (unitWritten s.core [.accLo, .accHi] = true → ∃ t, exec .rdS s = .next t ∧ CompletedPrimitive [.res] s t
      ∧ (regVal t .res).toInt = max (-32768) (min 32767 ((accBits s).sshiftRight 15).toInt))
    ∧ (unitWritten s.core [.accLo, .accHi] = false → s.mark = none →
      exec .rdS s = .next (withMark .unwrittenReg s))

/-! ### The arithmetic laws of 40_accumulator R110 -/

/-- R110(b): DMAC.W and DMAC.D leave the accumulator that two scalar commands leave, the first on the lane-0 operands,
the second on the lane-1 operands. -/
def Obligations.PairedMacIsTwoScalarMacs : Prop :=
  ∀ s : State, unitWritten s.core [.opa, .opb, .accLo, .accHi] = true →
    (∃ t u v, exec .dmacW s = .next t ∧ exec .macW s = .next u
      ∧ exec .macW (setReg .opb (BitVec.ofNat 32 ((regVal s .opb).toNat / 65536))
          (setReg .opa (BitVec.ofNat 32 ((regVal s .opa).toNat / 65536)) u)) = .next v
      ∧ accBits t = accBits v)
    ∧ (∃ t u v, exec .dmacD s = .next t ∧ exec .macD s = .next u
      ∧ exec .macD (setReg .opb (BitVec.ofNat 32 ((regVal s .opb).toNat / 65536))
          (setReg .opa (BitVec.ofNat 32 ((regVal s .opa).toNat / 65536)) u)) = .next v
      ∧ accBits t = accBits v)

/-- R110: (a) the order of the products does not matter, and the accumulator is the wrapped exact sum; (c) from 0, fewer
than 2^33 products never wrap the 64-bit accumulator; (d) the fast read-out is bits 30 to 15; (e) the narrowings agree
inside `-2^30 <= t < 2^30` and differ at `2^30`; (f) the precise narrowing is the clip primitive. -/
def Obligations.AccumulatorArithmeticLaws : Prop :=
  (∀ (l l' : List (Int × Int)) (acc : Int), l.Perm l' →
      l.foldl (fun x p => mac32 x p.1 p.2) (sN 32 acc) = l'.foldl (fun x p => mac32 x p.1 p.2) (sN 32 acc)
      ∧ l.foldl (fun x p => mac32 x p.1 p.2) (sN 32 acc) = sN 32 (acc + (l.map fun p => p.1 * p.2).sum)
      ∧ l.foldl (fun x p => mac64 x p.1 p.2) (sN 64 acc) = l'.foldl (fun x p => mac64 x p.1 p.2) (sN 64 acc)
      ∧ l.foldl (fun x p => mac64 x p.1 p.2) (sN 64 acc) = sN 64 (acc + (l.map fun p => p.1 * p.2).sum))
  ∧ (∀ l : List (Int × Int), l.length ≤ 2 ^ 33 - 1 →
      (∀ p ∈ l, -32768 ≤ p.1 ∧ p.1 ≤ 32767 ∧ -32768 ≤ p.2 ∧ p.2 ≤ 32767) →
      l.foldl (fun x p => mac64 x p.1 p.2) 0 = (l.map fun p => p.1 * p.2).sum)
  ∧ (∀ t : Int, narrowFast t = sN 16 (wrapN 32 t % 2 ^ 31 / 2 ^ 15))
  ∧ (∀ t : Int, -(2 ^ 30) ≤ t → t < 2 ^ 30 → narrowFast t = asr t 15 ∧ narrowPrecise t = asr t 15)
  ∧ (narrowFast (2 ^ 30) = -32768 ∧ narrowPrecise (2 ^ 30) = 32767)
  ∧ (∀ t : Int, -(2 ^ 63) ≤ t → t < 2 ^ 63 → narrowPrecise t = clip32 (asr t 15) (-32768) 32767)

/-! ### The convolution engine. `memWf` (the memory is in its canonical form) is part of the invariant below. The clause
`OutcomeByChecks` of the kernel commands, and the conditions of `Ready`, take the model's reading of the accessed elements
(log 12) and of the place of another instance's conflict (log 13) -/

/-- 41_convolution R132: CONV.F stores `narrow_fast(S(n))` in output `n` for every `n < N`, and nothing else; and where a
check of R174 fails or an access leaves MEM, it ends as R174 says (`OutcomeByChecks`; that another instance's conflict is
one of check 7 is the model's reading, log 13). -/
def Obligations.ConvFStoresTheTruncatedSums : Prop :=
  decode 0x00000010#32 = .ok .convF ∧
  ∀ s : State, OutcomeByChecks .convF s ∧ (memWf s.mem = true → Ready .convF s →
    ∃ t, exec .convF s = .next t ∧ CompletedKernel .convF s t
      ∧ ∀ n < convN (lenAOf s.core) (lenBOf s.core),
          q t.mem (unitAddr s.core .dst + 2 * n)
            = narrowFast (exactConv s.mem (unitAddr s.core .srcA) (unitAddr s.core .srcB) (lenAOf s.core) (lenBOf s.core) n))

/-- 41_convolution R133, R134: CONV.P leaves scratch buffer 1 holding the longer sequence (a tie selects `a`) between
`L - 1` zeros on each side, scratch buffer 2 holding the shorter one reversed, `sat16(asr(S(n), 15))` in output `n` for
every `n < N`, and changes nothing else; where a check of R174 fails or an access leaves MEM, it ends as R174 says (that
another instance's conflict is one of check 7 is the model's reading, log 13). -/
def Obligations.ConvPStoresTheSaturatedSums : Prop :=
  decode 0x00000011#32 = .ok .convP ∧
  ∀ s : State, OutcomeByChecks .convP s ∧ (memWf s.mem = true → Ready .convP s →
    ∃ t, exec .convP s = .next t ∧ CompletedKernel .convP s t
      ∧ (∀ n < convN (lenAOf s.core) (lenBOf s.core),
          q t.mem (unitAddr s.core .dst + 2 * n)
            = sat16 (exactConv s.mem (unitAddr s.core .srcA) (unitAddr s.core .srcB) (lenAOf s.core) (lenBOf s.core) n / 2 ^ 15))
      ∧ (∀ i < min (lenAOf s.core) (lenBOf s.core) - 1,
          q t.mem (unitAddr s.core .scr1 + 2 * i) = 0
          ∧ q t.mem (unitAddr s.core .scr1 + 2 * (min (lenAOf s.core) (lenBOf s.core) - 1
              + max (lenAOf s.core) (lenBOf s.core) + i)) = 0)
      ∧ (∀ j < max (lenAOf s.core) (lenBOf s.core),
          q t.mem (unitAddr s.core .scr1 + 2 * (min (lenAOf s.core) (lenBOf s.core) - 1 + j))
            = q s.mem ((if lenBOf s.core ≤ lenAOf s.core then unitAddr s.core .srcA else unitAddr s.core .srcB) + 2 * j))
      ∧ (∀ i < min (lenAOf s.core) (lenBOf s.core),
          q t.mem (unitAddr s.core .scr2 + 2 * i)
            = q s.mem ((if lenBOf s.core ≤ lenAOf s.core then unitAddr s.core .srcB else unitAddr s.core .srcA)
                + 2 * (min (lenAOf s.core) (lenBOf s.core) - 1 - i))))

/-- 41_convolution section 4 (length invariant and commutativity): exchanging the two sequences, their addresses and
lengths, gives the same outputs, for both commands. -/
def Obligations.ConvolutionCommutes : Prop :=
  ∀ (i : Instr) (s u : State), i = .convF ∨ i = .convP → memWf s.mem = true → Ready i s → Ready i u → u.mem = s.mem →
    regVal u .srcA = regVal s .srcB → regVal u .srcB = regVal s .srcA → regVal u .lenA = regVal s .lenB →
    regVal u .lenB = regVal s .lenA → regVal u .dst = regVal s .dst →
    ∃ t v, exec i s = .next t ∧ exec i u = .next v ∧ ∀ n < lenAOf s.core + lenBOf s.core - 1,
      q t.mem (unitAddr s.core .dst + 2 * n) = q v.mem (unitAddr s.core .dst + 2 * n)

/-- 41_convolution R138: on the same inputs CONV.F and CONV.P give the same outputs exactly when the two narrowings agree on
every sum; so they do whenever every sum lies in `-2^30 <= S(n) < 2^30`, and every sum does whenever
`L * max|a| * max|b| < 2^30`. -/
def Obligations.FastAndPreciseConvolutionAgree : Prop :=
  ∀ s : State, memWf s.mem = true → Ready .convF s → Ready .convP s →
    ∃ t v, exec .convF s = .next t ∧ exec .convP s = .next v ∧
      ∀ S : Nat → Int,
        (∀ n, S n = exactConv s.mem (unitAddr s.core .srcA) (unitAddr s.core .srcB) (lenAOf s.core) (lenBOf s.core) n) →
        ((∀ n < convN (lenAOf s.core) (lenBOf s.core),
            q t.mem (unitAddr s.core .dst + 2 * n) = q v.mem (unitAddr s.core .dst + 2 * n))
          ↔ ∀ n < convN (lenAOf s.core) (lenBOf s.core), narrowFast (sN 32 (S n)) = narrowPrecise (S n))
        ∧ ((∀ n < convN (lenAOf s.core) (lenBOf s.core), -(2 ^ 30) ≤ S n ∧ S n < 2 ^ 30) →
            ∀ n < convN (lenAOf s.core) (lenBOf s.core),
              q t.mem (unitAddr s.core .dst + 2 * n) = q v.mem (unitAddr s.core .dst + 2 * n))
        ∧ (∀ x y : Int,
            (∀ k < lenAOf s.core, |q s.mem (unitAddr s.core .srcA + 2 * k)| ≤ x) →
            (∀ k < lenBOf s.core, |q s.mem (unitAddr s.core .srcB + 2 * k)| ≤ y) →
            (min (lenAOf s.core) (lenBOf s.core) : Int) * x * y < 2 ^ 30 →
            ∀ n < convN (lenAOf s.core) (lenBOf s.core), -(2 ^ 30) < S n ∧ S n < 2 ^ 30)

/-- 41_convolution R139: convolving `a` with the one sample 32767 gives `asr(a[n] * 32767, 15)` in both commands: one less
than a positive `a[n]`, 0 for 0, `a[n]` for a negative one, -32767 for -32768. -/
def Obligations.IdentityKernelIsWithinOneLsb : Prop :=
  ∀ (i : Instr) (s : State), i = .convF ∨ i = .convP → memWf s.mem = true → Ready i s → lenBOf s.core = 1 →
    q s.mem (unitAddr s.core .srcB) = 32767 →
    ∃ t, exec i s = .next t ∧ ∀ n < lenAOf s.core, ∀ x y : Int,
      x = q s.mem (unitAddr s.core .srcA + 2 * n) → y = q t.mem (unitAddr s.core .dst + 2 * n) →
      y = asr (x * 32767) 15 ∧ (0 < x → y = x - 1) ∧ (x = 0 → y = 0) ∧ (-32767 ≤ x → x < 0 → y = x)
        ∧ (x = -32768 → y = -32767) ∧ |y - x| ≤ 1

/-- 41_convolution R140: an output of CONV.P whose sum is at least 2^30 is exactly 32767, one whose sum is below -2^30 exactly
-32768; CONV.F stores the wrapped value. -/
def Obligations.PreciseConvolutionNeverWraps : Prop :=
  (∀ s : State, memWf s.mem = true → Ready .convP s → ∃ t, exec .convP s = .next t ∧
    ∀ n < convN (lenAOf s.core) (lenBOf s.core), ∀ S : Int,
      S = exactConv s.mem (unitAddr s.core .srcA) (unitAddr s.core .srcB) (lenAOf s.core) (lenBOf s.core) n →
      (2 ^ 30 ≤ S → q t.mem (unitAddr s.core .dst + 2 * n) = 32767)
      ∧ (S < -(2 ^ 30) → q t.mem (unitAddr s.core .dst + 2 * n) = -32768))
  ∧ (∀ s : State, memWf s.mem = true → Ready .convF s → ∃ t, exec .convF s = .next t ∧
    ∀ n < convN (lenAOf s.core) (lenBOf s.core),
      q t.mem (unitAddr s.core .dst + 2 * n)
        = sN 16 (wrapN 32 (exactConv s.mem (unitAddr s.core .srcA) (unitAddr s.core .srcB) (lenAOf s.core) (lenBOf s.core) n)
            % 2 ^ 31 / 2 ^ 15))

/-- 41_convolution section 4: with at most 65535 window elements, CONV.P's 64-bit accumulator is the exact sum, below 2^47 in
magnitude, in every memory. -/
def Obligations.PreciseAccumulatorIsExact : Prop :=
  ∀ (m : Memory) (s1 s2 L n : Nat), L ≤ 65535 →
    convAcc64 m s1 s2 L n = ∑ i ∈ Finset.range L, q m (s2 + 2 * i) * q m (s1 + 2 * (n + i))
    ∧ |convAcc64 m s1 s2 L n| < 2 ^ 47

/-! ### The matrix-multiply engine -/

/-- 42_matmul R152, R153: MATMUL.F leaves the scratch holding `B` transposed, `narrow_fast(P(i, j))` in every output
element, and changes nothing else; where a check of R174 fails or an access leaves MEM, it ends as R174 says. Two clauses are
the model's reading: that `A` is not accessed when `B.cols = 0`, where R153 says stuck if a region leaves MEM (log 12), and
that another instance's conflict is one of check 7 (log 13). -/
def Obligations.MatmulFStoresTheTruncatedProduct : Prop :=
  decode 0x00000012#32 = .ok .matmulF ∧
  ∀ s : State, OutcomeByChecks .matmulF s ∧ (memWf s.mem = true → Ready .matmulF s →
    ∃ t, exec .matmulF s = .next t ∧ CompletedKernel .matmulF s t
      ∧ (∀ k < bRows s.core, ∀ j < bCols s.core,
          q t.mem (unitAddr s.core .scr1 + 2 * (j * bRows s.core + k))
            = q s.mem (unitAddr s.core .srcB + 2 * (k * bCols s.core + j)))
      ∧ (∀ i < dRows s.core, ∀ j < dCols s.core,
          q t.mem (unitAddr s.core .dst + 2 * (i * dCols s.core + j))
            = narrowFast (exactDot s.mem (unitAddr s.core .srcA) (unitAddr s.core .srcB) (aCols s.core) (bCols s.core) i j)))

/-- 42_matmul R154, R155: MATMUL.C leaves the scratch holding the complex `B` transposed, the saturated real and imaginary
sums in every output element, and changes nothing else; where a check of R174 fails or an access leaves MEM, it ends as R174
says. Two clauses are the model's reading: that `A` is not accessed when `B.cols = 0`, where R153 and R155 say stuck if a
region leaves MEM (log 12), and that another instance's conflict is one of check 7 (log 13). -/
def Obligations.MatmulCStoresTheSaturatedProduct : Prop :=
  decode 0x00000013#32 = .ok .matmulC ∧
  ∀ s : State, OutcomeByChecks .matmulC s ∧ (memWf s.mem = true → Ready .matmulC s →
    ∃ t, exec .matmulC s = .next t ∧ CompletedKernel .matmulC s t
      ∧ (∀ k < bRows s.core, ∀ j < bCols s.core,
          reAt t.mem (unitAddr s.core .scr1) (bRows s.core) j k = reAt s.mem (unitAddr s.core .srcB) (bCols s.core) k j
          ∧ imAt t.mem (unitAddr s.core .scr1) (bRows s.core) j k = imAt s.mem (unitAddr s.core .srcB) (bCols s.core) k j)
      ∧ (∀ i < dRows s.core, ∀ j < dCols s.core,
          reAt t.mem (unitAddr s.core .dst) (dCols s.core) i j
            = sat16 (exactRe s.mem (unitAddr s.core .srcA) (unitAddr s.core .srcB) (aCols s.core) (bCols s.core) i j / 2 ^ 15)
          ∧ imAt t.mem (unitAddr s.core .dst) (dCols s.core) i j
            = sat16 (exactIm s.mem (unitAddr s.core .srcA) (unitAddr s.core .srcB) (aCols s.core) (bCols s.core) i j / 2 ^ 15)))

/-- 42_matmul R159: with `A = 0.5 I` MATMUL.F halves `B`, rounding toward minus infinity. -/
def Obligations.HalfIdentityHalvesTheMatrix : Prop :=
  ∀ s : State, memWf s.mem = true → Ready .matmulF s → aRows s.core = aCols s.core →
    (∀ i < aRows s.core, ∀ k < aCols s.core,
      q s.mem (unitAddr s.core .srcA + 2 * (i * aCols s.core + k)) = if i = k then 16384 else 0) →
    ∃ t, exec .matmulF s = .next t ∧ ∀ i < dRows s.core, ∀ j < dCols s.core,
      q t.mem (unitAddr s.core .dst + 2 * (i * dCols s.core + j))
        = q s.mem (unitAddr s.core .srcB + 2 * (i * bCols s.core + j)) / 2

/-- 42_matmul R156: empty dimensions are legal. An empty output writes no `dst` byte while the scratch takes the
transposition; an empty inner dimension stores 0 in every element; both commands
(`h` halfwords an element) finish with OK. -/
def Obligations.EmptyDimensionsAreLegal : Prop :=
  ∀ (i : Instr) (s : State) (h : Nat), (i = .matmulF ∧ h = 1) ∨ (i = .matmulC ∧ h = 2) → memWf s.mem = true →
    Ready i s →
    ∃ t, exec i s = .next t ∧ Finished .ok s t
      ∧ ((aRows s.core = 0 ∨ bCols s.core = 0) →
          (∀ a, ¬ InRegion ⟨unitAddr s.core .scr1, 2 * h * (bRows s.core * bCols s.core), true⟩ a →
            readByte t.mem a = readByte s.mem a)
          ∧ ∀ k < bRows s.core, ∀ j < bCols s.core, ∀ c < h,
            q t.mem (unitAddr s.core .scr1 + 2 * h * (j * bRows s.core + k) + 2 * c)
              = q s.mem (unitAddr s.core .srcB + 2 * h * (k * bCols s.core + j) + 2 * c))
      ∧ (aCols s.core = 0 →
          (∀ j < h * (dRows s.core * dCols s.core), q t.mem (unitAddr s.core .dst + 2 * j) = 0)
          ∧ ∀ a, ¬ InRegion ⟨unitAddr s.core .dst, 2 * h * (dRows s.core * dCols s.core), true⟩ a →
            readByte t.mem a = readByte s.mem a)

/-- 42_matmul section 4: with at most 65535 inner elements, MATMUL.C's accumulators are the exact sums over the scratch, below
2^47 in magnitude, in every memory. -/
def Obligations.ComplexAccumulatorsAreExact : Prop :=
  ∀ (m : Memory) (a t ac br i j : Nat), ac ≤ 65535 →
    dotAccRe m a t ac br i j
      = ∑ k ∈ Finset.range ac, (reAt m a ac i k * reAt m t br j k - imAt m a ac i k * imAt m t br j k)
    ∧ dotAccIm m a t ac br i j
      = ∑ k ∈ Finset.range ac, (reAt m a ac i k * imAt m t br j k + imAt m a ac i k * reAt m t br j k)
    ∧ |dotAccRe m a t ac br i j| < 2 ^ 47 ∧ |dotAccIm m a t ac br i j| < 2 ^ 47

/-! ### Checks, outcomes and frames of every command -/

/-- 60_exceptions R174, checks 2 to 8, over the operand lists of R178 and the regions of R57: a command takes the first
outcome that applies, and no other. Two regions overlap when they share a byte. Check 7 also covers the regions of another instance's
running command (R185, the model's reading of its place in the order, log 13; which regions that has, logs 11 and 19); a model fault marks the state, unless it is marked already
(log 5); check 8 leaves out the matrix `A` of a
product with `B.cols = 0`, which is never accessed (log 12). -/
def Obligations.FirstCheckThatAppliesDecides : Prop :=
  ∀ (i : Instr) (s : State) (unwritten odd mismatch zero wrapped overlapping outside : Prop),
    (unwritten ↔ ∃ d ∈ readRegs i, (regGet s.core.regs d).written = false) →
    (odd ↔ ∃ d ∈ baseRegs i, unitAddr s.core d % 2 = 1) →
    (mismatch ↔ (i = .matmulF ∨ i = .matmulC)
      ∧ ¬ (aCols s.core = bRows s.core ∧ aRows s.core = dRows s.core ∧ bCols s.core = dCols s.core)) →
    (zero ↔ (i = .convF ∨ i = .convP) ∧ (lenAOf s.core = 0 ∨ lenBOf s.core = 0)) →
    (wrapped ↔ ∃ r ∈ regions i s.core, r.size ≠ 0 ∧ 2 ^ 32 < r.base + r.size) →
    (overlapping ↔
      (∃ (j k : Fin (regions i s.core).length), j ≠ k ∧ ((regions i s.core).get j).written = true
        ∧ ∃ a, InRegion ((regions i s.core).get j) a ∧ InRegion ((regions i s.core).get k) a)
      ∨ (∃ r ∈ regions i s.core, ∃ p ∈ s.peers, ∃ x ∈ runningRegions p, (r.written = true ∨ x.written = true)
          ∧ ∃ a, InRegion r a ∧ InRegion x a)) →
    (outside ↔ ∃ r ∈ accessed i s.core, ∃ a, InRegion r a ∧ inMem s.memMap a = false) →
    (unwritten → s.mark = none → exec i s = .next (withMark .unwrittenReg s))
    ∧ (¬ unwritten → odd → ∃ t, exec i s = .next t ∧ EndedWith .misaligned s t)
    ∧ (¬ unwritten → ¬ odd → mismatch → ∃ t, exec i s = .next t ∧ EndedWith .sizeMismatch s t)
    ∧ (¬ unwritten → ¬ odd → ¬ mismatch → zero → s.mark = none → exec i s = .next (withMark .zeroLength s))
    ∧ (¬ unwritten → ¬ odd → ¬ mismatch → ¬ zero → wrapped → s.mark = none →
        exec i s = .next (withMark .addrWrap s))
    ∧ (¬ unwritten → ¬ odd → ¬ mismatch → ¬ zero → ¬ wrapped → overlapping → s.mark = none →
        exec i s = .next (withMark .overlap s))
    ∧ (¬ unwritten → ¬ odd → ¬ mismatch → ¬ zero → ¬ wrapped → ¬ overlapping → outside → exec i s = .fault .stuck)
    ∧ (¬ unwritten → ¬ odd → ¬ mismatch → ¬ zero → ¬ wrapped → ¬ overlapping → ¬ outside →
        ∃ t, exec i s = .next t ∧ Finished .ok s t)

/-- 60_exceptions section 2 (R175): a command that finishes with a code other than OK has changed nothing but STATUS (CMD at
its start): no register, no accumulator, no byte of memory. That this holds in a marked state too, where a command that reads
an unwritten register goes on past the mark of check 2 and finishes with a code, is the model's choice (log 5). -/
def Obligations.FailedCommandChangesNothing : Prop :=
  ∀ (s t : State) (w : Word), s.core.phase = .busy w → engineStep s = .next t → t.core.phase = .idle →
    statusErr t.core.status ≠ 0 →
    ∃ code, code ≠ .ok ∧ EndedWith code s t

/-- 20_memory R59: every command leaves every byte outside its written regions as it was, those of its input regions
among them. -/
def Obligations.CommandsWriteOnlyTheirOutputs : Prop :=
  ∀ (i : Instr) (s t : State), exec i s = .next t →
    BytesSameOutside i s t
    ∧ ∀ r ∈ regions i s.core, r.written = false → ∀ a, InRegion r a → readByte t.mem a = readByte s.mem a

/-- 60_exceptions section 3 (the operand lists), 10_state section 4: a command changes no data register but those listed as
written for it, nothing but its own instance and the memory, and of its instance's other state only STATUS and the phase, or
else it sets a mark that was clear and changes nothing else; the kernel commands change no data register. -/
def Obligations.CommandsWriteOnlyTheirRegisters : Prop :=
  ∀ (i : Instr) (s t : State), exec i s = .next t →
    RegsSameBut (writtenRegs i) s t ∧ EnvironmentSameButMark s t ∧ (t.mark = s.mark ∨ (s.mark = none ∧ ∃ r, t = withMark r s))
      ∧ t.core.cmd = s.core.cmd ∧ t.core.base = s.core.base
      ∧ t.core.status &&& 0xFFFFFF0E#32 = s.core.status &&& 0xFFFFFF0E#32
      ∧ ((i = .convF ∨ i = .convP ∨ i = .matmulF ∨ i = .matmulC) → RegsSameBut [] s t)

/-! ### Starting a command and the register interface -/

/-- 60_exceptions R171: a write of `w` to CMD of an IDLE instance sets CMD, ERR, BUSY and the phase, and nothing else of it;
of a BUSY instance it raises BUSY_ACCESS. The clauses on the host's turn rest on the model's host and turns: the host's
store of a value at instance 0's BASE is that write, changing nothing else of the machine but the host's own position and
the turn (logs 7 and 8), and one that raises a model fault marks the state and changes nothing else but the turn (log 5). -/
def Obligations.CmdWriteStartsTheCommand : Prop :=
  (∀ (c : CoreUnit) (w : Word), c.base % 4 = 0 →
    (c.phase = .idle → ∃ d, unitWrite c c.base .word w = .ok d ∧ d.cmd = w ∧ statusErr d.status = 0
      ∧ statusBusy d.status = true ∧ d.phase = .busy w ∧ d.status &&& 0xFFFFFF0E#32 = c.status &&& 0xFFFFFF0E#32
      ∧ d.regs = c.regs ∧ d.base = c.base)
    ∧ (∀ v, c.phase = .busy v → unitWrite c c.base .word w = .error .busyAccess))
  ∧ (∀ (s : State) (v : HostTerm), haltedBy s.mark = none → nextTurn s = .host → s.core.base % 4 = 0 →
    s.prog[s.hpc]? = some (.store .word s.core.base v) →
    (∀ c, unitWrite s.core s.core.base .word (storeWord s v) = .ok c → ∃ t, step s = .next t ∧ t.core = c
      ∧ t.peers = s.peers ∧ t.mem = s.mem ∧ t.memMap = s.memMap ∧ t.mark = s.mark ∧ t.draws = s.draws
      ∧ t.prog = s.prog ∧ t.temps = s.temps ∧ t.hpc = s.hpc + 1 ∧ t.sched = s.sched.tail)
    ∧ (∀ r, unitWrite s.core s.core.base .word (storeWord s v) = .error r → s.mark = none → step s = .next (withMark r (dropTurn s))))

/-- 30_encoding section 2, 10_state R39: with the engine IDLE, a host write of a data register other than RES stores the
writable bits (all, but 15:0 only of LEN_A and LEN_B), sets its written-flag, changes no other register, and a host read
returns those bits; a write of STATUS or RES changes nothing; a read of any data register, RES included, answers the value it
holds, and is one that raises UNWRITTEN_REG exactly if the written-flag is clear (what an unwritten register holds is log 1);
STATUS and CMD read back what they hold. -/
def Obligations.RegisterWritesReadBack : Prop :=
  ∀ c : CoreUnit, c.phase = .idle → c.base % 4 = 0 →
    (∀ (d : DataReg) (v : Word), d ≠ .res → ∃ e, unitWrite c (c.base + regOffset (.data d)) .word v = .ok e
      ∧ unitRead e (c.base + regOffset (.data d)) .word
          = .ok (if d = .lenA ∨ d = .lenB then BitVec.ofNat 32 (v.toNat % 65536) else v)
      ∧ (regGet e.regs d).written = true ∧ (∀ d', d' ≠ d → regGet e.regs d' = regGet c.regs d')
      ∧ e.cmd = c.cmd ∧ e.status = c.status ∧ e.phase = c.phase ∧ e.base = c.base)
    ∧ (∀ v, unitWrite c (c.base + regOffset (.data .res)) .word v = .ok c)
    ∧ (∀ v, unitWrite c (c.base + regOffset .status) .word v = .ok c)
    ∧ (∀ d, unitRead c (c.base + regOffset (.data d)) .word = .ok (regGet c.regs d).value
        ∧ unitReadsUnwritten c (c.base + regOffset (.data d)) .word = !(regGet c.regs d).written)
    ∧ unitRead c (c.base + regOffset .cmd) .word = .ok c.cmd
    ∧ unitRead c (c.base + regOffset .status) .word = .ok c.status

/-- 70_reset_and_hazards R195: while BUSY a read of STATUS answers, and a read of any other register or a write of any
register raises BUSY_ACCESS, for the primitive commands too. -/
def Obligations.BusyRegisterAccessFaults : Prop :=
  ∀ (c : CoreUnit) (w : Word), c.phase = .busy w → c.base % 4 = 0 →
    unitRead c (c.base + regOffset .status) .word = .ok c.status
    ∧ (∀ r, r ≠ .status → unitRead c (c.base + regOffset r) .word = .error .busyAccess)
    ∧ (∀ r v, unitWrite c (c.base + regOffset r) .word v = .error .busyAccess)

/-- 20_memory section 2, 30_encoding section 2: with the engine IDLE, a register access that is not 32 bits wide, is not at a
multiple of 4, or is to an offset from 0x4C on, raises BAD_REG_ACCESS. -/
def Obligations.MalformedRegisterAccessFaults : Prop :=
  ∀ (c : CoreUnit) (addr : Nat) (size : AccessSize), c.phase = .idle →
    (size ≠ .word ∨ addr % 4 ≠ 0 ∨ c.base + 0x4C ≤ addr) →
    unitRead c addr size = .error .badRegAccess ∧ ∀ v, unitWrite c addr size v = .error .badRegAccess

/-- 70_reset_and_hazards R196: a host access to a byte of a region of a running command raises HOST_BUFFER_ACCESS, reads
and writes alike; an access to other backed data memory is performed, while BUSY too (the regions of a command with
unwritten or misaligned descriptors are log 11, a size whose formula is negative log 19). -/
def Obligations.HostBufferAccessFaults : Prop :=
  ∀ (s : State) (addr : Nat) (size : AccessSize), unitFor s addr (sizeBytes size) = none →
    ((∃ c ∈ units s, ∃ r ∈ runningRegions c, ∃ a, addr ≤ a ∧ a < addr + sizeBytes size ∧ InRegion r a) →
      busLoad s addr size = .error (.raises .hostBufferAccess)
      ∧ ∀ v, busStore s addr size v = .error (.raises .hostBufferAccess))
    ∧ ((∀ c ∈ units s, ∀ r ∈ runningRegions c, ∀ a, addr ≤ a → a < addr + sizeBytes size → ¬ InRegion r a) →
      (∀ a, addr ≤ a → a < addr + sizeBytes size → inMem s.memMap a = true) →
      busLoad s addr size = .ok (loadedValue size (memRead s.mem addr (sizeBytes size)))
      ∧ ∀ v, ∃ t, busStore s addr size v = .ok t ∧ t.core = s.core ∧ EnvironmentSame s t
        ∧ (memWf s.mem = true → memRead t.mem addr (sizeBytes size) = v.toNat % 256 ^ sizeBytes size)
        ∧ ∀ a, a < addr ∨ addr + sizeBytes size ≤ a → readByte t.mem a = readByte s.mem a)

/-- 20_memory section 2: an element is little-endian, its least significant byte at the lower address, on a read and on a
write, and a write touches no other byte. -/
def Obligations.ElementsAreLittleEndian : Prop :=
  ∀ (m : Memory) (a v : Nat), memWf m = true →
    memRead m a 2 = (readByte m a).toNat + 256 * (readByte m (a + 1)).toNat
    ∧ readByte (memWrite m a 2 v) a = BitVec.ofNat 8 (v % 256)
    ∧ readByte (memWrite m a 2 v) (a + 1) = BitVec.ofNat 8 (v / 256 % 256)
    ∧ (∀ c, c ≠ a → c ≠ a + 1 → readByte (memWrite m a 2 v) c = readByte m c)
    ∧ memWf (memWrite m a 2 v) = true

/-! ### The machine -/

/-- 10_state section 4 (the table of reset values): CMD and STATUS 0, every data register unwritten, IDLE, the mark clear. -/
def Obligations.PowerOnStateIsTheResetState : Prop :=
  State.reset.core.cmd = 0#32 ∧ State.reset.core.status = 0#32 ∧ State.reset.core.phase = .idle
    ∧ (∀ d, (regGet State.reset.core.regs d).written = false) ∧ State.reset.mark = none

/-- 70_reset_and_hazards R190: the reset of an instance, instance `k` of the machine, in a marked state too, puts its
registers as 10_state R44 says, and changes neither a mark that is set nor another instance, nor, with the engine IDLE, the
mark or any byte of the data memory; and no register write clears a written-flag. That reset is per instance is the model's
reading (log 15), and so is that the reset of a command in conflict with another instance's raises OVERLAP (log 13). -/
def Obligations.ResetInitialisesTheInstance : Prop :=
  (∀ (s : State) (k : Nat) (c : CoreUnit), (units s)[k]? = some c → nextTurn s = .reset k →
    ∃ t d, step s = .next t ∧ (units t)[k]? = some d ∧ d.cmd = 0#32 ∧ d.status = 0#32 ∧ d.phase = .idle
      ∧ (∀ r, (regGet d.regs r).written = false) ∧ d.base = c.base
      ∧ t.mark = (if runningConflict (asCore k s) then some (s.mark.getD .overlap) else s.mark)
      ∧ (∀ m, m ≠ k → (units t)[m]? = (units s)[m]?) ∧ t.memMap = s.memMap
      ∧ (c.phase = .idle → t.mark = s.mark ∧ BytesSame s t))
  ∧ (∀ (c e : CoreUnit) (addr : Nat) (size : AccessSize) (v : Word), unitWrite c addr size v = .ok e →
    ∀ d, (regGet c.regs d).written = true → (regGet e.regs d).written = true)

/-- 70_reset_and_hazards R191: the reset of a BUSY instance, instance `k` of the machine, abandons the command: the instance
is IDLE and reset, every byte outside the command's written regions is unchanged, and every backed byte of them holds a free
draw of its own: distinct bytes hold draws of distinct numbers, all of this reset. The model's choices in it: that the reset
changes no other instance (log 15), the 0 an unwritten register holds, which `CoreUnit.reset` fixes (log 1), which regions a
running command has (logs 11 and 19), and the draws (log 4). -/
def Obligations.ResetWhileBusyFreesTheOutputs : Prop :=
  ∀ (s : State) (k : Nat) (c : CoreUnit) (w : Word), (units s)[k]? = some c → nextTurn s = .reset k → c.phase = .busy w →
    ∃ t, step s = .next t ∧ (units t)[k]? = some (CoreUnit.reset c.base) ∧ (∀ m, m ≠ k → (units t)[m]? = (units s)[m]?)
      ∧ (∀ a, OutsideWritten (runningRegions c) a → readByte t.mem a = readByte s.mem a)
      ∧ (memWf s.mem = true → ∃ n : Nat → Nat,
          (∀ a, (∃ r ∈ runningRegions c, r.written = true ∧ InRegion r a) → inMem s.memMap a = true →
            s.draws ≤ n a ∧ n a < t.draws ∧ readByte t.mem a = Config.freeByte (n a))
          ∧ ∀ a b, (∃ r ∈ runningRegions c, r.written = true ∧ InRegion r a) → inMem s.memMap a = true →
            (∃ r ∈ runningRegions c, r.written = true ∧ InRegion r b) → inMem s.memMap b = true → n a = n b → a = b)

/-- 60_exceptions section 3: a model fault marks an unmarked state with its reason and changes nothing else but the turn, on
any engine's turn and in every host operation: a command that a check makes raise it, one that reads an unwritten register
among them, a host store and a host load. A mark outlasts every step with its reason. The rest is the model's reading (log 5):
a load that reads an unwritten register is performed as well as marking the state; past any reason but UNWRITTEN_REG no agent
takes a step but a reset, and a host operation that raises a model fault in a marked state stops. -/
def Obligations.ModelFaultMarksForGood : Prop :=
  (∀ (s : State) (k : Nat) (c : CoreUnit) (w : Word) (i : Instr), s.mark = none → nextTurn s = .engine k →
      (units s)[k]? = some c → c.phase = .busy w → decode w = .ok i →
      (∀ r, checks i (asCore k s) = .raise r → step s = .next (withMark r (dropTurn s)))
      ∧ (unitWritten c (readRegs i) = false → step s = .next (withMark .unwrittenReg (dropTurn s))))
  ∧ (∀ (s : State) (size : AccessSize) (addr : Nat) (v : HostTerm) (r : ModelFault), haltedBy s.mark = none →
      nextTurn s = .host → s.prog[s.hpc]? = some (.store size addr v) →
      busStore (dropTurn s) addr size (storeWord s v) = .error (.raises r) →
      step s = raiseFault r (dropTurn s))
  ∧ (∀ (s : State) (size : AccessSize) (addr x : Nat) (append : Bool), haltedBy s.mark = none →
      nextTurn s = .host → s.prog[s.hpc]? = some (.load size addr x append) →
      (∀ r, busLoad (dropTurn s) addr size = .error (.raises r) → step s = raiseFault r (dropTurn s))
      ∧ (∀ v, busLoad (dropTurn s) addr size = .ok v → ∃ t, step s = .next t ∧ t.core = s.core ∧ t.peers = s.peers
          ∧ t.mem = s.mem ∧ tempOf t x = (if append then tempOf s x ++ [v] else [v]) ∧ t.hpc = s.hpc + 1
          ∧ (∀ (k : Nat) (c : CoreUnit) (d : DataReg), unitFor s addr (sizeBytes size) = some k → (units s)[k]? = some c →
              c.phase = .idle → size = .word → c.base % 4 = 0 → addr = c.base + regOffset (.data d) →
              t.mark = if (regGet c.regs d).written then s.mark else some (s.mark.getD .unwrittenReg))
          ∧ (unitFor s addr (sizeBytes size) = none → t.mark = s.mark)))
  ∧ (∀ (s : State) (r : ModelFault), (s.mark = none → raiseFault r s = .next (withMark r s))
      ∧ (∀ m, s.mark = some m → raiseFault r s = .fault (.marked m)))
  ∧ (∀ (s t : State) (m : ModelFault), s.mark = some m → step s = .next t → t.mark = some m)
  ∧ (∀ (s : State) (m : ModelFault), s.mark = some m → m ≠ .unwrittenReg → (∀ k, nextTurn s ≠ .reset k) →
      step s = .fault (.marked m))

/-- The model's own reading of what follows UNWRITTEN_REG (logs 1 and 5; R39 gives an unwritten register no value): the
command that raised it is still BUSY, every register holds a value, and if checks 3 to 8 pass the command completes at its
next transition on the values its registers hold. It stores, writes and reports what it would with every register written,
sets the written-flags of the registers it writes and no other, and leaves the mark. -/
def Obligations.UnwrittenRegistersHoldValues : Prop :=
  ∀ (i : Instr) (s u : State), checks i (withMark .unwrittenReg s) = .pass → accessible i s = true →
    (∀ d, regVal u d = regVal s d) → (∀ d, (regGet u.core.regs d).written = true) → u.core.status = s.core.status →
    u.peers = s.peers → u.mem = s.mem → u.memMap = s.memMap →
    (unitWritten s.core (readRegs i) = false → s.mark = none → exec i s = .next (withMark .unwrittenReg s))
    ∧ ∃ t v, exec i (withMark .unwrittenReg s) = .next t ∧ exec i u = .next v ∧ Finished .ok s t ∧ EnvironmentSameButMark s t
      ∧ t.mem = v.mem ∧ (∀ d, regVal t d = regVal v d) ∧ t.core.status = v.core.status
      ∧ (∀ d, (regGet t.core.regs d).written = ((regGet s.core.regs d).written || decide (d ∈ writtenRegs i)))
      ∧ t.mark = some (s.mark.getD .unwrittenReg)

/-- 60_exceptions R177: the engine of an instance whose command would access a byte outside MEM has no step: on its turn
nothing changes but the turn, it stays BUSY, and so does STATUS.BUSY; while it is stuck a host that polls STATUS reads
BUSY = 1 (which elements are accessed is log 12, the turn that changes nothing log 6; with a register it reads unwritten it is
stuck once that has marked the state, log 5). -/
def Obligations.StuckEngineStaysBusy : Prop :=
  ∀ (s : State) (k : Nat) (c : CoreUnit) (w : Word) (i : Instr), haltedBy s.mark = none → (units s)[k]? = some c →
    c.phase = .busy w → decode w = .ok i →
    checks i (asCore k s) = .pass → (∃ r ∈ accessed i c, ∃ a, InRegion r a ∧ inMem s.memMap a = false) →
    (nextTurn s = .engine k → step s = .next (dropTurn s) ∧ (units (dropTurn s))[k]? = some c)
    ∧ (c.base % 4 = 0 → statusBusy c.status = true → unitFor s (c.base + regOffset .status) (sizeBytes .word) = some k →
        ∃ v, busLoad s (c.base + regOffset .status) .word = .ok v ∧ v % 2 = 1)

/-- 60_exceptions R172, 70_reset_and_hazards R200 (weak fairness; the order when no turn is scheduled is the model's, log 7):
with no turn scheduled and an instance `k` BUSY with a command that is not stuck, the step marks a model fault or finishes the
command of a BUSY instance, `k` or one before it, and changes no other instance. -/
def Obligations.UnscheduledEngineFinishes : Prop :=
  ∀ (s : State) (k : Nat) (c : CoreUnit) (w : Word), s.mark = none → s.sched = [] → (units s)[k]? = some c →
    c.phase = .busy w →
    (∀ i, decode w = .ok i → checks i (asCore k s) = .pass → accessible i (asCore k s) = true) →
    ∃ t, step s = .next t
      ∧ (t.mark ≠ none
        ∨ (t.mark = none ∧ ∃ (j : Nat) (b d : CoreUnit) (x : Word), j ≤ k ∧ (units s)[j]? = some b ∧ b.phase = .busy x
            ∧ (units t)[j]? = some d ∧ d.phase = .idle ∧ ∀ m, m ≠ j → (units t)[m]? = (units s)[m]?))

/-- 10_state R42: the operand registers cannot change while BUSY, so that a command reads at its finish what was there at
its start: no turn but the engine's own or its reset changes a BUSY instance, instance `k` of the machine. -/
def Obligations.BusyInstanceIsFrozen : Prop :=
  ∀ (s t : State) (k : Nat) (c : CoreUnit) (w : Word), (units s)[k]? = some c → c.phase = .busy w →
    nextTurn s ≠ .engine k → nextTurn s ≠ .reset k → step s = .next t → (units t)[k]? = some c

/-- 60_exceptions section 4 (multiprocessing): instances share only the data memory: an engine turn or a reset of one
changes no other (that a reset acts on one instance is the model's choice, log 15). -/
def Obligations.InstancesShareOnlyMemory : Prop :=
  (∀ s t : State, (nextTurn s = .engine 0 ∨ nextTurn s = .reset 0) → step s = .next t → t.peers = s.peers)
  ∧ (∀ (s t : State) (j : Nat), (nextTurn s = .engine (j + 1) ∨ nextTurn s = .reset (j + 1)) → step s = .next t →
      t.core = s.core ∧ t.peers.length = s.peers.length ∧ ∀ k, k ≠ j → t.peers[k]? = s.peers[k]?)

/-- 10_state R45: BASE and MEM are parameters of the step, not state: no step changes them, nor the number of instances. -/
def Obligations.ParametersNeverChange : Prop :=
  ∀ s t : State, step s = .next t → t.memMap = s.memMap ∧ (units t).map (·.base) = (units s).map (·.base)

/-- The invariant of 10_state R22, R34, R35, R42 and 20_memory R51 holds at reset. -/
def Obligations.InvariantHoldsAtReset : Prop := stateInv State.reset = true

/-- Every step keeps it: the memory stays in canonical form and inside MEM; in every instance STATUS.BUSY says the phase, the
phase carries CMD, the reserved STATUS bits stay 0, ERR stays at most 3 and is 0 while BUSY, and bits 31:16 of LEN_A and
LEN_B stay 0. -/
def Obligations.StepKeepsTheInvariant : Prop :=
  ∀ s t : State, stateInv s = true → step s = .next t → stateInv t = true
end

