-- ==== Sys2Proof/Laws/Arith.lean ====
section
/-! SUPPORT. The width operators (00_scope R10): range, congruence, and sums that wrap at every step. -/

namespace Sys2Proof.Machine

/-- `s_N` changes a number by a multiple of 2^N only. -/
theorem sN_emod {n : Nat} (v : Int) : sN n v % 2 ^ n = v % 2 ^ n := by
  unfold sN wrapN
  split <;> simp

/-- `s_N(v)` lies in the signed N-bit range. -/
theorem sN_range {n : Nat} (hn : 0 < n) (v : Int) : -(2 ^ (n - 1) : Int) ≤ sN n v ∧ sN n v < 2 ^ (n - 1) := by
  obtain ⟨k, rfl⟩ : ∃ k, n = k + 1 := ⟨n - 1, by omega⟩
  have hp : (0 : Int) < 2 ^ k := by positivity
  have h2 : (2 : Int) ^ (k + 1) = 2 * 2 ^ k := by ring
  have h0 := Int.emod_nonneg v (show (2 : Int) ^ (k + 1) ≠ 0 by positivity)
  have h1 := Int.emod_lt_of_pos v (show (0 : Int) < 2 ^ (k + 1) by positivity)
  unfold sN wrapN
  simp only [Nat.add_sub_cancel]
  split <;> constructor <;> omega

/-- Two signed N-bit values congruent mod 2^N are equal. -/
theorem eq_of_emod_eq {n : Nat} (hn : 0 < n) {x y : Int} (hx : -(2 ^ (n - 1) : Int) ≤ x ∧ x < 2 ^ (n - 1))
    (hy : -(2 ^ (n - 1) : Int) ≤ y ∧ y < 2 ^ (n - 1)) (h : x % 2 ^ n = y % 2 ^ n) : x = y := by
  obtain ⟨k, rfl⟩ : ∃ k, n = k + 1 := ⟨n - 1, by omega⟩
  simp only [Nat.add_sub_cancel] at hx hy
  have h2 : (2 : Int) ^ (k + 1) = 2 * 2 ^ k := by ring
  obtain ⟨c, hc⟩ := Int.dvd_of_emod_eq_zero (Int.emod_eq_emod_iff_emod_sub_eq_zero.mp h)
  rw [h2] at hc
  have hp : (0 : Int) < 2 ^ k := by positivity
  have : c = 0 := by
    by_contra hne
    rcases lt_or_gt_of_ne hne with hlt | hgt
    · have : 2 * 2 ^ k * c ≤ 2 * 2 ^ k * (-1) := by
        apply mul_le_mul_of_nonneg_left <;> omega
      omega
    · have : 2 * 2 ^ k * 1 ≤ 2 * 2 ^ k * c := by
        apply mul_le_mul_of_nonneg_left <;> omega
      omega
  subst this
  omega

/-- `s_N` depends on its argument mod 2^N only. -/
theorem sN_congr {n : Nat} (hn : 0 < n) {x y : Int} (h : x % 2 ^ n = y % 2 ^ n) : sN n x = sN n y :=
  eq_of_emod_eq hn (sN_range hn x) (sN_range hn y) (by rw [sN_emod, sN_emod, h])

/-- `s_N` is the identity on the signed N-bit range. -/
theorem sN_of_range {n : Nat} (hn : 0 < n) {x : Int} (hx : -(2 ^ (n - 1) : Int) ≤ x ∧ x < 2 ^ (n - 1)) : sN n x = x :=
  eq_of_emod_eq hn (sN_range hn x) hx (sN_emod x)

/-- Wrapping before an addition changes nothing that the wrap after it would not. -/
theorem sN_add_sN {n : Nat} (hn : 0 < n) (x y : Int) : sN n (sN n x + y) = sN n (x + y) :=
  sN_congr hn (by rw [Int.add_emod, sN_emod, ← Int.add_emod])

/-- A sum that wraps at every step is the wrapped exact sum (40_accumulator R110(a)). -/
theorem foldl_sN {α : Type} {n : Nat} (hn : 0 < n) (f : α → Int) (l : List α) (x : Int) :
    l.foldl (fun acc k => sN n (acc + f k)) (sN n x) = sN n (x + (l.map f).sum) := by
  induction l generalizing x with
  | nil => simp
  | cons a l ih =>
    simp only [List.foldl_cons, List.map_cons, List.sum_cons]
    rw [sN_add_sN hn, ih (x + f a), add_assoc]

theorem sN_zero {n : Nat} (hn : 0 < n) : sN n 0 = 0 :=
  sN_of_range hn (by constructor <;> simp)

/-- The truncating narrowing gives a Q15 value. -/
theorem narrowFast_range (t : Int) : -32768 ≤ narrowFast t ∧ narrowFast t < 32768 := by
  simpa [narrowFast] using sN_range (n := 16) (by omega) (asr (sN 32 t) Config.shift)

/-- The saturating narrowing gives a Q15 value. -/
theorem narrowPrecise_range (t : Int) : -32768 ≤ narrowPrecise t ∧ narrowPrecise t < 32768 := by
  unfold narrowPrecise sat16 clip
  omega

@[simp] theorem sN_narrowFast (t : Int) : sN 16 (narrowFast t) = narrowFast t :=
  sN_of_range (by omega) (by simpa using narrowFast_range t)

@[simp] theorem sN_narrowPrecise (t : Int) : sN 16 (narrowPrecise t) = narrowPrecise t :=
  sN_of_range (by omega) (by simpa using narrowPrecise_range t)

/-- An element read is a Q15 value (00_scope R14). -/
theorem q_range (m : Memory) (a : Nat) : -32768 ≤ q m a ∧ q m a < 32768 := by
  simpa [q] using sN_range (n := 16) (by omega) (memRead m a 2)

@[simp] theorem sN_q (m : Memory) (a : Nat) : sN 16 (q m a) = q m a :=
  sN_of_range (by omega) (by simpa using q_range m a)

end Sys2Proof.Machine
end

