-- ==== Sys2Proof/Laws/Memory.lean ====
section
/-! SUPPORT. The data memory: reading after writing, and that every memory operation keeps the canonical form and stays
inside the addresses it writes. -/

namespace Sys2Proof.Machine

/-! ### One byte -/

/-- A byte below every listed address is unlisted. -/
theorem readByte_of_lt {m : Memory} {a : Nat} (h : m.all (fun c => decide (a < c.1)) = true) :
    readByte m a = unlistedByte := by
  induction m with
  | nil => rfl
  | cons c m ih =>
    obtain ⟨k, v⟩ := c
    simp only [List.all_cons, Bool.and_eq_true, decide_eq_true_eq] at h
    rw [readByte, if_neg (by omega)]
    exact ih h.2

/-- A property of addresses that holds of every listed one and of the written one holds of every listed one after. -/
theorem all_writeByte (p : Nat → Bool) {m : Memory} {a : Nat} {b : Byte} (h : m.all (fun c => p c.1) = true)
    (ha : p a = true) : (writeByte m a b).all (fun c => p c.1) = true := by
  induction m with
  | nil => unfold writeByte; split <;> simp [ha]
  | cons c m ih =>
    obtain ⟨k, v⟩ := c
    simp only [List.all_cons, Bool.and_eq_true] at h
    unfold writeByte
    split
    · split <;> simp [ha, h.1] <;> simpa using h.2
    · split
      · split <;> simp [ha] <;> simpa using h.2
      · simp only [List.all_cons, Bool.and_eq_true]
        exact ⟨h.1, ih h.2⟩

/-- Writing a byte keeps the canonical form. -/
theorem memWf_writeByte {m : Memory} (a : Nat) (b : Byte) (h : memWf m = true) : memWf (writeByte m a b) = true := by
  induction m with
  | nil => unfold writeByte; split <;> simp [memWf, *]
  | cons c m ih =>
    obtain ⟨k, v⟩ := c
    have h' := h
    simp only [memWf, Bool.and_eq_true, decide_eq_true_eq] at h
    obtain ⟨⟨hv, hk⟩, hm⟩ := h
    unfold writeByte
    split
    · rename_i hak
      split
      · exact h'
      · rename_i hb
        simp only [memWf, Bool.and_eq_true, decide_eq_true_eq, List.all_cons, ne_eq, hb, not_false_eq_true, true_and]
        refine ⟨⟨hak, ?_⟩, ⟨hv, hk⟩, hm⟩
        rw [List.all_eq_true] at hk ⊢
        intro c hc
        have := hk c hc
        simp only [decide_eq_true_eq] at this ⊢
        omega
    · split
      · rename_i hak
        subst hak
        split
        · exact hm
        · rename_i hb
          simp only [memWf, Bool.and_eq_true, decide_eq_true_eq]
          exact ⟨⟨hb, hk⟩, hm⟩
      · simp only [memWf, Bool.and_eq_true, decide_eq_true_eq]
        refine ⟨⟨hv, ?_⟩, ih hm⟩
        exact all_writeByte (fun x => decide (k < x)) hk (by simp; omega)

/-- Reading the byte just written, in a memory in canonical form. -/
theorem readByte_writeByte_same {m : Memory} (a : Nat) (b : Byte) (h : memWf m = true) :
    readByte (writeByte m a b) a = b := by
  induction m with
  | nil => unfold writeByte; split <;> simp [readByte, *]
  | cons c m ih =>
    obtain ⟨k, v⟩ := c
    simp only [memWf, Bool.and_eq_true, decide_eq_true_eq] at h
    obtain ⟨⟨hv, hk⟩, hm⟩ := h
    unfold writeByte
    split
    · rename_i hak
      split
      · rename_i hb
        rw [hb, readByte, if_neg (by omega)]
        apply readByte_of_lt
        rw [List.all_eq_true] at hk ⊢
        intro c hc
        have := hk c hc
        simp only [decide_eq_true_eq] at this ⊢
        omega
      · simp [readByte]
    · split
      · rename_i hak
        subst hak
        split
        · rename_i hb
          rw [hb]
          exact readByte_of_lt hk
        · simp [readByte]
      · rename_i h1 h2
        rw [readByte, if_neg (by omega)]
        exact ih hm

/-- Writing a byte leaves every other one alone. -/
theorem readByte_writeByte_other {m : Memory} {a c : Nat} (b : Byte) (h : c ≠ a) :
    readByte (writeByte m a b) c = readByte m c := by
  induction m with
  | nil => unfold writeByte; split <;> simp [readByte, Ne.symm h]
  | cons e m ih =>
    obtain ⟨k, v⟩ := e
    unfold writeByte
    split
    · split
      · rfl
      · simp [readByte, Ne.symm h]
    · split
      · rename_i hak
        subst hak
        split <;> simp [readByte, Ne.symm h]
      · simp only [readByte]
        split
        · rfl
        · exact ih

/-! ### Several bytes -/

theorem memWf_memWrite {m : Memory} (a n v : Nat) (h : memWf m = true) : memWf (memWrite m a n v) = true := by
  induction n generalizing m a v with
  | zero => exact h
  | succ n ih => exact ih _ _ (memWf_writeByte a _ h)

theorem all_memWrite (p : Nat → Bool) {m : Memory} {a n v : Nat} (h : m.all (fun c => p c.1) = true)
    (ha : ∀ k < n, p (a + k) = true) : (memWrite m a n v).all (fun c => p c.1) = true := by
  induction n generalizing m a v with
  | zero => exact h
  | succ n ih =>
    refine ih (all_writeByte p h (by simpa using ha 0 (by omega))) fun k hk => ?_
    have := ha (k + 1) (by omega)
    rwa [show a + (k + 1) = a + 1 + k by omega] at this

theorem readByte_memWrite_outside {m : Memory} {a n v c : Nat} (h : c < a ∨ a + n ≤ c) :
    readByte (memWrite m a n v) c = readByte m c := by
  induction n generalizing m a v with
  | zero => rfl
  | succ n ih =>
    rw [memWrite, ih (by omega), readByte_writeByte_other _ (by omega)]

/-- Reading back what was written. -/
theorem memRead_memWrite_same {m : Memory} (a n v : Nat) (h : memWf m = true) :
    memRead (memWrite m a n v) a n = v % 256 ^ n := by
  induction n generalizing m a v with
  | zero => simp [memRead, Nat.mod_one]
  | succ n ih =>
    rw [memWrite, memRead, ih _ _ (memWf_writeByte a _ h), readByte_memWrite_outside (by omega),
      readByte_writeByte_same _ _ h, BitVec.toNat_ofNat, pow_succ' 256 n, Nat.mod_mul]

/-- A read depends on the bytes it reads only. -/
theorem memRead_congr {m m' : Memory} {a n : Nat} (h : ∀ c, a ≤ c → c < a + n → readByte m c = readByte m' c) :
    memRead m a n = memRead m' a n := by
  induction n generalizing a with
  | zero => rfl
  | succ n ih =>
    rw [memRead, memRead, h a (by omega) (by omega), ih fun c h1 h2 => h c (by omega) (by omega)]

/-! ### Elements -/

/-- An element read depends on its two bytes only. -/
theorem q_congr {m m' : Memory} {a : Nat} (h : ∀ c, a ≤ c → c < a + 2 → readByte m c = readByte m' c) :
    q m a = q m' a := by
  rw [q, q, memRead_congr h]

theorem memWf_putQ {m : Memory} (a : Nat) (v : Int) (h : memWf m = true) : memWf (putQ m a v) = true :=
  memWf_memWrite _ _ _ h

theorem readByte_putQ_outside {m : Memory} {a c : Nat} (v : Int) (h : c < a ∨ a + 2 ≤ c) :
    readByte (putQ m a v) c = readByte m c :=
  readByte_memWrite_outside h

/-- Reading back an element just written (the value reduced to 16 bits). -/
theorem q_putQ_same {m : Memory} (a : Nat) (v : Int) (h : memWf m = true) : q (putQ m a v) a = sN 16 v := by
  rw [q, putQ, memRead_memWrite_same _ _ _ h]
  apply sN_congr (by omega)
  have h0 : 0 ≤ wrapN 16 v := Int.emod_nonneg _ (by norm_num)
  have h1 : wrapN 16 v < 2 ^ 16 := Int.emod_lt_of_pos _ (by norm_num)
  have h2 : ((wrapN 16 v).toNat : Int) = wrapN 16 v := Int.toNat_of_nonneg h0
  push_cast
  rw [h2]
  simp [wrapN]

theorem q_putQ_other {m : Memory} {a b : Nat} (v : Int) (h : b + 2 ≤ a ∨ a + 2 ≤ b) : q (putQ m a v) b = q m b :=
  q_congr fun c h1 h2 => readByte_putQ_outside v (by omega)

/-! ### A phase of element writes -/

@[simp] theorem putAll_nil (m : Memory) : putAll m [] = m := rfl

@[simp] theorem putAll_cons (m : Memory) (e : Nat × Int) (es : List (Nat × Int)) :
    putAll m (e :: es) = putAll (putQ m e.1 e.2) es := rfl

theorem putAll_append (m : Memory) (es fs : List (Nat × Int)) : putAll m (es ++ fs) = putAll (putAll m es) fs := by
  simp [putAll]

/-- A phase keeps the canonical form. -/
theorem memWf_putAll {m : Memory} (es : List (Nat × Int)) (h : memWf m = true) : memWf (putAll m es) = true := by
  induction es generalizing m with
  | nil => exact h
  | cons e es ih => exact ih (memWf_putQ _ _ h)

/-- A phase lists only addresses it writes, beside those listed before. -/
theorem all_putAll (p : Nat → Bool) {m : Memory} {es : List (Nat × Int)} (h : m.all (fun c => p c.1) = true)
    (he : ∀ e ∈ es, p e.1 = true ∧ p (e.1 + 1) = true) : (putAll m es).all (fun c => p c.1) = true := by
  induction es generalizing m with
  | nil => exact h
  | cons e es ih =>
    refine ih (all_memWrite p h fun k hk => ?_) fun f hf => he f (List.mem_cons_of_mem _ hf)
    have := he e List.mem_cons_self
    interval_cases k
    · simpa using this.1
    · exact this.2

/-- A phase leaves every byte outside its elements alone. -/
theorem readByte_putAll_outside {m : Memory} {es : List (Nat × Int)} {c : Nat}
    (h : ∀ e ∈ es, c < e.1 ∨ e.1 + 2 ≤ c) : readByte (putAll m es) c = readByte m c := by
  induction es generalizing m with
  | nil => rfl
  | cons e es ih =>
    rw [putAll_cons, ih fun f hf => h f (List.mem_cons_of_mem _ hf), readByte_putQ_outside _ (h e List.mem_cons_self)]

/-- A phase leaves every element that overlaps none of its own alone. -/
theorem q_putAll_outside {m : Memory} {es : List (Nat × Int)} {a : Nat}
    (h : ∀ e ∈ es, a + 2 ≤ e.1 ∨ e.1 + 2 ≤ a) : q (putAll m es) a = q m a :=
  q_congr fun c h1 h2 => readByte_putAll_outside fun e he => by have := h e he; omega

/-- Two element writes are the same or do not overlap. -/
def ElemsApart (e f : Nat × Int) : Prop := e.1 + 2 ≤ f.1 ∨ f.1 + 2 ≤ e.1

/-- Reading an element a phase writes, when the phase writes no byte twice. -/
theorem q_putAll_mem {m : Memory} {es : List (Nat × Int)} {e : Nat × Int} (hm : memWf m = true)
    (hp : es.Pairwise ElemsApart) (he : e ∈ es) : q (putAll m es) e.1 = sN 16 e.2 := by
  induction es generalizing m with
  | nil => cases he
  | cons f es ih =>
    rw [List.pairwise_cons] at hp
    rcases List.mem_cons.mp he with rfl | he
    · rw [putAll_cons, q_putAll_outside fun g hg => hp.1 g hg, q_putQ_same _ _ hm]
    · exact ih (memWf_putQ _ _ hm) hp.2 he

/-! ### MEM -/

/-- A backed address is inside the 32-bit space (R50). -/
theorem lt_of_inMem {rs : List MemRange} {a : Nat} (h : inMem rs a = true) : a < Config.addrSpace := by
  simp only [inMem, Bool.and_eq_true, decide_eq_true_eq] at h
  exact h.1

theorem inMem_of_span {rs : List MemRange} {p n a : Nat} (h : spanInMem rs p n = true) (h1 : p ≤ a) (h2 : a < p + n) :
    inMem rs a = true := by
  simp only [spanInMem, List.all_eq_true, List.mem_range] at h
  simpa [show p + (a - p) = a by omega] using h (a - p) (by omega)

end Sys2Proof.Machine
end

