-- ==== Sys2Proof/Laws/State.lean ====
section
/-! SUPPORT. The small lemmas of the state's updates: one per field per update, true by rfl (in
brackets, so that simp cites the lemma and the kernel never unfolds a whole rule), so that no proof unfolds a record update; and reading a register after writing one. -/

namespace Sys2Proof.Machine

@[simp] theorem setReg_core (d : DataReg) (v : Word) (s : State) : (setReg d v s).core = unitSetReg s.core d v := (rfl)
@[simp] theorem setReg_peers (d : DataReg) (v : Word) (s : State) : (setReg d v s).peers = s.peers := (rfl)
@[simp] theorem setReg_mem (d : DataReg) (v : Word) (s : State) : (setReg d v s).mem = s.mem := (rfl)
@[simp] theorem setReg_memMap (d : DataReg) (v : Word) (s : State) : (setReg d v s).memMap = s.memMap := (rfl)
@[simp] theorem setReg_mark (d : DataReg) (v : Word) (s : State) : (setReg d v s).mark = s.mark := (rfl)
@[simp] theorem setReg_draws (d : DataReg) (v : Word) (s : State) : (setReg d v s).draws = s.draws := (rfl)
@[simp] theorem setReg_sched (d : DataReg) (v : Word) (s : State) : (setReg d v s).sched = s.sched := (rfl)
@[simp] theorem setReg_prog (d : DataReg) (v : Word) (s : State) : (setReg d v s).prog = s.prog := (rfl)
@[simp] theorem setReg_hpc (d : DataReg) (v : Word) (s : State) : (setReg d v s).hpc = s.hpc := (rfl)
@[simp] theorem setReg_temps (d : DataReg) (v : Word) (s : State) : (setReg d v s).temps = s.temps := (rfl)

@[simp] theorem setMem_core (m : Memory) (s : State) : (setMem m s).core = s.core := (rfl)
@[simp] theorem setMem_peers (m : Memory) (s : State) : (setMem m s).peers = s.peers := (rfl)
@[simp] theorem setMem_mem (m : Memory) (s : State) : (setMem m s).mem = m := (rfl)
@[simp] theorem setMem_memMap (m : Memory) (s : State) : (setMem m s).memMap = s.memMap := (rfl)
@[simp] theorem setMem_mark (m : Memory) (s : State) : (setMem m s).mark = s.mark := (rfl)
@[simp] theorem setMem_draws (m : Memory) (s : State) : (setMem m s).draws = s.draws := (rfl)
@[simp] theorem setMem_sched (m : Memory) (s : State) : (setMem m s).sched = s.sched := (rfl)
@[simp] theorem setMem_prog (m : Memory) (s : State) : (setMem m s).prog = s.prog := (rfl)
@[simp] theorem setMem_hpc (m : Memory) (s : State) : (setMem m s).hpc = s.hpc := (rfl)
@[simp] theorem setMem_temps (m : Memory) (s : State) : (setMem m s).temps = s.temps := (rfl)

@[simp] theorem startCommand_core (w : Word) (s : State) : (startCommand w s).core = unitStart w s.core := (rfl)
@[simp] theorem startCommand_peers (w : Word) (s : State) : (startCommand w s).peers = s.peers := (rfl)
@[simp] theorem startCommand_mem (w : Word) (s : State) : (startCommand w s).mem = s.mem := (rfl)
@[simp] theorem startCommand_memMap (w : Word) (s : State) : (startCommand w s).memMap = s.memMap := (rfl)
@[simp] theorem startCommand_mark (w : Word) (s : State) : (startCommand w s).mark = s.mark := (rfl)
@[simp] theorem startCommand_draws (w : Word) (s : State) : (startCommand w s).draws = s.draws := (rfl)
@[simp] theorem startCommand_sched (w : Word) (s : State) : (startCommand w s).sched = s.sched := (rfl)
@[simp] theorem startCommand_prog (w : Word) (s : State) : (startCommand w s).prog = s.prog := (rfl)
@[simp] theorem startCommand_hpc (w : Word) (s : State) : (startCommand w s).hpc = s.hpc := (rfl)
@[simp] theorem startCommand_temps (w : Word) (s : State) : (startCommand w s).temps = s.temps := (rfl)

@[simp] theorem finish_core (code : CompletionCode) (s : State) : (finish code s).core = unitFinish code s.core := (rfl)
@[simp] theorem finish_peers (code : CompletionCode) (s : State) : (finish code s).peers = s.peers := (rfl)
@[simp] theorem finish_mem (code : CompletionCode) (s : State) : (finish code s).mem = s.mem := (rfl)
@[simp] theorem finish_memMap (code : CompletionCode) (s : State) : (finish code s).memMap = s.memMap := (rfl)
@[simp] theorem finish_mark (code : CompletionCode) (s : State) : (finish code s).mark = s.mark := (rfl)
@[simp] theorem finish_draws (code : CompletionCode) (s : State) : (finish code s).draws = s.draws := (rfl)
@[simp] theorem finish_sched (code : CompletionCode) (s : State) : (finish code s).sched = s.sched := (rfl)
@[simp] theorem finish_prog (code : CompletionCode) (s : State) : (finish code s).prog = s.prog := (rfl)
@[simp] theorem finish_hpc (code : CompletionCode) (s : State) : (finish code s).hpc = s.hpc := (rfl)
@[simp] theorem finish_temps (code : CompletionCode) (s : State) : (finish code s).temps = s.temps := (rfl)

@[simp] theorem withMark_core (r : ModelFault) (s : State) : (withMark r s).core = s.core := (rfl)
@[simp] theorem withMark_peers (r : ModelFault) (s : State) : (withMark r s).peers = s.peers := (rfl)
@[simp] theorem withMark_mem (r : ModelFault) (s : State) : (withMark r s).mem = s.mem := (rfl)
@[simp] theorem withMark_memMap (r : ModelFault) (s : State) : (withMark r s).memMap = s.memMap := (rfl)
@[simp] theorem withMark_mark (r : ModelFault) (s : State) : (withMark r s).mark = some (s.mark.getD r) := (rfl)
@[simp] theorem withMark_draws (r : ModelFault) (s : State) : (withMark r s).draws = s.draws := (rfl)
@[simp] theorem withMark_sched (r : ModelFault) (s : State) : (withMark r s).sched = s.sched := (rfl)
@[simp] theorem withMark_prog (r : ModelFault) (s : State) : (withMark r s).prog = s.prog := (rfl)
@[simp] theorem withMark_hpc (r : ModelFault) (s : State) : (withMark r s).hpc = s.hpc := (rfl)
@[simp] theorem withMark_temps (r : ModelFault) (s : State) : (withMark r s).temps = s.temps := (rfl)

@[simp] theorem setTemp_core (t : Nat) (v : List Int) (s : State) : (setTemp t v s).core = s.core := (rfl)
@[simp] theorem setTemp_peers (t : Nat) (v : List Int) (s : State) : (setTemp t v s).peers = s.peers := (rfl)
@[simp] theorem setTemp_mem (t : Nat) (v : List Int) (s : State) : (setTemp t v s).mem = s.mem := (rfl)
@[simp] theorem setTemp_memMap (t : Nat) (v : List Int) (s : State) : (setTemp t v s).memMap = s.memMap := (rfl)
@[simp] theorem setTemp_mark (t : Nat) (v : List Int) (s : State) : (setTemp t v s).mark = s.mark := (rfl)
@[simp] theorem setTemp_draws (t : Nat) (v : List Int) (s : State) : (setTemp t v s).draws = s.draws := (rfl)
@[simp] theorem setTemp_sched (t : Nat) (v : List Int) (s : State) : (setTemp t v s).sched = s.sched := (rfl)
@[simp] theorem setTemp_prog (t : Nat) (v : List Int) (s : State) : (setTemp t v s).prog = s.prog := (rfl)
@[simp] theorem setTemp_hpc (t : Nat) (v : List Int) (s : State) : (setTemp t v s).hpc = s.hpc := (rfl)
@[simp] theorem setTemp_temps (t : Nat) (v : List Int) (s : State) : (setTemp t v s).temps = tempsSet s.temps t v := (rfl)

@[simp] theorem setHpc_core (n : Nat) (s : State) : (setHpc n s).core = s.core := (rfl)
@[simp] theorem setHpc_peers (n : Nat) (s : State) : (setHpc n s).peers = s.peers := (rfl)
@[simp] theorem setHpc_mem (n : Nat) (s : State) : (setHpc n s).mem = s.mem := (rfl)
@[simp] theorem setHpc_memMap (n : Nat) (s : State) : (setHpc n s).memMap = s.memMap := (rfl)
@[simp] theorem setHpc_mark (n : Nat) (s : State) : (setHpc n s).mark = s.mark := (rfl)
@[simp] theorem setHpc_draws (n : Nat) (s : State) : (setHpc n s).draws = s.draws := (rfl)
@[simp] theorem setHpc_sched (n : Nat) (s : State) : (setHpc n s).sched = s.sched := (rfl)
@[simp] theorem setHpc_prog (n : Nat) (s : State) : (setHpc n s).prog = s.prog := (rfl)
@[simp] theorem setHpc_hpc (n : Nat) (s : State) : (setHpc n s).hpc = n := (rfl)
@[simp] theorem setHpc_temps (n : Nat) (s : State) : (setHpc n s).temps = s.temps := (rfl)

@[simp] theorem dropTurn_core (s : State) : (dropTurn s).core = s.core := (rfl)
@[simp] theorem dropTurn_peers (s : State) : (dropTurn s).peers = s.peers := (rfl)
@[simp] theorem dropTurn_mem (s : State) : (dropTurn s).mem = s.mem := (rfl)
@[simp] theorem dropTurn_memMap (s : State) : (dropTurn s).memMap = s.memMap := (rfl)
@[simp] theorem dropTurn_mark (s : State) : (dropTurn s).mark = s.mark := (rfl)
@[simp] theorem dropTurn_draws (s : State) : (dropTurn s).draws = s.draws := (rfl)
@[simp] theorem dropTurn_sched (s : State) : (dropTurn s).sched = s.sched.tail := (rfl)
@[simp] theorem dropTurn_prog (s : State) : (dropTurn s).prog = s.prog := (rfl)
@[simp] theorem dropTurn_hpc (s : State) : (dropTurn s).hpc = s.hpc := (rfl)
@[simp] theorem dropTurn_temps (s : State) : (dropTurn s).temps = s.temps := (rfl)

@[simp] theorem placeCommand_core (w : Word) (s : State) : (placeCommand w s).core = unitStart w s.core := (rfl)
@[simp] theorem placeCommand_peers (w : Word) (s : State) : (placeCommand w s).peers = s.peers := (rfl)
@[simp] theorem placeCommand_mem (w : Word) (s : State) : (placeCommand w s).mem = s.mem := (rfl)
@[simp] theorem placeCommand_memMap (w : Word) (s : State) : (placeCommand w s).memMap = s.memMap := (rfl)
@[simp] theorem placeCommand_mark (w : Word) (s : State) : (placeCommand w s).mark = s.mark := (rfl)
@[simp] theorem placeCommand_draws (w : Word) (s : State) : (placeCommand w s).draws = s.draws := (rfl)
@[simp] theorem placeCommand_sched (w : Word) (s : State) : (placeCommand w s).sched = .engine 0 :: s.sched := (rfl)
@[simp] theorem placeCommand_prog (w : Word) (s : State) : (placeCommand w s).prog = s.prog := (rfl)
@[simp] theorem placeCommand_hpc (w : Word) (s : State) : (placeCommand w s).hpc = s.hpc := (rfl)
@[simp] theorem placeCommand_temps (w : Word) (s : State) : (placeCommand w s).temps = s.temps := (rfl)

@[simp] theorem unitStart_base (w : Word) (c : CoreUnit) : (unitStart w c).base = c.base := (rfl)
@[simp] theorem unitStart_cmd (w : Word) (c : CoreUnit) : (unitStart w c).cmd = w := (rfl)
@[simp] theorem unitStart_status (w : Word) (c : CoreUnit) : (unitStart w c).status = statusStarted c.status := (rfl)
@[simp] theorem unitStart_phase (w : Word) (c : CoreUnit) : (unitStart w c).phase = .busy w := (rfl)
@[simp] theorem unitStart_regs (w : Word) (c : CoreUnit) : (unitStart w c).regs = c.regs := (rfl)

@[simp] theorem unitFinish_base (code : CompletionCode) (c : CoreUnit) : (unitFinish code c).base = c.base := (rfl)
@[simp] theorem unitFinish_cmd (code : CompletionCode) (c : CoreUnit) : (unitFinish code c).cmd = c.cmd := (rfl)
@[simp] theorem unitFinish_status (code : CompletionCode) (c : CoreUnit) : (unitFinish code c).status = statusFinished c.status code := (rfl)
@[simp] theorem unitFinish_phase (code : CompletionCode) (c : CoreUnit) : (unitFinish code c).phase = .idle := (rfl)
@[simp] theorem unitFinish_regs (code : CompletionCode) (c : CoreUnit) : (unitFinish code c).regs = c.regs := (rfl)

@[simp] theorem unitSetReg_base (c : CoreUnit) (d : DataReg) (v : Word) : (unitSetReg c d v).base = c.base := (rfl)
@[simp] theorem unitSetReg_cmd (c : CoreUnit) (d : DataReg) (v : Word) : (unitSetReg c d v).cmd = c.cmd := (rfl)
@[simp] theorem unitSetReg_status (c : CoreUnit) (d : DataReg) (v : Word) : (unitSetReg c d v).status = c.status := (rfl)
@[simp] theorem unitSetReg_phase (c : CoreUnit) (d : DataReg) (v : Word) : (unitSetReg c d v).phase = c.phase := (rfl)
@[simp] theorem unitSetReg_regs (c : CoreUnit) (d : DataReg) (v : Word) : (unitSetReg c d v).regs = regSet c.regs d ⟨v &&& storedBits d, true⟩ := (rfl)

@[simp] theorem unitReset_base (b : Nat) : (CoreUnit.reset b).base = b := (rfl)
@[simp] theorem unitReset_cmd (b : Nat) : (CoreUnit.reset b).cmd = 0 := (rfl)
@[simp] theorem unitReset_status (b : Nat) : (CoreUnit.reset b).status = 0 := (rfl)
@[simp] theorem unitReset_phase (b : Nat) : (CoreUnit.reset b).phase = .idle := (rfl)
@[simp] theorem unitReset_regs (b : Nat) : (CoreUnit.reset b).regs = .reset := (rfl)

/-! ### Marks (60_exceptions R176): each only the mark of the state it is applied to -/

@[simp] theorem noteLoad_core (s : State) (a : Nat) (z : AccessSize) : (noteLoad s a z).core = s.core := by
  unfold noteLoad; split <;> (try split) <;> rfl
@[simp] theorem noteLoad_peers (s : State) (a : Nat) (z : AccessSize) : (noteLoad s a z).peers = s.peers := by
  unfold noteLoad; split <;> (try split) <;> rfl
@[simp] theorem noteLoad_mem (s : State) (a : Nat) (z : AccessSize) : (noteLoad s a z).mem = s.mem := by
  unfold noteLoad; split <;> (try split) <;> rfl
@[simp] theorem noteLoad_memMap (s : State) (a : Nat) (z : AccessSize) : (noteLoad s a z).memMap = s.memMap := by
  unfold noteLoad; split <;> (try split) <;> rfl
@[simp] theorem noteLoad_draws (s : State) (a : Nat) (z : AccessSize) : (noteLoad s a z).draws = s.draws := by
  unfold noteLoad; split <;> (try split) <;> rfl
@[simp] theorem noteLoad_sched (s : State) (a : Nat) (z : AccessSize) : (noteLoad s a z).sched = s.sched := by
  unfold noteLoad; split <;> (try split) <;> rfl
@[simp] theorem noteLoad_prog (s : State) (a : Nat) (z : AccessSize) : (noteLoad s a z).prog = s.prog := by
  unfold noteLoad; split <;> (try split) <;> rfl
@[simp] theorem noteLoad_hpc (s : State) (a : Nat) (z : AccessSize) : (noteLoad s a z).hpc = s.hpc := by
  unfold noteLoad; split <;> (try split) <;> rfl
@[simp] theorem noteLoad_temps (s : State) (a : Nat) (z : AccessSize) : (noteLoad s a z).temps = s.temps := by
  unfold noteLoad; split <;> (try split) <;> rfl
@[simp] theorem noteAbandoned_core (s : State) : (noteAbandoned s).core = s.core := by unfold noteAbandoned; split <;> rfl
@[simp] theorem noteAbandoned_peers (s : State) : (noteAbandoned s).peers = s.peers := by unfold noteAbandoned; split <;> rfl
@[simp] theorem noteAbandoned_mem (s : State) : (noteAbandoned s).mem = s.mem := by unfold noteAbandoned; split <;> rfl
@[simp] theorem noteAbandoned_memMap (s : State) : (noteAbandoned s).memMap = s.memMap := by unfold noteAbandoned; split <;> rfl
@[simp] theorem noteAbandoned_draws (s : State) : (noteAbandoned s).draws = s.draws := by unfold noteAbandoned; split <;> rfl
@[simp] theorem noteAbandoned_sched (s : State) : (noteAbandoned s).sched = s.sched := by unfold noteAbandoned; split <;> rfl
@[simp] theorem noteAbandoned_prog (s : State) : (noteAbandoned s).prog = s.prog := by unfold noteAbandoned; split <;> rfl
@[simp] theorem noteAbandoned_hpc (s : State) : (noteAbandoned s).hpc = s.hpc := by unfold noteAbandoned; split <;> rfl
@[simp] theorem noteAbandoned_temps (s : State) : (noteAbandoned s).temps = s.temps := by unfold noteAbandoned; split <;> rfl

/-- No marking operation clears or replaces a mark. -/
theorem mark_kept {s : State} {m : ModelFault} (h : s.mark = some m) :
    (∀ r, (withMark r s).mark = some m) ∧ (∀ a z, (noteLoad s a z).mark = some m)
      ∧ (noteAbandoned s).mark = some m := by
  refine ⟨fun r => by simp [h], fun a z => ?_, ?_⟩
  · unfold noteLoad; split <;> (try split) <;> simp [h]
  · unfold noteAbandoned; split <;> simp [h]

@[simp] theorem asCore_zero (s : State) : asCore 0 s = s := rfl
@[simp] theorem asCore_succ (j : Nat) (s : State) : asCore (j + 1) s = swapUnit j s := rfl

/-! ### The register file -/

@[simp] theorem regGet_regSet_same (f : RegFile) (d : DataReg) (r : DReg) : regGet (regSet f d r) d = r := by
  cases d <;> rfl

theorem regGet_regSet_other (f : RegFile) {d e : DataReg} (r : DReg) (h : e ≠ d) :
    regGet (regSet f d r) e = regGet f e := by
  cases d <;> cases e <;> first | rfl | exact absurd rfl h

/-- Reading any register after writing one. -/
theorem regGet_regSet (f : RegFile) (d e : DataReg) (r : DReg) :
    regGet (regSet f d r) e = if e = d then r else regGet f e := by
  by_cases h : e = d
  · subst h; simp
  · simp [h, regGet_regSet_other]

@[simp] theorem regGet_reset (d : DataReg) : regGet .reset d = .reset := by cases d <;> rfl

/-- The value of a register after a command writes one. -/
theorem regVal_setReg (d e : DataReg) (v : Word) (s : State) :
    regVal (setReg d v s) e = if e = d then v &&& storedBits d else regVal s e := by
  simp only [regVal, setReg_core, unitSetReg_regs, regGet_regSet]
  split <;> rfl

@[simp] theorem regVal_finish (code : CompletionCode) (d : DataReg) (s : State) :
    regVal (finish code s) d = regVal s d := (rfl)

@[simp] theorem regVal_setMem (m : Memory) (d : DataReg) (s : State) : regVal (setMem m s) d = regVal s d := (rfl)

/-! ### Exchanging instances -/

/-- What `swapUnit` gives when the peer exists. -/
theorem swapUnit_of_lt {j : Nat} {s : State} (h : j < s.peers.length) :
    swapUnit j s = { s with core := s.peers[j], peers := s.peers.set j s.core } := by
  simp [swapUnit, List.getElem?_eq_getElem h]

@[simp] theorem swapUnit_mem (j : Nat) (s : State) : (swapUnit j s).mem = s.mem := by
  unfold swapUnit; split <;> rfl
@[simp] theorem swapUnit_memMap (j : Nat) (s : State) : (swapUnit j s).memMap = s.memMap := by
  unfold swapUnit; split <;> rfl
@[simp] theorem swapUnit_mark (j : Nat) (s : State) : (swapUnit j s).mark = s.mark := by
  unfold swapUnit; split <;> rfl
@[simp] theorem swapUnit_draws (j : Nat) (s : State) : (swapUnit j s).draws = s.draws := by
  unfold swapUnit; split <;> rfl
@[simp] theorem swapUnit_sched (j : Nat) (s : State) : (swapUnit j s).sched = s.sched := by
  unfold swapUnit; split <;> rfl
@[simp] theorem swapUnit_prog (j : Nat) (s : State) : (swapUnit j s).prog = s.prog := by
  unfold swapUnit; split <;> rfl
@[simp] theorem swapUnit_hpc (j : Nat) (s : State) : (swapUnit j s).hpc = s.hpc := by
  unfold swapUnit; split <;> rfl
@[simp] theorem swapUnit_temps (j : Nat) (s : State) : (swapUnit j s).temps = s.temps := by
  unfold swapUnit; split <;> rfl

@[simp] theorem swapUnit_peers_length (j : Nat) (s : State) : (swapUnit j s).peers.length = s.peers.length := by
  unfold swapUnit; split <;> simp

/-- Exchanging an instance twice gives the state back. -/
@[simp] theorem swapUnit_swapUnit (j : Nat) (s : State) : swapUnit j (swapUnit j s) = s := by
  by_cases h : j < s.peers.length
  · simp [swapUnit, h]
  · simp [swapUnit, List.getElem?_eq_none (Nat.le_of_not_lt h)]

/-- What holds of every instance is not changed by the exchange. -/
theorem units_all_swapUnit (p : CoreUnit → Bool) (j : Nat) (s : State) :
    (units (swapUnit j s)).all p = (units s).all p := by
  by_cases h : j < s.peers.length
  · rw [swapUnit_of_lt h, Bool.eq_iff_iff]
    simp only [units, List.all_cons, Bool.and_eq_true, List.all_eq_true]
    constructor
    · rintro ⟨h1, h2⟩
      refine ⟨h2 _ (List.mem_set h _), fun x hx => ?_⟩
      obtain ⟨k, hk, rfl⟩ := List.getElem_of_mem hx
      by_cases hkj : k = j
      · subst hkj; exact h1
      · exact h2 _ (by
          rw [List.mem_iff_getElem]
          exact ⟨k, by simpa using hk, by rw [List.getElem_set_ne (Ne.symm hkj)]⟩)
    · rintro ⟨h1, h2⟩
      refine ⟨h2 _ (List.getElem_mem h), fun x hx => ?_⟩
      rcases List.mem_or_eq_of_mem_set hx with hx | rfl
      · exact h2 x hx
      · exact h1
  · simp [swapUnit, List.getElem?_eq_none (Nat.le_of_not_lt h)]

end Sys2Proof.Machine
end

