-- ==== Sys2Proof/Laws/Status.lean ====
section
/-! SUPPORT. The STATUS fields (10_state R22) after a command starts or finishes. -/

namespace Sys2Proof.Machine

/-- ERR as a bit field. -/
theorem statusErr_eq_extract (w : Word) : statusErr w = (w.extractLsb' 4 4).toNat := by
  simp [statusErr, BitVec.extractLsb'_toNat, Nat.shiftRight_eq_div_pow]

/-- The reserved fields as bit fields. -/
theorem statusReservedZero_iff (w : Word) :
    statusReservedZero w = true ↔ w.extractLsb' 1 3 = 0#3 ∧ w.extractLsb' 8 24 = 0#24 := by
  simp only [statusReservedZero, Bool.and_eq_true, decide_eq_true_eq, ← BitVec.toNat_inj, BitVec.extractLsb'_toNat,
    Nat.shiftRight_eq_div_pow]
  have := w.isLt
  constructor <;> rintro ⟨h1, h2⟩ <;> refine ⟨by simpa using h1, ?_⟩
  · rw [show (2 : Nat) ^ 8 = 256 by norm_num, h2]; rfl
  · simp only [BitVec.toNat_ofNat] at h2
    omega

theorem statusBusy_setBusy (w : Word) (b : Bool) : statusBusy (setBusy w b) = b := by
  cases b <;> simp [statusBusy, setBusy]

theorem statusErr_setBusy (w : Word) (b : Bool) : statusErr (setBusy w b) = statusErr w := by
  rw [statusErr_eq_extract, statusErr_eq_extract]
  congr 1
  apply BitVec.eq_of_getLsbD_eq
  intro i hi
  interval_cases i <;> cases b <;> simp [setBusy]

theorem statusErr_setErr (w : Word) {e : Nat} (he : e < 4) : statusErr (setErr w e) = e := by
  rw [statusErr_eq_extract, show e = (BitVec.ofNat 4 e).toNat by simp; omega]
  congr 1
  apply BitVec.eq_of_getLsbD_eq
  intro i hi
  interval_cases e <;> interval_cases i <;> simp [setErr]

/-- The bits of STATUS outside BUSY and ERR are not written. -/
theorem rest_setBusy_setErr (w : Word) (e : Nat) (b : Bool) :
    setBusy (setErr w e) b &&& 0xFFFFFF0E#32 = w &&& 0xFFFFFF0E#32 := by
  have hm : BitVec.ofNat 32 (e % 16 * 16) &&& 0xFFFFFF0E#32 = 0#32 := by
    have : e % 16 < 16 := Nat.mod_lt _ (by omega)
    generalize e % 16 = x at this
    interval_cases x <;> decide
  have hb : (if b then 1#32 else 0#32) &&& 0xFFFFFF0E#32 = 0#32 := by cases b <;> decide
  unfold setBusy setErr
  rw [BitVec.and_or_distrib_right, hb, BitVec.or_zero, BitVec.and_assoc, BitVec.and_or_distrib_right]
  rw [show (0xFFFFFFFE#32 &&& 0xFFFFFF0E#32) = 0xFFFFFF0E#32 by decide, hm, BitVec.or_zero, BitVec.and_assoc]
  rfl

/-- Reserved bits that are 0 stay 0. -/
theorem statusReservedZero_setBusy_setErr {w : Word} (e : Nat) (b : Bool) (h : statusReservedZero w = true) :
    statusReservedZero (setBusy (setErr w e) b) = true := by
  have e1 : ∀ x : Word, x.extractLsb' 1 3 = (x &&& 0xFFFFFF0E#32).extractLsb' 1 3 := fun x => by
    apply BitVec.eq_of_getLsbD_eq
    intro i hi
    interval_cases i <;> simp
  have e2 : ∀ x : Word, x.extractLsb' 8 24 = (x &&& 0xFFFFFF0E#32).extractLsb' 8 24 := fun x => by
    apply BitVec.eq_of_getLsbD_eq
    intro i hi
    interval_cases i <;> simp
  rw [statusReservedZero_iff] at h ⊢
  rw [e1, e2, rest_setBusy_setErr, ← e1, ← e2]
  exact h

/-- STATUS when a command has started (R171). -/
theorem statusStarted_fields (w : Word) : statusBusy (statusStarted w) = true ∧ statusErr (statusStarted w) = 0 := by
  refine ⟨statusBusy_setBusy _ _, ?_⟩
  rw [statusStarted, statusErr_setBusy, statusErr_setErr _ (by omega)]

theorem codeValue_lt (code : CompletionCode) : codeValue code < 4 := by cases code <;> decide

/-- STATUS when a command has finished (R172). -/
theorem statusFinished_fields (w : Word) (code : CompletionCode) :
    statusBusy (statusFinished w code) = false ∧ statusErr (statusFinished w code) = codeValue code := by
  refine ⟨statusBusy_setBusy _ _, ?_⟩
  rw [statusFinished, statusErr_setBusy, statusErr_setErr _ (codeValue_lt code)]

/-- What finishing does to the instance, as the claims say it. -/
theorem finished_finish (code : CompletionCode) {s u : State} (hs : u.core.status = s.core.status)
    (hc : u.core.cmd = s.core.cmd) (hb : u.core.base = s.core.base) : Finished code s (finish code u) := by
  refine ⟨?_, ?_, ?_, rfl, hc, hb⟩
  · exact (statusFinished_fields _ _).2
  · exact (statusFinished_fields _ _).1
  · rw [← hs]; exact rest_setBusy_setErr _ _ _

end Sys2Proof.Machine
end

