-- ==== Sys2Proof/Laws/Commands.lean ====
section
/-! SUPPORT. What the command frame can do (60_exceptions R172, R174), and the frame of every command's effect: the
registers and the environment it leaves alone, and where its element writes lie. -/

namespace Sys2Proof.Machine

/-- The rule of each command, as its meaning runs it. -/
def effectOf : Instr → State → State
  | .accClr => accClrEffect
  | .macW => macWEffect
  | .macD => macDEffect
  | .dmacW => dmacWEffect
  | .dmacD => dmacDEffect
  | .clip => clipEffect
  | .rdT => rdTEffect
  | .rdS => rdSEffect
  | .convF => convFEffect
  | .convP => convPEffect
  | .matmulF => matmulFEffect
  | .matmulC => matmulCEffect

/-- Every meaning is the frame around the command's rule (R100, R172). -/
theorem exec_eq_runCommand (i : Instr) (s : State) : exec i s = runCommand i (effectOf i) s := by
  cases i <;> rfl

/-- Everything the command frame can answer. -/
theorem runCommand_cases (i : Instr) (f : State → State) (s : State) :
    (checks i s = .pass ∧ accessible i s = true ∧ runCommand i f s = .next (finish .ok (f s))) ∨
    (∃ code, checks i s = .ends code ∧ runCommand i f s = .next (finish code s)) ∨
    (∃ r, checks i s = .raise r ∧ s.mark = none ∧ runCommand i f s = .next (withMark r s)) ∨
    (∃ r m, checks i s = .raise r ∧ s.mark = some m ∧ runCommand i f s = .fault (.marked m)) ∨
    (checks i s = .pass ∧ accessible i s = false ∧ runCommand i f s = .fault .stuck) := by
  unfold runCommand raiseFault
  cases hc : checks i s <;> cases hm : s.mark <;> cases ha : accessible i s <;> simp

/-- A command whose checks pass and whose accesses are in `MEM` completes. -/
theorem exec_of_pass {i : Instr} {s : State} (h : checks i s = .pass) (ha : accessible i s = true) :
    exec i s = .next (finish .ok (effectOf i s)) := by
  rw [exec_eq_runCommand, runCommand, h]
  simp [ha]

/-- A command that is ready completes. -/
theorem exec_of_ready {i : Instr} {s : State} (h : Ready i s) : exec i s = .next (finish .ok (effectOf i s)) :=
  exec_of_pass h.2.1 h.2.2

/-- The next states of a command. -/
theorem exec_next_cases {i : Instr} {s t : State} (h : exec i s = .next t) :
    (checks i s = .pass ∧ accessible i s = true ∧ t = finish .ok (effectOf i s)) ∨
    (∃ code, checks i s = .ends code ∧ t = finish code s) ∨
    (∃ r, checks i s = .raise r ∧ s.mark = none ∧ t = withMark r s) := by
  rw [exec_eq_runCommand] at h
  rcases runCommand_cases i (effectOf i) s with ⟨hc, ha, he⟩ | ⟨code, hc, he⟩ | ⟨r, hc, hm, he⟩ | ⟨r, m, _, _, he⟩ | ⟨_, _, he⟩
    <;> rw [he] at h
  · exact .inl ⟨hc, ha, by cases h; rfl⟩
  · exact .inr (.inl ⟨code, hc, by cases h; rfl⟩)
  · exact .inr (.inr ⟨r, hc, hm, by cases h; rfl⟩)
  · cases h
  · cases h

/-- A command is ended by a check with two codes only (R174). -/
theorem checks_ends_code {i : Instr} {s : State} {code : CompletionCode} (h : checks i s = .ends code) :
    code = .misaligned ∨ code = .sizeMismatch := by
  unfold checks at h
  repeat' split at h
  all_goals first | (cases h; done) | (injection h with h; simp [← h])

/-- Check 2 finds nothing where every register the command reads is written. -/
theorem readsUnwritten_of_written {i : Instr} {s : State} (h : unitWritten s.core (readRegs i) = true) :
    readsUnwritten i s = false := by simp [readsUnwritten, h]

/-- Check 2 finds nothing in a marked state (log 5). -/
theorem readsUnwritten_of_marked {i : Instr} {s : State} (h : s.mark ≠ none) : readsUnwritten i s = false := by
  simp [readsUnwritten, Option.isNone_eq_false_iff, Option.isSome_iff_ne_none, h]

/-- What passing checks say (R174, checks 2 to 7). -/
theorem checks_pass_iff (i : Instr) (s : State) :
    checks i s = .pass ↔
      readsUnwritten i s = false
        ∧ oddBase i s.core = false
        ∧ (isMatmul i = true → sizesMatch s.core = true)
        ∧ (isConv i = true → lenAOf s.core ≠ 0 ∧ lenBOf s.core ≠ 0)
        ∧ (regions i s.core).any wraps = false
        ∧ selfConflict (regions i s.core) = false
        ∧ crossConflict (regions i s.core) (peerRegions s) = false := by
  unfold checks
  constructor
  · intro h
    repeat' split at h
    all_goals first | (cases h; done) | simp_all
  · rintro ⟨h1, h2, h3, h4, h5, h6, h7⟩
    rw [if_neg (by simp [h1]), if_neg (by simp [h2]), if_neg (by cases hm : isMatmul i <;> simp_all),
      if_neg (by cases hm : isConv i <;> simp_all), if_neg (by simp [h5]), if_neg (by simp [h6, h7])]

/-- A primitive command that gets past check 2 passes every later one (R100). -/
theorem pass_primitive {i : Instr} {s : State} (hr : regions i s.core = []) (hb : baseRegs i = [])
    (hu : readsUnwritten i s = false) :
    checks i s = .pass ∧ accessible i s = true := by
  have hm : isMatmul i = false ∧ isConv i = false ∧ accessed i s.core = [] := by
    cases i <;> simp_all [regions, baseRegs, isMatmul, isConv, accessed]
  constructor
  · rw [checks_pass_iff]
    simp [hu, oddBase, hb, hm.1, hm.2.1, hr, selfConflict, crossConflict]
  · simp [accessible, hm.2.2]

/-- A primitive command needs its registers written and nothing else (R100). -/
theorem ready_primitive {i : Instr} {s : State} (hr : regions i s.core = []) (hb : baseRegs i = [])
    (hw : unitWritten s.core (readRegs i) = true) : Ready i s := ⟨hw, pass_primitive hr hb (readsUnwritten_of_written hw)⟩

/-! ### Frames of the rules -/

/-- No rule touches STATUS, CMD, BASE or the phase. -/
theorem effectOf_unit (i : Instr) (s : State) :
    (effectOf i s).core.status = s.core.status ∧ (effectOf i s).core.cmd = s.core.cmd
      ∧ (effectOf i s).core.base = s.core.base ∧ (effectOf i s).core.phase = s.core.phase := by
  cases i <;>
    simp [effectOf, accClrEffect, macWEffect, macDEffect, dmacWEffect, dmacDEffect, clipEffect, rdTEffect, rdSEffect,
      convFEffect, convPEffect, matmulFEffect, matmulCEffect, setAcc32, setAcc64]

/-- No rule touches anything but instance 0 and the data memory. -/
theorem effectOf_environment (i : Instr) (s : State) : EnvironmentSame s (effectOf i s) := by
  cases i <;>
    simp [EnvironmentSame, effectOf, accClrEffect, macWEffect, macDEffect, dmacWEffect, dmacDEffect, clipEffect, rdTEffect, rdSEffect,
      convFEffect, convPEffect, matmulFEffect, matmulCEffect, setAcc32, setAcc64]

/-- A command that a check makes raise a model fault marks an unmarked state and does nothing else. -/
theorem exec_of_raise {i : Instr} {s : State} {r : ModelFault} (hr : checks i s = .raise r) (hm : s.mark = none) :
    exec i s = .next (withMark r s) := by
  rw [exec_eq_runCommand]; simp [runCommand, hr, raiseFault, hm]

/-- A command one of whose registers is unwritten marks an unmarked state and does nothing else (R174 check 2). -/
theorem exec_of_unwritten (i : Instr) (s : State) : UnwrittenMarks i s :=
  fun hw hm => exec_of_raise (by simp [checks, readsUnwritten, hw, hm]) hm

/-- What a command ends in, by its checks. -/
theorem outcomeByChecks (i : Instr) (s : State) : OutcomeByChecks i s := by
  refine ⟨exec_of_unwritten i s, fun r hr hm => exec_of_raise hr hm, fun code hc => ?_, fun hc ha => ?_⟩
  · refine ⟨finish code s, by rw [exec_eq_runCommand]; simp [runCommand, hc], ?_⟩
    exact ⟨finished_finish code rfl rfl rfl, fun d _ => rfl, ⟨rfl, rfl, rfl, rfl, rfl, rfl, rfl, rfl⟩, fun _ => rfl⟩
  · rw [exec_eq_runCommand]; simp [runCommand, hc, ha]

/-- A rule writes the data registers R178 lists for it and no other. -/
theorem effectOf_regs (i : Instr) (s : State) : RegsSameBut (writtenRegs i) s (effectOf i s) := by
  intro d hd
  cases i <;> simp [writtenRegs] at hd <;>
    simp [effectOf, accClrEffect, macWEffect, macDEffect, dmacWEffect, dmacDEffect, clipEffect, rdTEffect, rdSEffect,
      convFEffect, convPEffect, matmulFEffect, matmulCEffect, setAcc32, setAcc64, regGet_regSet, hd]

/-- A rule sets the written-flags of the registers it writes (R39). -/
theorem effectOf_written (i : Instr) (s : State) : unitWritten (effectOf i s).core (writtenRegs i) = true := by
  cases i <;>
    simp [unitWritten, writtenRegs, effectOf, accClrEffect, macWEffect, macDEffect, dmacWEffect, dmacDEffect, clipEffect,
      rdTEffect, rdSEffect, setAcc32, setAcc64, regGet_regSet]

/-- The element writes of a command, in the order of its phases. -/
def writesOf (i : Instr) (s : State) : List (Nat × Int) :=
  match i with
  | .accClr => []
  | .macW => []
  | .macD => []
  | .dmacW => []
  | .dmacD => []
  | .clip => []
  | .rdT => []
  | .rdS => []
  | .convF =>
    convFWrites s.mem (unitAddr s.core .srcA) (unitAddr s.core .srcB) (unitAddr s.core .dst) (lenAOf s.core) (lenBOf s.core)
  | .convP =>
    let a := unitAddr s.core .srcA
    let b := unitAddr s.core .srcB
    let s1 := unitAddr s.core .scr1
    let s2 := unitAddr s.core .scr2
    let L := convL (lenAOf s.core) (lenBOf s.core)
    let M := convM (lenAOf s.core) (lenBOf s.core)
    (padWrites s.mem (if lenBOf s.core ≤ lenAOf s.core then a else b) s1 L M
      ++ reverseWrites s.mem (if lenBOf s.core ≤ lenAOf s.core then b else a) s2 L)
    ++ convPWrites (convPScratch s.mem a b s1 s2 (lenAOf s.core) (lenBOf s.core)) s1 s2 (unitAddr s.core .dst)
        (lenAOf s.core) (lenBOf s.core)
  | .matmulF =>
    let ws := transposeWrites s.mem (unitAddr s.core .srcB) (unitAddr s.core .scr1) (bRows s.core) (bCols s.core)
    ws ++ matmulFWrites (putAll s.mem ws) (unitAddr s.core .srcA) (unitAddr s.core .scr1) (unitAddr s.core .dst)
      (aRows s.core) (aCols s.core) (bRows s.core) (bCols s.core) (dCols s.core)
  | .matmulC =>
    let ws := transposeWritesC s.mem (unitAddr s.core .srcB) (unitAddr s.core .scr1) (bRows s.core) (bCols s.core)
    ws ++ matmulCWrites (putAll s.mem ws) (unitAddr s.core .srcA) (unitAddr s.core .scr1) (unitAddr s.core .dst)
      (aRows s.core) (aCols s.core) (bRows s.core) (bCols s.core) (dCols s.core)

/-- A rule's memory is the old one with the command's element writes. -/
theorem effectOf_mem (i : Instr) (s : State) : (effectOf i s).mem = putAll s.mem (writesOf i s) := by
  cases i <;>
    simp [effectOf, writesOf, accClrEffect, macWEffect, macDEffect, dmacWEffect, dmacDEffect, clipEffect, rdTEffect, rdSEffect,
      convFEffect, convPEffect, matmulFEffect, matmulCEffect, setAcc32, setAcc64, convPScratch, putAll_append]

/-- An index pair of a matrix lies below the product of the dimensions. -/
theorem index_lt {i j r c : Nat} (hi : i < r) (hj : j < c) : i * c + j < r * c := by
  calc i * c + j < i * c + c := by omega
    _ = (i + 1) * c := by ring
    _ ≤ r * c := Nat.mul_le_mul_right c hi

/-- An element lies inside a written region of a list. -/
def InWritten (rs : List Region) (e : Nat × Int) : Prop :=
  ∃ r ∈ rs, r.written = true ∧ r.base ≤ e.1 ∧ e.1 + 2 ≤ r.base + r.size

/-- Every element a command writes lies inside a region R57 says it writes. -/
theorem writesOf_inWritten {i : Instr} {s : State} (h : checks i s = .pass) :
    ∀ e ∈ writesOf i s, InWritten (regions i s.core) e := by
  rw [checks_pass_iff] at h
  obtain ⟨_, _, hsz, hlen, _⟩ := h
  intro e he
  cases i with
  | accClr => cases he
  | macW => cases he
  | macD => cases he
  | dmacW => cases he
  | dmacD => cases he
  | clip => cases he
  | rdT => cases he
  | rdS => cases he
  | convF =>
    simp only [writesOf, convFWrites, List.mem_map, List.mem_range] at he
    obtain ⟨n, hn, rfl⟩ := he
    refine ⟨⟨unitAddr s.core .dst, 2 * convN (lenAOf s.core) (lenBOf s.core), true⟩, by simp [regions, convFRegions], rfl, ?_, ?_⟩
      <;> dsimp only <;> omega
  | convP =>
    obtain ⟨hA, hB⟩ := hlen rfl
    simp only [writesOf, List.mem_append, padWrites, reverseWrites, convPWrites, List.mem_map, List.mem_range] at he
    have hL : 1 ≤ convL (lenAOf s.core) (lenBOf s.core) := le_min (Nat.pos_of_ne_zero hA) (Nat.pos_of_ne_zero hB)
    rcases he with (((⟨n, hn, rfl⟩ | ⟨n, hn, rfl⟩) | ⟨n, hn, rfl⟩) | ⟨n, hn, rfl⟩) | ⟨n, hn, rfl⟩
    · refine ⟨⟨unitAddr s.core .scr1, 2 * (convM (lenAOf s.core) (lenBOf s.core) + 2 * convL (lenAOf s.core) (lenBOf s.core) - 2), true⟩,
        by simp [regions, convPRegions], rfl, ?_, ?_⟩ <;> dsimp only <;> omega
    · refine ⟨⟨unitAddr s.core .scr1, 2 * (convM (lenAOf s.core) (lenBOf s.core) + 2 * convL (lenAOf s.core) (lenBOf s.core) - 2), true⟩,
        by simp [regions, convPRegions], rfl, ?_, ?_⟩ <;> dsimp only <;> omega
    · refine ⟨⟨unitAddr s.core .scr1, 2 * (convM (lenAOf s.core) (lenBOf s.core) + 2 * convL (lenAOf s.core) (lenBOf s.core) - 2), true⟩,
        by simp [regions, convPRegions], rfl, ?_, ?_⟩ <;> dsimp only <;> omega
    · refine ⟨⟨unitAddr s.core .scr2, 2 * convL (lenAOf s.core) (lenBOf s.core), true⟩,
        by simp [regions, convPRegions], rfl, ?_, ?_⟩ <;> dsimp only <;> omega
    · refine ⟨⟨unitAddr s.core .dst, 2 * convN (lenAOf s.core) (lenBOf s.core), true⟩,
        by simp [regions, convPRegions], rfl, ?_, ?_⟩ <;> dsimp only <;> omega
  | matmulF =>
    have hs := hsz rfl
    simp only [sizesMatch, Bool.and_eq_true, decide_eq_true_eq] at hs
    obtain ⟨⟨_, hAr⟩, hBc⟩ := hs
    simp only [writesOf, List.mem_append, transposeWrites, matmulFWrites, List.mem_flatMap, List.mem_map, List.mem_range] at he
    rcases he with ⟨k, hk, j, hj, rfl⟩ | ⟨i, hi, j, hj, rfl⟩
    · have := index_lt hj hk
      refine ⟨⟨unitAddr s.core .scr1, 2 * (bRows s.core * bCols s.core), true⟩, by simp [regions, matmulRegions], rfl, ?_, ?_⟩
        <;> dsimp only
      · omega
      · rw [Nat.mul_comm (bRows s.core)]; omega
    · rw [hAr] at hi
      rw [hBc] at hj
      have := index_lt hi hj
      refine ⟨⟨unitAddr s.core .dst, 2 * (dRows s.core * dCols s.core), true⟩, by simp [regions, matmulRegions], rfl, ?_, ?_⟩
        <;> dsimp only <;> omega
  | matmulC =>
    have hs := hsz rfl
    simp only [sizesMatch, Bool.and_eq_true, decide_eq_true_eq] at hs
    obtain ⟨⟨_, hAr⟩, hBc⟩ := hs
    simp only [writesOf, List.mem_append, transposeWritesC, matmulCWrites, List.mem_flatMap, List.mem_map, List.mem_range] at he
    rcases he with ⟨k, hk, j, hj, c, hc, rfl⟩ | ⟨i, hi, j, hj, he⟩
    · have := index_lt hj hk
      refine ⟨⟨unitAddr s.core .scr1, 4 * (bRows s.core * bCols s.core), true⟩, by simp [regions, matmulRegions], rfl, ?_, ?_⟩
        <;> dsimp only
      · omega
      · rw [Nat.mul_comm (bRows s.core)]; omega
    · rw [hAr] at hi
      rw [hBc] at hj
      have := index_lt hi hj
      simp only [List.mem_cons, List.not_mem_nil, or_false] at he
      refine ⟨⟨unitAddr s.core .dst, 4 * (dRows s.core * dCols s.core), true⟩, by simp [regions, matmulRegions], rfl, ?_, ?_⟩
        <;> rcases he with rfl | rfl <;> (dsimp only; omega)

/-- A rule leaves every byte outside the command's written regions alone (20_memory R59). -/
theorem effectOf_bytes {i : Instr} {s : State} (h : checks i s = .pass) : BytesSameOutside i s (effectOf i s) := by
  intro a ha
  rw [effectOf_mem]
  refine readByte_putAll_outside fun e he => ?_
  obtain ⟨r, hr, hw, h1, h2⟩ := writesOf_inWritten h e he
  have := ha r hr hw
  omega

/-- Every region a command writes is one whose elements it accesses. -/
theorem mem_accessed_of_written {i : Instr} {c : CoreUnit} {r : Region} (h : r ∈ regions i c) (hw : r.written = true) :
    r ∈ accessed i c := by
  cases i <;> simp only [regions, accessed] at h ⊢ <;> first | exact h | (split <;> (simp_all [matmulRegions]; try aesop))

/-- Every byte of every element a command writes is in `MEM`. -/
theorem writesOf_inMem {i : Instr} {s : State} (h : checks i s = .pass) (hs : accessible i s = true) :
    ∀ e ∈ writesOf i s, inMem s.memMap e.1 = true ∧ inMem s.memMap (e.1 + 1) = true := by
  intro e he
  obtain ⟨r, hr, hw, h1, h2⟩ := writesOf_inWritten h e he
  simp only [accessible, List.all_eq_true] at hs
  have := hs r (mem_accessed_of_written hr hw)
  exact ⟨inMem_of_span this (by omega) (by omega), inMem_of_span this (by omega) (by omega)⟩

end Sys2Proof.Machine
end

