-- ==== Sys2Proof/Laws/Turns.lean ====
section
/-! SUPPORT. What the shared operations around `exec` can answer, each said once: `settle`, `mapNext`, `onUnit`, the host's
accesses and operations, the engine transition, and one move of the machine. -/

namespace Sys2Proof.Machine

/-- The next states `settle` gives. -/
theorem settle_next {s t : State} {o : Host.Outcome State Fault Refusal} (h : settle s o = .next t) :
    o = .next t ∨ (o = .fault .stuck ∧ t = s) := by
  cases o with
  | next u => exact .inl h
  | fault f =>
    cases f with
    | stuck => exact .inr ⟨rfl, by simpa [settle] using h.symm⟩
    | marked r => simp [settle] at h
    | hostUnmapped => simp [settle] at h
  | refused r => simp [settle] at h

/-- The next states `mapNext` gives. -/
theorem mapNext_next {f : State → State} {o : Host.Outcome State Fault Refusal} {t : State}
    (h : mapNext f o = .next t) : ∃ u, o = .next u ∧ t = f u := by
  cases o <;> simp [mapNext] at h
  exact ⟨_, rfl, h.symm⟩

/-- The next states a transition of instance `k` gives. -/
theorem onUnit_next {k : Nat} {f : State → Host.Outcome State Fault Refusal} {s t : State}
    (h : onUnit k f s = .next t) :
    f s = .next t ∨ (∃ j u, j < s.peers.length ∧ f (swapUnit j s) = .next u ∧ t = swapUnit j u) ∨ t = s := by
  cases k with
  | zero => exact .inl h
  | succ j =>
    simp only [onUnit] at h
    split at h
    · obtain ⟨u, hu, rfl⟩ := mapNext_next h
      exact .inr (.inl ⟨j, u, ‹_›, hu, rfl⟩)
    · exact .inr (.inr (by simpa using h.symm))

/-- The engine transition of instance 0. -/
theorem engineStep_cases (s : State) :
    (s.core.phase = .idle ∧ engineStep s = .next s) ∨
    (∃ w e, s.core.phase = .busy w ∧ decode w = .error e ∧ engineStep s = .next (finish .illegalCmd s)) ∨
    (∃ w i, s.core.phase = .busy w ∧ decode w = .ok i ∧ engineStep s = settle s (exec i s)) := by
  unfold engineStep
  cases hp : s.core.phase with
  | idle => simp
  | busy w => cases hd : decode w <;> simp [hd]

/-- The instance a register access goes to exists. -/
theorem unitFor_lt {s : State} {addr n k : Nat} (h : unitFor s addr n = some k) : k < (units s).length := by
  unfold unitFor at h
  exact (List.findIdx?_eq_some_iff_findIdx_eq.mp h).1

/-- The next states of raising a model fault. -/
theorem raiseFault_next {r : ModelFault} {s t : State} (h : raiseFault r s = .next t) : s.mark = none ∧ t = withMark r s := by
  unfold raiseFault at h
  split at h
  · exact ⟨‹_›, by simpa using h.symm⟩
  · simp at h

/-- The next states of a host access that is not performed. -/
theorem busStopped_next {s t : State} {e : BusStop} (h : busStopped s e = .next t) :
    ∃ r, e = .raises r ∧ s.mark = none ∧ t = withMark r s := by
  cases e with
  | raises r => exact ⟨r, rfl, raiseFault_next h⟩
  | unmapped => simp [busStopped] at h

/-- The state a host store gives. -/
theorem busStore_ok {s t : State} {addr : Nat} {size : AccessSize} {v : Word}
    (h : busStore s addr size v = .ok t) :
    (∃ k c, k < (units s).length ∧ unitWrite ((units s).getD k s.core) addr size v = .ok c ∧ t = setUnit k c s) ∨
    (unitFor s addr (sizeBytes size) = none ∧ spanInMem s.memMap addr (sizeBytes size) = true
      ∧ t = setMem (memWrite s.mem addr (sizeBytes size) v.toNat) s) := by
  unfold busStore at h
  split at h
  · rename_i k hk
    split at h
    · rename_i c hc
      exact .inl ⟨k, c, unitFor_lt hk, hc, by simpa using h.symm⟩
    · simp at h
  · rename_i hk
    split at h
    · simp at h
    · split at h
      · exact .inr ⟨hk, ‹_›, by simpa using h.symm⟩
      · simp at h

/-- The next states of an instance under a host write. -/
theorem unitWrite_ok {c d : CoreUnit} {addr : Nat} {size : AccessSize} {v : Word}
    (h : unitWrite c addr size v = .ok d) :
    c.phase = .idle ∧ (d = unitStart v c ∨ d = c ∨ ∃ r, r ≠ .res ∧ d = unitSetReg c r v) := by
  have hb : unitBusy c = false → c.phase = .idle := by
    unfold unitBusy; split <;> simp_all
  unfold unitWrite at h
  split at h <;> simp at h
  · exact ⟨hb ‹_›, .inl h.symm⟩
  · exact ⟨hb ‹_›, .inr (.inl h.symm)⟩
  · exact ⟨hb ‹_›, .inr (.inl h.symm)⟩
  · rename_i r hne _ _
    exact ⟨hb ‹_›, .inr (.inr ⟨r, fun hr => hne (by simpa using hr), h.symm⟩)⟩

/-- The next states of a host operation. -/
theorem hostOp_next {op : HostOp} {s t : State} (h : hostOp op s = .next t) :
    (∃ u addr size v, busStore s addr size v = .ok u ∧ t = setHpc (s.hpc + 1) u) ∨
    (∃ i vs addr size, t = setHpc (s.hpc + 1) (setTemp i vs (noteLoad s addr size))) ∨
    (∃ i vs, t = setHpc (s.hpc + 1) (setTemp i vs s)) ∨ (∃ n, t = setHpc n s) ∨
    (∃ r, s.mark = none ∧ t = withMark r s) := by
  cases op with
  | store size addr v =>
    simp only [hostOp] at h
    split at h
    · rename_i u hu
      exact .inl ⟨u, addr, size, _, hu, by simpa using h.symm⟩
    · obtain ⟨r, _, hm, ht⟩ := busStopped_next h
      exact .inr (.inr (.inr (.inr ⟨r, hm, ht⟩)))
  | load size addr i append =>
    simp only [hostOp] at h
    split at h
    · exact .inr (.inl ⟨i, _, addr, size, by simpa using h.symm⟩)
    · obtain ⟨r, _, hm, ht⟩ := busStopped_next h
      exact .inr (.inr (.inr (.inr ⟨r, hm, ht⟩)))
  | set i v => exact .inr (.inr (.inl ⟨i, _, by simpa [hostOp] using h.symm⟩))
  | ifGoto c target => exact .inr (.inr (.inr (.inl ⟨_, by simpa [hostOp] using h.symm⟩)))

/-- The next states of the host's turn. -/
theorem hostTurn_next {s t : State} (h : hostTurn s = .next t) :
    t = s ∨ ∃ op, hostOp op s = .next t := by
  unfold hostTurn at h
  split at h
  · exact .inl (by simpa using h.symm)
  · exact .inr ⟨_, h⟩

/-- The next states of one move of the machine: some agent's turn taken on the state with the turn taken off. -/
theorem advance_next {s t : State} (h : advance s = .next t) :
    ∃ u, takeTurn u (dropTurn s) = .next t ∧ (haltedBy s.mark = none ∨ ∃ k, u = .reset k) := by
  unfold advance at h
  split at h
  · exact ⟨_, h, .inl ‹_›⟩
  · exact ⟨_, h, .inr ⟨_, rfl⟩⟩
  · simp at h
  · simp at h

/-- The next states of one step, agent by agent. -/
theorem step_next {s t : State} (h : step s = .next t) :
    (∃ k, haltedBy s.mark = none ∧ onUnit k engineStep (dropTurn s) = .next t) ∨
    (haltedBy s.mark = none ∧ hostTurn (dropTurn s) = .next t) ∨
    (∃ k, onUnit k (fun u => .next (resetUnit u)) (dropTurn s) = .next t) := by
  obtain ⟨u, hu, hm⟩ := advance_next h
  cases u with
  | engine k => exact .inl ⟨k, by simpa using hm, hu⟩
  | host => exact .inr (.inl ⟨by simpa using hm, hu⟩)
  | reset k => exact .inr (.inr ⟨k, hu⟩)

/-! ### Drawing free bytes (70_reset_and_hazards R191) -/

/-- Drawing bytes changes the memory and the counter only. -/
theorem drawBytes_frame (as : List Nat) (s : State) :
    (drawBytes as s).core = s.core ∧ (drawBytes as s).peers = s.peers ∧ (drawBytes as s).memMap = s.memMap
      ∧ (drawBytes as s).mark = s.mark ∧ (drawBytes as s).sched = s.sched ∧ (drawBytes as s).prog = s.prog
      ∧ (drawBytes as s).hpc = s.hpc ∧ (drawBytes as s).temps = s.temps := by
  induction as generalizing s with
  | nil => simp [drawBytes]
  | cons a as ih =>
    rw [drawBytes]
    split <;> simpa using ih _

/-- Drawing bytes keeps the canonical form. -/
theorem memWf_drawBytes (as : List Nat) {s : State} (h : memWf s.mem = true) : memWf (drawBytes as s).mem = true := by
  induction as generalizing s with
  | nil => exact h
  | cons a as ih =>
    rw [drawBytes]
    split
    · exact ih (memWf_writeByte _ _ h)
    · exact ih h

/-- Drawing bytes lists backed addresses only. -/
theorem all_drawBytes (as : List Nat) {s : State} (h : s.mem.all (fun c => inMem s.memMap c.1) = true) :
    (drawBytes as s).mem.all (fun c => inMem s.memMap c.1) = true := by
  induction as generalizing s with
  | nil => exact h
  | cons a as ih =>
    rw [drawBytes]
    split
    · exact ih (all_writeByte (fun x => inMem s.memMap x) h ‹_›)
    · exact ih h

/-- Drawing bytes leaves every other byte alone. -/
theorem readByte_drawBytes {as : List Nat} {s : State} {c : Nat} (h : c ∉ as) :
    readByte (drawBytes as s).mem c = readByte s.mem c := by
  induction as generalizing s with
  | nil => rfl
  | cons a as ih =>
    simp only [List.mem_cons, not_or] at h
    rw [drawBytes, ih h.2]
    split
    · exact readByte_writeByte_other _ h.1
    · rfl

end Sys2Proof.Machine
end

