-- ==== Sys2Proof/Laws/HostBus.lean ====
section
/-! SUPPORT. The host's register accesses at an assigned offset, whose turn a step takes, and an operation on a peer in
instance 0's place. -/

namespace Sys2Proof.Machine

/-! ### Register accesses -/

/-- An aligned 32-bit access at a register's offset names that register (30_encoding R71). -/
theorem accessedReg_at (c : CoreUnit) (h : c.base % 4 = 0) (r : RegName) :
    accessedReg c (c.base + regOffset r) .word = some r := by
  unfold accessedReg
  have h4 : regOffset r % 4 = 0 := by cases r with | data d => cases d <;> rfl | cmd => rfl | status => rfl
  rw [if_pos ⟨rfl, by omega, by omega⟩, Nat.add_sub_cancel_left]
  cases r with | data d => cases d <;> rfl | cmd => rfl | status => rfl

/-- No register lies at or past offset 0x4C (R71). -/
theorem regAt_of_le {n : Nat} (h : 0x4C ≤ n) : regAt n = none := by
  unfold regAt; split <;> first | omega | rfl

theorem unitBusy_of_idle {c : CoreUnit} (h : c.phase = .idle) : unitBusy c = false := by simp [unitBusy, h]

theorem unitBusy_of_busy {c : CoreUnit} {w : Word} (h : c.phase = .busy w) : unitBusy c = true := by simp [unitBusy, h]

/-! ### Whose turn a step takes -/

theorem step_of_host {s : State} (hm : haltedBy s.mark = none) (hn : nextTurn s = .host) : step s = hostTurn (dropTurn s) := by
  unfold step advance; rw [hm, hn]; rfl

theorem step_of_engine {s : State} {k : Nat} (hm : haltedBy s.mark = none) (hn : nextTurn s = .engine k) :
    step s = onUnit k engineStep (dropTurn s) := by
  unfold step advance; rw [hm, hn]; rfl

theorem step_of_reset {s : State} {k : Nat} (hn : nextTurn s = .reset k) :
    step s = onUnit k (fun u => .next (resetUnit u)) (dropTurn s) := by
  unfold step advance; cases hm : haltedBy s.mark <;> rw [hn] <;> rfl

/-- A step that answers a next state took the turn that was due. -/
theorem takeTurn_of_step {s t : State} (h : step s = .next t) : takeTurn (nextTurn s) (dropTurn s) = .next t := by
  unfold step advance at h
  split at h
  · exact h
  · rename_i h2; rw [h2]; exact h
  · simp at h
  · simp at h

/-! ### A peer in instance 0's place (60_exceptions R185) -/

/-- Exchanging two instances changes neither the shared state nor the number of instances. -/
theorem swapUnit_frame (j : Nat) (s : State) :
    (swapUnit j s).mem = s.mem ∧ (swapUnit j s).memMap = s.memMap ∧ (swapUnit j s).mark = s.mark
      ∧ (swapUnit j s).draws = s.draws ∧ (swapUnit j s).sched = s.sched
      ∧ (swapUnit j s).peers.length = s.peers.length := by
  unfold swapUnit; split <;> simp

/-- What an operation on instance 0 that leaves the peers alone does when a peer stands in instance 0's place. -/
theorem swapUnit_back {s u : State} {j : Nat} {p : CoreUnit} (hp : s.peers[j]? = some p)
    (hu : u.peers = (swapUnit j s).peers) :
    (swapUnit j u).core = s.core ∧ (swapUnit j u).peers = s.peers.set j u.core := by
  have hs : (swapUnit j s).peers = s.peers.set j s.core := by simp [swapUnit, hp]
  rw [hs] at hu
  have hj : j < s.peers.length := by
    rw [List.getElem?_eq_some_iff] at hp; exact hp.1
  have : u.peers[j]? = some s.core := by rw [hu]; simp [hj]
  simp only [swapUnit, this]
  simp [hu]

/-- Marking commutes with exchanging two instances. -/
theorem swapUnit_withMark (j : Nat) (r : ModelFault) (s : State) :
    swapUnit j (withMark r s) = withMark r (swapUnit j s) := by
  cases hp : s.peers[j]? <;> simp [swapUnit, hp, withMark]

/-- The instance that stands in instance 0's place. -/
theorem asCore_core {k : Nat} {s : State} {c : CoreUnit} (h : (units s)[k]? = some c) : (asCore k s).core = c := by
  cases k with
  | zero => simpa [units] using h
  | succ j => have hp : s.peers[j]? = some c := by simpa [units] using h
              simp [swapUnit, hp]

/-- What stands in instance 0's place shares everything but the instances. -/
theorem asCore_frame (k : Nat) (s : State) :
    (asCore k s).mem = s.mem ∧ (asCore k s).memMap = s.memMap ∧ (asCore k s).mark = s.mark
      ∧ (asCore k s).draws = s.draws ∧ (asCore k s).sched = s.sched := by
  cases k with
  | zero => simp
  | succ j => obtain ⟨a, b, c, d, e, _⟩ := swapUnit_frame j s; exact ⟨a, b, c, d, e⟩

/-- A transition of instance `k` that answers a next state and leaves the other instances alone: that instance is then what
instance 0 is after it, and the others are as before. -/
theorem onUnit_of_next {k : Nat} {f : State → Host.Outcome State Fault Refusal} {s u : State} {c : CoreUnit}
    (hc : (units s)[k]? = some c) (hf : f (asCore k s) = .next u) (hp : u.peers = (asCore k s).peers) :
    ∃ t, onUnit k f s = .next t ∧ (units t)[k]? = some u.core ∧ (∀ m, m ≠ k → (units t)[m]? = (units s)[m]?)
      ∧ t.mem = u.mem ∧ t.memMap = u.memMap ∧ t.mark = u.mark ∧ t.draws = u.draws ∧ t.sched = u.sched := by
  cases k with
  | zero =>
    refine ⟨u, hf, by simp [units], fun m hm => ?_, rfl, rfl, rfl, rfl, rfl⟩
    obtain ⟨n, rfl⟩ := Nat.exists_eq_succ_of_ne_zero hm
    simp only [asCore_zero] at hp
    simp [units, hp]
  | succ j =>
    have hj : s.peers[j]? = some c := by simpa [units] using hc
    have hlt : j < s.peers.length := (List.getElem?_eq_some_iff.mp hj).1
    obtain ⟨h1, h2⟩ := swapUnit_back hj hp
    obtain ⟨a, b, c, d, e, _⟩ := swapUnit_frame j u
    refine ⟨swapUnit j u, ?_, ?_, fun m hm => ?_, a, b, c, d, e⟩
    · simp only [asCore_succ] at hf
      simp [onUnit, hlt, hf, mapNext]
    · simp [units, h2, hlt]
    · cases m with
      | zero => simp [units, h1]
      | succ n =>
        have : j ≠ n := fun h => hm (by rw [h])
        simp [units, h2, List.getElem?_set_ne this]

/-- The next states of a peer's transition. -/
theorem onUnit_succ_next {j : Nat} {f : State → Host.Outcome State Fault Refusal} {s t : State}
    (h : onUnit (j + 1) f s = .next t) :
    (∃ p u, s.peers[j]? = some p ∧ f (swapUnit j s) = .next u ∧ t = swapUnit j u) ∨ (s.peers[j]? = none ∧ t = s) := by
  simp only [onUnit] at h
  split at h
  · rename_i hj
    obtain ⟨u, hu, rfl⟩ := mapNext_next h
    exact .inl ⟨s.peers[j], u, by simp [hj], hu, rfl⟩
  · rename_i hj
    exact .inr ⟨by simp; omega, by simpa using h.symm⟩

end Sys2Proof.Machine
end

