-- ==== Sys2Proof/Laws/Operands.lean ====
section
/-! SUPPORT. Operand assembly and the accumulator read as machine words: the integer operations of 00_scope R10 and
30_encoding R76 on one side, BitVec arithmetic on the other. -/

namespace Sys2Proof.Machine

/-! ### Integers and machine words -/

/-- `s_N(v)` is the signed reading of the low N bits of `v`. -/
theorem sN_eq_toInt {n : Nat} (hn : 0 < n) (v : Int) : sN n v = (BitVec.ofInt n v).toInt := by
  rw [BitVec.toInt_ofInt]
  apply eq_of_emod_eq hn (sN_range hn v)
  · obtain ⟨k, rfl⟩ : ∃ k, n = k + 1 := ⟨n - 1, by omega⟩
    have hp : (0 : Int) < 2 ^ k := by positivity
    have h1 := Int.le_bmod (x := v) (m := 2 ^ (k + 1)) (by positivity)
    have h2 := Int.bmod_lt (x := v) (m := 2 ^ (k + 1)) (by positivity)
    have e : (((2 ^ (k + 1) : Nat) : Int)) = 2 * 2 ^ k := by push_cast; ring
    rw [e] at h1 h2
    simp only [Nat.add_sub_cancel]
    constructor <;> omega
  · rw [sN_emod]
    have h3 : ((v.bmod (2 ^ n)) % ((2 ^ n : Nat) : Int)) = v % ((2 ^ n : Nat) : Int) := Int.bmod_emod
    push_cast at h3
    exact h3.symm

/-- Narrowing before taking the low bits changes nothing. -/
theorem ofInt_sN (n : Nat) (hn : 0 < n) (v : Int) : BitVec.ofInt n (sN n v) = BitVec.ofInt n v := by
  rw [sN_eq_toInt hn, BitVec.ofInt_toInt]

/-- `wrap_32` as a register value. -/
theorem toWord_eq_ofInt (v : Int) : toWord v = BitVec.ofInt 32 v := by
  apply BitVec.eq_of_toInt_eq
  have h0 : 0 ≤ wrapN 32 v := Int.emod_nonneg _ (by norm_num)
  rw [toWord, ← BitVec.ofInt_natCast, ← sN_eq_toInt (by omega), ← sN_eq_toInt (by omega), Int.toNat_of_nonneg h0]
  exact sN_congr (by omega) (by simp [wrapN])

/-- An exact product in the low bits. -/
theorem ofInt_prod (n : Nat) (x y : BitVec n) : BitVec.ofInt n (prod x.toInt y.toInt) = x * y := by
  rw [prod, BitVec.ofInt_mul, BitVec.ofInt_toInt, BitVec.ofInt_toInt]

/-! ### Operands -/

theorem signed32_eq_toInt (r : Word) : signed32 r = r.toInt := by
  rw [signed32, sN_eq_toInt (by omega), BitVec.ofInt_natCast]; simp

/-- Lane 0 is bits 15:0, signed (R76). -/
theorem lane0_eq_toInt (n : Nat) (hn : 16 ≤ n) (r : Word) : lane0 r = ((r.extractLsb' 0 16).signExtend n).toInt := by
  rw [lane0, BitVec.toInt_signExtend_of_le hn, sN_eq_toInt (by omega)]
  congr 1
  rw [show ((r.toNat : Int) % 65536) = ((r.toNat % 65536 : Nat) : Int) by norm_cast, BitVec.ofInt_natCast]
  apply BitVec.eq_of_toNat_eq
  simp [BitVec.extractLsb'_toNat]

/-- Lane 1 is bits 31:16, signed (R76). -/
theorem lane1_eq_toInt (n : Nat) (hn : 16 ≤ n) (r : Word) : lane1 r = ((r.extractLsb' 16 16).signExtend n).toInt := by
  rw [lane1, BitVec.toInt_signExtend_of_le hn, sN_eq_toInt (by omega)]
  congr 1
  rw [show ((r.toNat : Int) / 65536) = ((r.toNat / 65536 : Nat) : Int) by norm_cast, BitVec.ofInt_natCast]
  apply BitVec.eq_of_toNat_eq
  simp [BitVec.extractLsb'_toNat, Nat.shiftRight_eq_div_pow]

/-! ### The accumulator -/

@[simp] theorem and_storedBits_accLo (v : Word) : v &&& storedBits .accLo = v := by
  simp [storedBits]; exact BitVec.and_allOnes

@[simp] theorem and_storedBits_accHi (v : Word) : v &&& storedBits .accHi = v := by
  simp [storedBits]; exact BitVec.and_allOnes

@[simp] theorem and_storedBits_res (v : Word) : v &&& storedBits .res = v := by
  simp [storedBits]; exact BitVec.and_allOnes

/-- What a 32-bit path result leaves in the accumulator words (R103, R105). -/
theorem regVal_setAcc32 (v : Int) (s : State) :
    regVal (setAcc32 v s) .accLo = toWord v ∧ regVal (setAcc32 v s) .accHi = toWord (asr v 32) := by
  simp [setAcc32, regVal_setReg]

/-- What a 64-bit path result leaves in the accumulator (R104, R106). -/
theorem setAcc64_words (v : Int) (s : State) :
    (regVal (setAcc64 v s) .accHi ++ regVal (setAcc64 v s) .accLo : BitVec 64) = BitVec.ofInt 64 v := by
  have h0 : 0 ≤ wrapN 64 v := Int.emod_nonneg _ (by norm_num)
  have h1 : wrapN 64 v < 2 ^ 64 := Int.emod_lt_of_pos _ (by norm_num)
  have : BitVec.ofInt 64 v = BitVec.ofNat 64 (wrapN 64 v).toNat := by
    apply BitVec.eq_of_toNat_eq
    simp [BitVec.toNat_ofInt, wrapN]
    omega
  rw [this]
  simp [setAcc64, regVal_setReg]
  apply BitVec.eq_of_toNat_eq
  rw [BitVec.toNat_append]
  simp
  have hn : (wrapN 64 v).toNat < 2 ^ 64 := by omega
  generalize (wrapN 64 v).toNat = n at *
  rw [Nat.shiftLeft_eq, ← Nat.mul_comm, ← Nat.two_pow_add_eq_or_of_lt (by omega)]
  omega

/-- The accumulator operand of the 64-bit path is the signed reading of `{ACC_HI, ACC_LO}` (R27). -/
theorem acc64_eq_toInt (s : State) : acc64 s = (regVal s .accHi ++ regVal s .accLo : BitVec 64).toInt := by
  rw [acc64, sN_eq_toInt (by omega)]
  congr 1
  have : ((regVal s .accHi).toNat : Int) * 2 ^ 32 + ((regVal s .accLo).toNat : Int)
      = (((regVal s .accHi).toNat * 2 ^ 32 + (regVal s .accLo).toNat : Nat) : Int) := by push_cast; ring
  rw [this, BitVec.ofInt_natCast]
  apply BitVec.eq_of_toNat_eq
  rw [BitVec.toNat_append]
  have h1 := (regVal s .accLo).isLt
  have h2 := (regVal s .accHi).isLt
  rw [Nat.shiftLeft_eq, Nat.mul_comm _ (2 ^ 32), ← Nat.two_pow_add_eq_or_of_lt h1]
  simp; omega

end Sys2Proof.Machine
end

