-- ==== Sys2Proof/Laws/PerInstr.lean ====
section
/-! SUPPORT. Laws per command: its word decodes to it, sets no reserved bit, and is the table's word of it (30_encoding
R75, R80). -/

/-- A command is well-formed, its word has zeros in `CMD[31:5]`, and both decoders read the command from its word. -/
def Sys2Proof.Laws.RoundTrip.Statement (i : Sys2Proof.Instr) : Prop :=
  i.wf = true ∧ Sys2Proof.reservedField (Sys2Proof.encode i) = 0
    ∧ Sys2Proof.opField (Sys2Proof.encode i) = Sys2Proof.opcode i
    ∧ Sys2Proof.decode (Sys2Proof.encode i) = .ok i
    ∧ Sys2Proof.decodeTableWord 32 (Sys2Proof.opcode i) = some i

theorem Sys2Proof.Laws.RoundTrip.accClr : Sys2Proof.Laws.RoundTrip.Statement .accClr := by
  unfold Sys2Proof.Laws.RoundTrip.Statement; decide

theorem Sys2Proof.Laws.RoundTrip.macW : Sys2Proof.Laws.RoundTrip.Statement .macW := by
  unfold Sys2Proof.Laws.RoundTrip.Statement; decide

theorem Sys2Proof.Laws.RoundTrip.macD : Sys2Proof.Laws.RoundTrip.Statement .macD := by
  unfold Sys2Proof.Laws.RoundTrip.Statement; decide

theorem Sys2Proof.Laws.RoundTrip.dmacW : Sys2Proof.Laws.RoundTrip.Statement .dmacW := by
  unfold Sys2Proof.Laws.RoundTrip.Statement; decide

theorem Sys2Proof.Laws.RoundTrip.dmacD : Sys2Proof.Laws.RoundTrip.Statement .dmacD := by
  unfold Sys2Proof.Laws.RoundTrip.Statement; decide

theorem Sys2Proof.Laws.RoundTrip.clip : Sys2Proof.Laws.RoundTrip.Statement .clip := by
  unfold Sys2Proof.Laws.RoundTrip.Statement; decide

theorem Sys2Proof.Laws.RoundTrip.rdT : Sys2Proof.Laws.RoundTrip.Statement .rdT := by
  unfold Sys2Proof.Laws.RoundTrip.Statement; decide

theorem Sys2Proof.Laws.RoundTrip.rdS : Sys2Proof.Laws.RoundTrip.Statement .rdS := by
  unfold Sys2Proof.Laws.RoundTrip.Statement; decide

theorem Sys2Proof.Laws.RoundTrip.convF : Sys2Proof.Laws.RoundTrip.Statement .convF := by
  unfold Sys2Proof.Laws.RoundTrip.Statement; decide

theorem Sys2Proof.Laws.RoundTrip.convP : Sys2Proof.Laws.RoundTrip.Statement .convP := by
  unfold Sys2Proof.Laws.RoundTrip.Statement; decide

theorem Sys2Proof.Laws.RoundTrip.matmulF : Sys2Proof.Laws.RoundTrip.Statement .matmulF := by
  unfold Sys2Proof.Laws.RoundTrip.Statement; decide

theorem Sys2Proof.Laws.RoundTrip.matmulC : Sys2Proof.Laws.RoundTrip.Statement .matmulC := by
  unfold Sys2Proof.Laws.RoundTrip.Statement; decide
end

