-- ==== Sys2Proof/Laws/Regions.lean ====
section
/-! SUPPORT. The checks over regions said about bytes, and when the element writes of a phase do not meet (20_memory R56
to R58). -/

namespace Sys2Proof.Machine

/-- Two regions overlap when they share a byte (R58). -/
theorem overlaps_iff_shared (r t : Region) : overlaps r t = true ↔ ∃ a, InRegion r a ∧ InRegion t a := by
  simp only [overlaps, InRegion, Bool.and_eq_true, decide_eq_true_eq]
  constructor
  · rintro ⟨⟨⟨h1, h2⟩, h3⟩, h4⟩
    exact ⟨max r.base t.base, by omega, by omega⟩
  · rintro ⟨a, h1, h2⟩; omega

/-- When a region wraps (R56). -/
theorem wraps_iff_past (r : Region) : wraps r = true ↔ r.size ≠ 0 ∧ 2 ^ 32 < r.base + r.size := by
  rw [wraps, Bool.and_eq_true, decide_eq_true_eq, decide_eq_true_eq]; rfl

/-- Two regions of which one is written and that do not conflict lie apart, or one is empty. -/
theorem apart_of_noConflict {r t : Region} (h : conflict r t = false) (hw : r.written = true ∨ t.written = true) :
    r.size = 0 ∨ t.size = 0 ∨ t.base + t.size ≤ r.base ∨ r.base + r.size ≤ t.base := by
  have : overlaps r t = false := by
    simp only [conflict, Bool.and_eq_false_iff, Bool.or_eq_false_iff] at h
    rcases h with ⟨h1, h2⟩ | h
    · rcases hw with hw | hw <;> simp_all
    · exact h
  simp only [overlaps, Bool.and_eq_false_iff, decide_eq_false_iff_not] at this
  omega

/-- An access outside `MEM`, said about bytes (R51). -/
theorem accessible_false_iff_byte (i : Instr) (s : State) :
    accessible i s = false ↔ ∃ r ∈ accessed i s.core, ∃ a, InRegion r a ∧ inMem s.memMap a = false := by
  simp only [accessible, List.all_eq_false, spanInMem, Bool.not_eq_true]
  constructor
  · rintro ⟨r, hr, k, hk, h⟩
    rw [List.mem_range] at hk
    exact ⟨r, hr, r.base + k, ⟨by omega, by omega⟩, h⟩
  · rintro ⟨r, hr, a, ⟨h1, h2⟩, h⟩
    exact ⟨r, hr, a - r.base, by rw [List.mem_range]; omega, by rw [Nat.add_sub_cancel' h1]; exact h⟩

/-- The bytes of the written regions of a list. -/
theorem mem_writtenBytes (rs : List Region) (a : Nat) :
    a ∈ writtenBytes rs ↔ ∃ r ∈ rs, r.written = true ∧ InRegion r a := by
  simp only [writtenBytes, List.mem_flatMap, List.mem_filter, List.mem_map, List.mem_range, InRegion]
  constructor
  · rintro ⟨r, ⟨h1, h2⟩, k, hk, rfl⟩; exact ⟨r, h1, h2, by omega, by omega⟩
  · rintro ⟨r, h1, h2, h3, h4⟩; exact ⟨r, ⟨h1, h2⟩, a - r.base, by omega, by omega⟩

/-! ### Element writes that do not meet -/

/-- Row-major indices are distinct. -/
theorem index_inj {n j j' k k' : Nat} (hk : k < n) (hk' : k' < n) (h : j * n + k = j' * n + k') : j = j' ∧ k = k' := by
  have h1 : (j * n + k) / n = j := by rw [Nat.mul_comm, Nat.mul_add_div (by omega), Nat.div_eq_of_lt hk]; rfl
  have h2 : (j' * n + k') / n = j' := by rw [Nat.mul_comm, Nat.mul_add_div (by omega), Nat.div_eq_of_lt hk']; rfl
  have : j = j' := by rw [← h1, ← h2, h]
  subst this
  omega

/-- A run of consecutive elements. -/
theorem elemsApart_run (p n : Nat) (f : Nat → Int) :
    ((List.range n).map (fun i => (p + 2 * i, f i))).Pairwise ElemsApart := by
  rw [List.pairwise_map]
  exact List.pairwise_lt_range.imp (fun h => by unfold ElemsApart; dsimp only; omega)

/-- The elements of a real matrix, row by row. -/
theorem elemsApart_rows (p cols r c : Nat) (f : Nat → Nat → Int) (h : c ≤ cols) :
    ((List.range r).flatMap fun i => (List.range c).map fun j => (p + 2 * (i * cols + j), f i j)).Pairwise ElemsApart := by
  rw [List.pairwise_flatMap]
  refine ⟨fun k _ => ?_, ?_⟩
  · rw [List.pairwise_map]
    exact List.pairwise_lt_range.imp (fun h => by unfold ElemsApart; dsimp only; omega)
  · refine List.pairwise_lt_range.imp (fun {a b} h x hx y hy => ?_)
    simp only [List.mem_map, List.mem_range] at hx hy
    obtain ⟨j, _, rfl⟩ := hx
    obtain ⟨j', _, rfl⟩ := hy
    have : a * cols + cols ≤ b * cols := by rw [← Nat.succ_mul]; exact Nat.mul_le_mul_right _ h
    unfold ElemsApart; dsimp only; omega

/-- The elements of a transposition (R152). -/
theorem elemsApart_transpose (m : Memory) (b t br bc : Nat) : (transposeWrites m b t br bc).Pairwise ElemsApart := by
  unfold transposeWrites
  rw [List.pairwise_flatMap]
  refine ⟨fun k hk => ?_, ?_⟩
  · rw [List.pairwise_map]
    refine List.pairwise_lt_range.imp (fun {a c} h => ?_)
    have : a * br + br ≤ c * br := by rw [← Nat.succ_mul]; exact Nat.mul_le_mul_right _ h
    rw [List.mem_range] at hk
    unfold ElemsApart; dsimp only; omega
  · refine (List.Pairwise.and_mem.mp List.pairwise_lt_range).imp ?_
    rintro a c ⟨ha, hc, h⟩ x hx y hy
    simp only [List.mem_map, List.mem_range] at hx hy ha hc
    obtain ⟨j, _, rfl⟩ := hx
    obtain ⟨j', _, rfl⟩ := hy
    have : j * br + a ≠ j' * br + c := fun e => by have := index_inj ha hc e; omega
    unfold ElemsApart; dsimp only; omega

/-- The elements of a complex transposition (R154). -/
theorem elemsApart_transposeC (m : Memory) (b t br bc : Nat) : (transposeWritesC m b t br bc).Pairwise ElemsApart := by
  unfold transposeWritesC
  rw [List.pairwise_flatMap]
  refine ⟨fun k hk => ?_, ?_⟩
  · rw [List.pairwise_flatMap]
    refine ⟨fun j _ => ?_, ?_⟩
    · rw [List.pairwise_map]
      exact List.pairwise_lt_range.imp (fun h => by unfold ElemsApart; dsimp only; omega)
    refine List.pairwise_lt_range.imp (fun {a c} h x hx y hy => ?_)
    simp only [List.mem_map, List.mem_range] at hx hy
    obtain ⟨p, _, rfl⟩ := hx
    obtain ⟨p', _, rfl⟩ := hy
    have : a * br + br ≤ c * br := by rw [← Nat.succ_mul]; exact Nat.mul_le_mul_right _ h
    rw [List.mem_range] at hk
    unfold ElemsApart; dsimp only; omega
  · refine (List.Pairwise.and_mem.mp List.pairwise_lt_range).imp ?_
    rintro a c ⟨ha, hc, h⟩ x hx y hy
    simp only [List.mem_map, List.mem_flatMap, List.mem_range] at hx hy ha hc
    obtain ⟨j, _, p, _, rfl⟩ := hx
    obtain ⟨j', _, p', _, rfl⟩ := hy
    have : j * br + a ≠ j' * br + c := fun e => by have := index_inj ha hc e; omega
    unfold ElemsApart; dsimp only; omega

end Sys2Proof.Machine
end

