-- ==== Sys2Proof/Laws/Sums.lean ====
section
/-! SUPPORT. Sums of products of Q15 elements: lists against finite sums, bounds, and the narrowings inside their exact
range (40_accumulator R101). -/

namespace Sys2Proof.Machine

theorem sum_map_range (f : Nat → Int) (n : Nat) : ((List.range n).map f).sum = ∑ k ∈ Finset.range n, f k := by
  induction n with
  | zero => simp
  | succ n ih => simp [List.range_succ, Finset.sum_range_succ, ih]

theorem sum_map_range' (f : Nat → Int) (a n : Nat) :
    ((List.range' a n).map f).sum = ∑ k ∈ Finset.range n, f (a + k) := by
  rw [List.range'_eq_map_range, List.map_map, ← sum_map_range]; rfl

/-- A product of two elements is at most 2^30 in magnitude (00_scope R14). -/
theorem abs_q_mul_q_le (m : Memory) (a b : Nat) : |q m a * q m b| ≤ 2 ^ 30 := by
  have h1 := q_range m a
  have h2 := q_range m b
  have e1 : |q m a| ≤ 32768 := abs_le.mpr ⟨by omega, by omega⟩
  have e2 : |q m b| ≤ 32768 := abs_le.mpr ⟨by omega, by omega⟩
  rw [abs_mul]
  calc |q m a| * |q m b| ≤ 32768 * 32768 := mul_le_mul e1 e2 (abs_nonneg _) (by norm_num)
    _ = 2 ^ 30 := by norm_num

/-- A sum of bounded terms. -/
theorem abs_sum_le_mul (f : Nat → Int) (n : Nat) (B : Int) (h : ∀ k, |f k| ≤ B) :
    |∑ k ∈ Finset.range n, f k| ≤ n * B := by
  calc _ ≤ ∑ k ∈ Finset.range n, |f k| := Finset.abs_sum_le_sum_abs _ _
    _ ≤ ∑ k ∈ Finset.range n, B := Finset.sum_le_sum (fun k _ => h k)
    _ = n * B := by simp

/-- Wrapping first does not change the truncating narrowing. -/
theorem narrowFast_sN (t : Int) : narrowFast (sN 32 t) = narrowFast t := by
  unfold narrowFast
  rw [sN_of_range (by omega) (sN_range (by omega) t)]

/-- The convolution sum of R131 over the `k` of the loop of R132. -/
theorem exactConv_eq_window (m : Memory) (a b lenA lenB n : Nat) (hA : 1 ≤ lenA) (hB : 1 ≤ lenB) :
    exactConv m a b lenA lenB n
      = ((List.range' (n + 1 - lenB) (min n (lenA - 1) + 1 - (n + 1 - lenB))).map
          (fun k => q m (a + 2 * k) * q m (b + 2 * (n - k)))).sum := by
  rw [sum_map_range', exactConv, ← Finset.sum_filter]
  have : (Finset.range lenA).filter (fun k => k ≤ n ∧ n - k < lenB)
      = Finset.Ico (n + 1 - lenB) (min n (lenA - 1) + 1) := by
    ext k; simp only [Finset.mem_filter, Finset.mem_range, Finset.mem_Ico]; omega
  rw [this, Finset.sum_Ico_eq_sum_range]

end Sys2Proof.Machine
end

