-- ==== Sys2Proof/Machine/HostProgram.lean ====
section
/-! DEFINITION. The host-program operations of 30_encoding R81 and the pseudo-instructions of 30_encoding R82 with their
expansions, for one CORE instance at `base`. -/

namespace Sys2Proof.Machine

/-- `W <REG>, <value>` (R81). -/
def opW (base : Nat) (r : RegName) (v : HostTerm) : HostOp := .store .word (base + regOffset r) v

/-- `R <REG> -> <t>` (R81). -/
def opR (base : Nat) (r : RegName) (t : Nat) : HostOp := .load .word (base + regOffset r) t false

/-- `WH <addr>, <v0>, <v1>, ...` (R81): halfword writes at `addr`, `addr + 2`, ... -/
def opsWH (addr : Nat) : List HostTerm → List HostOp
  | [] => []
  | v :: vs => .store .half addr v :: opsWH (addr + 2) vs

/-- `RH <addr>, <n> -> <t>` (R81): `n` halfword reads collected in one temporary. -/
def opsRH (addr n t : Nat) : List HostOp :=
  .set t (.const []) :: (List.range n).map fun i => .load .half (addr + 2 * i) t true

/-- `CMD <m>` (R82): `W CMD, OP(<m>)`. -/
def pseudoCmd (base : Nat) (i : Instr) : List HostOp := [opW base (.cmd) (.const [(opcode i : Int)])]

/-- `WAIT` (R82) at position `here` of the program: `1: R STATUS -> t` then `if t[0] = 1 goto 1`. -/
def pseudoWait (base t here : Nat) : List HostOp :=
  [opR base .status t, .ifGoto (.eq (.bits t 0 0) (.const [1])) here]

/-- `RUN <m>` (R82) at position `here`: `CMD <m>` then `WAIT`. -/
def pseudoRun (base : Nat) (i : Instr) (t here : Nat) : List HostOp :=
  pseudoCmd base i ++ pseudoWait base t (here + 1)

/-- `CHECK -> e` (R82): `R STATUS -> t`, then `e = t[7:4]`. -/
def pseudoCheck (base t e : Nat) : List HostOp := [opR base .status t, .set e (.bits t 7 4)]

/-- `W.ACC <v>` (R82): `W ACC_LO, wrap_64(v)[31:0]` then `W ACC_HI, wrap_64(v)[63:32]`. DESIGN CHOICE: `<v>` is an integer,
no host temporary (log 18). -/
def pseudoWAcc (base : Nat) (v : Int) : List HostOp :=
  [opW base (.data .accLo) (.const [wrapN 64 v % 2 ^ 32]),
   opW base (.data .accHi) (.const [wrapN 64 v / 2 ^ 32])]

/-- `W.LANES <REG>, <hi>, <lo>` (R82): `W <REG>, {wrap_16(hi), wrap_16(lo)}`. DESIGN CHOICE: `<hi>` and
`<lo>` are integers, no host temporaries (log 18). -/
def pseudoWLanes (base : Nat) (r : RegName) (hi lo : Int) : List HostOp :=
  [opW base r (.const [wrapN 16 hi * 2 ^ 16 + wrapN 16 lo])]

/-- `W.DIM <REG>, <rows>, <cols>` (R82): `W <REG>, {cols[15:0], rows[15:0]}`. DESIGN CHOICE: `<rows>` and
`<cols>` are natural numbers, no host temporaries (log 18). -/
def pseudoWDim (base : Nat) (r : RegName) (rows cols : Nat) : List HostOp :=
  [opW base r (.const [((cols % 2 ^ 16 * 2 ^ 16 + rows % 2 ^ 16 : Nat) : Int)])]

end Sys2Proof.Machine
end

