-- ==== Sys2Proof/Tests/Slice0.lean ====
section
/-! SUPPORT. The model's own tests: well-formedness, decoding, the test vectors of 95_test_vectors (each test names its
row), the host's bus, and a witness of the hypotheses of every statement that has some. -/

namespace Sys2Proof.Tests

open Sys2Proof.Machine

-- One theorem at a time: many evaluations at once would need a thread stack each.
set_option Elab.async false

/-! ### Small states -/

/-- The data registers listed, written. -/
def regsOf (ds : List (DataReg × Word)) : RegFile := ds.foldl (fun f p => regSet f p.1 ⟨p.2, true⟩) .reset

/-- An IDLE machine with registers written and elements stored. -/
def testState (ds : List (DataReg × Word)) (es : List (Nat × Int)) : State :=
  { State.reset with core := { CoreUnit.reset 0 with regs := regsOf ds }, mem := putAll [] es }

/-- The elements of a sequence at an address. -/
def seqAt (p : Nat) (vs : List Int) : List (Nat × Int) := (List.range vs.length).map fun i => (p + 2 * i, vs.getD i 0)

/-- The state with one turn scheduled. -/
def turn (t : Turn) (s : State) : State := { s with sched := [t] }

/-- The next state of an outcome. -/
def after : Host.Outcome State Fault Refusal → Option State
  | .next t => some t
  | .fault _ => none
  | .refused _ => none

/-- The fault of an outcome. -/
def faultOf : Host.Outcome State Fault Refusal → Option Fault
  | .next _ => none
  | .fault r => some r
  | .refused _ => none

/-- The elements found after an outcome. -/
def elems (o : Host.Outcome State Fault Refusal) (p n : Nat) : List Int :=
  match after o with
  | some t => (List.range n).map fun i => q t.mem (p + 2 * i)
  | none => []

/-- STATUS and some data registers after an outcome. -/
def regsAfter (o : Host.Outcome State Fault Refusal) (ds : List DataReg) : List Word :=
  match after o with
  | some t => t.core.status :: ds.map (regVal t)
  | none => []

/-- The mark after an outcome. -/
def markAfter (o : Host.Outcome State Fault Refusal) : Option ModelFault := (after o).bind (·.mark)

/-- Convolution operands: `a` at 0x1000, `b` at 0x1100, `dst` at 0x1200, scratch at 0x1300 and 0x1400. -/
def convState (a b : List Int) : State :=
  testState [(.srcA, 0x1000), (.srcB, 0x1100), (.dst, 0x1200), (.scr1, 0x1300), (.scr2, 0x1400),
    (.lenA, BitVec.ofNat 32 a.length), (.lenB, BitVec.ofNat 32 b.length)] (seqAt 0x1000 a ++ seqAt 0x1100 b)

/-- Matrix operands: `A` at 0x1000, `B` at 0x1100, `dst` at 0x1200, scratch at 0x1300; dimensions as register words. -/
def matState (ad bd dd : Word) (a b : List Int) : State :=
  testState [(.srcA, 0x1000), (.srcB, 0x1100), (.dst, 0x1200), (.scr1, 0x1300), (.aDim, ad), (.bDim, bd), (.dDim, dd)]
    (seqAt 0x1000 a ++ seqAt 0x1100 b)

/-! ### Well-formedness, with an ill-formed term for each check -/

theorem test_wf_base_ok : baseWf 0xFFFFFF00 = true := by decide
theorem test_wf_base_unaligned : baseWf 0x1010 = false := by decide
theorem test_wf_base_outside : baseWf 0x100000000 = false := by decide
theorem test_wf_range_outside : rangeWf ⟨0xFFFFFFFF, 2⟩ = false := by decide
theorem test_wf_range_ok : rangeWf ⟨0xFFFFFFFF, 1⟩ = true := by decide
theorem test_wf_block_in_mem : blockOutside 0x100 ⟨0x1FF, 1⟩ = false := by decide
theorem test_wf_bases_equal : basesDistinct [.reset 0x100, .reset 0x200, .reset 0x100] = false := by decide
theorem test_wf_platform_reset : platformWf State.reset = true := by decide
theorem test_wf_platform_block_in_mem : platformWf { State.reset with memMap := [⟨0xFF, 2⟩] } = false := by decide
theorem test_wf_platform_bad_peer : platformWf { State.reset with peers := [.reset 0x10] } = false := by decide
theorem test_wf_op_store_outside : hostOpWf 1 (.store .word 0xFFFFFFFD (.const [0])) = false := by decide
theorem test_wf_op_load_outside : hostOpWf 1 (.load .half 0xFFFFFFFF 0 false) = false := by decide
theorem test_wf_op_goto_outside : hostOpWf 1 (.ifGoto (.eq (.const [0]) (.const [0])) 2) = false := by decide
theorem test_wf_program_ok : hostProgramWf [.set 0 (.const [1]), .ifGoto (.ne (.temp 0) (.const [0])) 2] = true := by
  decide

/-! ### Decoding: the words of 30_encoding R75 written out bit by bit -/

theorem test_decode_accClr : decode 0b00000000000000000000000000000001#32 = .ok .accClr := by decide
theorem test_decode_macW : decode 0b00000000000000000000000000000010#32 = .ok .macW := by decide
theorem test_decode_macD : decode 0b00000000000000000000000000000011#32 = .ok .macD := by decide
theorem test_decode_dmacW : decode 0b00000000000000000000000000000100#32 = .ok .dmacW := by decide
theorem test_decode_dmacD : decode 0b00000000000000000000000000000101#32 = .ok .dmacD := by decide
theorem test_decode_clip : decode 0b00000000000000000000000000000110#32 = .ok .clip := by decide
theorem test_decode_rdT : decode 0b00000000000000000000000000000111#32 = .ok .rdT := by decide
theorem test_decode_rdS : decode 0b00000000000000000000000000001000#32 = .ok .rdS := by decide
theorem test_decode_convF : decode 0b00000000000000000000000000010000#32 = .ok .convF := by decide
theorem test_decode_convP : decode 0b00000000000000000000000000010001#32 = .ok .convP := by decide
theorem test_decode_matmulF : decode 0b00000000000000000000000000010010#32 = .ok .matmulF := by decide
theorem test_decode_matmulC : decode 0b00000000000000000000000000010011#32 = .ok .matmulC := by decide

/-- V-E1 to V-E6. -/
theorem test_decode_illegal :
    [0x00000000#32, 0x00000009#32, 0x0000000F#32, 0x00000014#32, 0x0000001F#32].map decode
        = List.replicate 5 (.error .unassignedOp)
      ∧ [0x00000022#32, 0x80000002#32].map decode = List.replicate 2 (.error .reservedBits) := by decide

/-! ### The primitive commands (95_test_vectors section 2.1) -/

/-- V-A8: valid from reset, when ACC is unwritten. -/
theorem test_accClr_from_reset : regsAfter (exec .accClr State.reset) [.accLo, .accHi] = [0, 0, 0] := by decide

/-- V-A1: 0x7FFFFFFF + 1 wraps; ACC_HI is not read. -/
theorem test_macW_wraps :
    regsAfter (exec .macW (testState [(.accLo, 0x7FFFFFFF), (.opa, 1), (.opb, 1)] [])) [.accLo, .accHi]
      = [0, 0x80000000, 0xFFFFFFFF] := by decide

/-- V-A1: bits 31:16 are ignored. -/
theorem test_macW_ignores_lane1 :
    regsAfter (exec .macW (testState [(.accLo, 0x64), (.opa, 0x12340005), (.opb, 0xFFFF0003)] [])) [.accLo, .accHi]
      = [0, 0x73, 0] := by decide

/-- V-A2: wraps modulo 2^64. -/
theorem test_macD_wraps :
    regsAfter (exec .macD (testState [(.accLo, 0xFFFFFFFF), (.accHi, 0x7FFFFFFF), (.opa, 0x8000), (.opb, 0x8000)] []))
      [.accLo, .accHi] = [0, 0x3FFFFFFF, 0x80000000] := by decide

/-- V-A2: a negative product. -/
theorem test_macD_negative :
    regsAfter (exec .macD (testState [(.accLo, 0xFFFFFFFB), (.accHi, 0xFFFFFFFF), (.opa, 0x8000), (.opb, 0x7FFF)] []))
      [.accLo, .accHi] = [0, 0xC0007FFB, 0xFFFFFFFF] := by decide

/-- V-A3: the lane sum 2^31 wraps. -/
theorem test_dmacW_wraps :
    regsAfter (exec .dmacW (testState [(.accLo, 0), (.opa, 0x80008000), (.opb, 0x80008000)] [])) [.accLo, .accHi]
      = [0, 0x80000000, 0xFFFFFFFF] := by decide

/-- V-A3: 3 * 5 + 2 * 4. -/
theorem test_dmacW_lanes :
    regsAfter (exec .dmacW (testState [(.accLo, 0), (.opa, 0x00020003), (.opb, 0x00040005)] [])) [.accLo, .accHi]
      = [0, 0x17, 0] := by decide

/-- V-A4: the lane sum 2^31 is held exactly. -/
theorem test_dmacD_exact :
    regsAfter (exec .dmacD (testState [(.accLo, 0), (.accHi, 0), (.opa, 0x80008000), (.opb, 0x80008000)] []))
      [.accLo, .accHi] = [0, 0x80000000, 0] := by decide

/-- V-A4: crossed lanes of different signs. -/
theorem test_dmacD_crossed :
    regsAfter (exec .dmacD (testState [(.accLo, 0), (.accHi, 0), (.opa, 0x7FFF8000), (.opb, 0x80007FFF)] []))
      [.accLo, .accHi] = [0, 0x80010000, 0xFFFFFFFF] := by decide

/-- V-A5: clamped to a signed lower bound. -/
theorem test_clip_low :
    regsAfter (exec .clip (testState [(.opa, 0xFFFF63C0), (.low, 0xFFFF8000), (.high, 0x7FFF)] [])) [.res]
      = [0, 0xFFFF8000] := by decide

/-- V-A5: `lo > hi` gives `hi`. -/
theorem test_clip_empty_range :
    regsAfter (exec .clip (testState [(.opa, 0xFFFFFF9C), (.low, 0xA), (.high, 0)] [])) [.res] = [0, 0] := by decide

/-- V-A6: 2^30 wraps. -/
theorem test_rdT_wraps :
    regsAfter (exec .rdT (testState [(.accLo, 0x40000000)] [])) [.res] = [0, 0xFFFF8000] := by decide

/-- V-A6: the shift rounds toward minus infinity. -/
theorem test_rdT_floor :
    regsAfter (exec .rdT (testState [(.accLo, 0xFFFF7FFF)] [])) [.res] = [0, 0xFFFFFFFE] := by decide

/-- V-A7: 2^30 saturates. -/
theorem test_rdS_saturates :
    regsAfter (exec .rdS (testState [(.accLo, 0x40000000), (.accHi, 0)] [])) [.res] = [0, 0x7FFF] := by decide

/-- V-A7: -2^40 saturates. -/
theorem test_rdS_saturates_low :
    regsAfter (exec .rdS (testState [(.accLo, 0), (.accHi, 0xFFFFFF00)] [])) [.res] = [0, 0xFFFF8000] := by decide

/-! ### The kernel commands (95_test_vectors sections 2.2 and 2.3) -/

/-- V-C1. -/
theorem test_convF_scaled :
    elems (exec .convF (convState [8192, 16384, 24576] [16384, 16384])) 0x1200 4 = [4096, 12288, 20480, 12288] := by
  decide +kernel

/-- V-C3: the 32-bit accumulator wraps. -/
theorem test_convF_wraps :
    elems (exec .convF (convState [-32768, -32768, -32768] [-32768, -32768, -32768])) 0x1200 5
      = [-32768, 0, -32768, 0, -32768] := by decide +kernel

/-- V-C4: the outputs. -/
theorem test_convP_sums :
    elems (exec .convP (convState [1000, -2000, 3000, -4000, 5000] [300, -200, 100])) 0x1200 7
      = [9, -25, 42, -62, 79, -43, 15] := by decide +kernel

/-- V-C6: saturation, and both scratch buffers. -/
theorem test_convP_saturates :
    elems (exec .convP (convState [32767, 32767] [32767, 32767])) 0x1200 3 = [32766, 32767, 32766]
      ∧ elems (exec .convP (convState [32767, 32767] [32767, 32767])) 0x1300 4 = [0, 32767, 32767, 0]
      ∧ elems (exec .convP (convState [32767, 32767] [32767, 32767])) 0x1400 2 = [32767, 32767] := by decide +kernel

/-- V-M1: the outputs and the transposed scratch. -/
theorem test_matmulF_rect :
    elems (exec .matmulF (matState 0x00030002 0x00020003 0x00020002 [1000, 2000, 3000, -4000, 5000, -6000]
        [7000, -8000, 9000, 10000, -11000, 12000])) 0x1200 4 = [-245, 1464, 2532, 305]
      ∧ elems (exec .matmulF (matState 0x00030002 0x00020003 0x00020002 [1000, 2000, 3000, -4000, 5000, -6000]
        [7000, -8000, 9000, 10000, -11000, 12000])) 0x1300 6 = [7000, 9000, -11000, -8000, 10000, 12000] := by
  decide +kernel

/-- V-M2: 2^31 wraps. -/
theorem test_matmulF_wraps :
    elems (exec .matmulF (matState 0x00020001 0x00010002 0x00010001 [-32768, -32768] [-32768, -32768])) 0x1200 1
      = [0] := by decide +kernel

/-- V-M12: a 2x2 complex product. -/
theorem test_matmulC_product :
    elems (exec .matmulC (matState 0x00020002 0x00020002 0x00020002
        [10000, -3000, 2000, 4000, -5000, 6000, 7000, -8000] [12000, 1000, -3000, 2000, 4000, -5000, 6000, 7000]))
        0x1200 8 = [4608, -611, -1221, 2044, -2381, 0, 3082, -824] := by decide +kernel

/-- V-M9: the imaginary sum 2^31 saturates. -/
theorem test_matmulC_saturates :
    elems (exec .matmulC (matState 0x00010001 0x00010001 0x00010001 [-32768, -32768] [-32768, -32768])) 0x1200 2
      = [0, 32767] := by decide +kernel

/-! ### Outcomes and checks (95_test_vectors section 2.4) -/

/-- V-E5: bit 5 set is ILLEGAL_CMD. -/
theorem test_step_illegal :
    regsAfter (step (State.reset.withFetchWord 32 0x22)) [.accLo] = [0x20, 0] := by decide

/-- V-E7: MAC.W just after reset raises UNWRITTEN_REG and has no other outcome (STATUS.BUSY stays); its next transition
runs it on the values the registers hold (log 5). -/
theorem test_step_unwritten :
    after (step (State.reset.withFetchWord 32 2)) = some (withMark .unwrittenReg (startCommand 2 State.reset))
      ∧ regsAfter (step (turn (.engine 0) (withMark .unwrittenReg (startCommand 2 State.reset)))) [.accLo, .accHi] = [0, 0, 0] := by
  decide

/-- Check 2 comes before check 3: CONV.F with an odd SRC_A and the other registers unwritten raises UNWRITTEN_REG. -/
theorem test_unwritten_before_misaligned :
    after (exec .convF (testState [(.srcA, 0x1001)] []))
      = some (withMark .unwrittenReg (testState [(.srcA, 0x1001)] [])) := by decide

/-- The first step after reset answers a next state for every command. -/
theorem test_step_from_reset :
    [Instr.accClr, .macW, .macD, .dmacW, .dmacD, .clip, .rdT, .rdS, .convF, .convP, .matmulF, .matmulC].all
      (fun i => answers (step (State.reset.withFetchWord 32 (opcode i)))) = true := by decide +kernel

/-- Past UNWRITTEN_REG the machine goes on: the next command runs, and the mark stays. -/
theorem test_step_past_unwritten :
    (after (step ((withMark .unwrittenReg State.reset).withFetchWord 32 1))).map
        (fun t => (t.core.status, t.mark, (regGet t.core.regs .accLo).written)) = some (0, some .unwrittenReg, true) := by
  decide

/-- Past any other reason it does not. -/
theorem test_step_past_overlap :
    faultOf (step ((withMark .overlap State.reset).withFetchWord 32 1)) = some (.marked .overlap) := by decide

/-- V-E8: ACC.CLR just after reset is performed by the very next step. -/
theorem test_step_accClr : regsAfter (step (State.reset.withFetchWord 32 1)) [.accLo, .accHi] = [0, 0, 0] := by decide

/-- V-E9: an odd DST with LEN_A = 0 is MISALIGNED. -/
theorem test_misaligned_first :
    regsAfter (exec .convF (testState [(.srcA, 0x1000), (.srcB, 0x1100), (.dst, 0x1001), (.lenA, 0), (.lenB, 1)] [])) []
      = [0x30] := by decide

/-- V-E11: mismatched sizes with DST = SRC_A is SIZE_MISMATCH. -/
theorem test_mismatch_before_overlap :
    regsAfter (exec .matmulF (testState [(.srcA, 0x1000), (.srcB, 0x1100), (.dst, 0x1000), (.scr1, 0x1300),
      (.aDim, 0x00030002), (.bDim, 0x00020002), (.dDim, 0x00020002)] [])) [] = [0x10] := by decide

/-- V-E12. -/
theorem test_zero_length : markAfter (exec .convF (convState [] [1, 2, 3])) = some .zeroLength := by decide +kernel

/-- V-E14: a region one element past the top wraps. -/
theorem test_addr_wrap :
    markAfter (exec .convF (testState [(.srcA, 0x1000), (.srcB, 0x1100), (.dst, 0xFFFFFFFE), (.lenA, 2), (.lenB, 1)] []))
      = some .addrWrap := by decide +kernel

/-- V-E15: a region that ends at 2^32 does not wrap. -/
theorem test_no_wrap_at_top :
    elems (exec .convF (testState [(.srcA, 0x1000), (.srcB, 0x1100), (.dst, 0xFFFFFFFC), (.lenA, 2), (.lenB, 1)]
      (seqAt 0x1000 [2, -2] ++ seqAt 0x1100 [16384]))) 0xFFFFFFFC 2 = [1, -1] := by decide +kernel

/-- V-E17 and V-E18: scratch buffers that overlap, and that meet. -/
theorem test_scratch_overlap :
    markAfter (exec .convP (testState [(.srcA, 0x1000), (.srcB, 0x1010), (.dst, 0x1020), (.scr1, 0x1030), (.scr2, 0x1032),
        (.lenA, 3), (.lenB, 2)] [])) = some .overlap
      ∧ regsAfter (exec .convP (testState [(.srcA, 0x1000), (.srcB, 0x1010), (.dst, 0x1020), (.scr1, 0x1030),
        (.scr2, 0x103A), (.lenA, 3), (.lenB, 2)] [])) [] = [0] := by decide +kernel

/-- A convolution whose `a` is outside MEM. -/
def stuckState : State := testState [(.srcA, 0x10), (.srcB, 0x1100), (.dst, 0x1200), (.lenA, 2), (.lenB, 1)] []

/-- V-E19: `a` outside MEM is stuck, and the step leaves the engine BUSY. -/
theorem test_stuck :
    faultOf (exec .convF stuckState) = some .stuck
      ∧ (after (step (stuckState.withFetchWord 32 0x10))).map (fun t => (t.core.status, t.core.phase))
        = some (1, .busy 0x10) := by decide +kernel

/-! ### The host's bus (95_test_vectors section 2.4) -/

/-- V-E20 and V-E21: only STATUS may be read while BUSY. -/
theorem test_busy_access :
    unitRead (unitStart 1 (.reset 0x100)) 0x118 .word = .error .busyAccess
      ∧ unitWrite (unitStart 1 (.reset 0x100)) 0x100 .word 1 = .error .busyAccess
      ∧ unitRead (unitStart 1 (.reset 0x100)) 0x104 .word = .ok 1 := by decide

/-- V-E22 and V-E23: writes of STATUS and RES are ignored; a read of the unwritten RES raises UNWRITTEN_REG. -/
theorem test_read_only :
    unitWrite (.reset 0x100) 0x104 .word 0xFFFFFFFF = .ok (.reset 0x100)
      ∧ unitWrite (.reset 0x100) 0x120 .word 5 = .ok (.reset 0x100)
      ∧ unitReadsUnwritten (.reset 0x100) 0x120 .word = true
      ∧ markAfter (step { State.reset with prog := [.load .word 0x20 0 false] }) = some .unwrittenReg := by decide

/-- V-E24: LEN_A keeps its low half. -/
theorem test_len_a :
    ((unitWrite (.reset 0x100) 0x138 .word 0x00010003).bind fun c => unitRead c 0x138 .word) = .ok 3 := by decide

/-- V-E25 and V-E26. -/
theorem test_bad_access :
    unitRead (.reset 0x100) 0x14C .word = .error .badRegAccess
      ∧ unitWrite (.reset 0x100) 0x108 .half 1 = .error .badRegAccess := by decide

/-- V-E27 and V-E28: CMD keeps its value; the next start clears ERR. -/
theorem test_restart :
    (after (step (matState 0x00030002 0x00020002 0x00020002 [] [] |>.withFetchWord 32 0x12))).map
        (fun t => (t.core.cmd, t.core.status, (startCommand 1 t).core.status)) = some (0x12, 0x10, 1) := by decide +kernel

/-- V-E29: a host read of a running command's `dst`. -/
theorem test_buffer_access :
    busLoad (startCommand 0x10 (convState [1] [1])) 0x1200 .half = .error (.raises .hostBufferAccess) := by
  decide +kernel

/-- 20_memory R57, 70_reset_and_hazards R196: `dst` is a region of a running convolution whose SRC_A is unwritten. -/
theorem test_buffer_access_unwritten :
    busLoad (startCommand 0x10 (testState [(.srcB, 0x1100), (.dst, 0x1200), (.lenA, 1), (.lenB, 1)] [])) 0x1200 .half
      = .error (.raises .hostBufferAccess) := by
  decide +kernel

/-- A host program: `W CMD, 1` then `R STATUS -> t`; the host starts the command, the engine finishes it, the host reads 0. -/
theorem test_host_program :
    (after (Host.Core.run Sys2Proof.core 3
        { State.reset with prog := [.store .word 0 (.const [1]), .load .word 4 0 false] })).map
        (fun t => (t.core.cmd, t.temps, t.hpc)) = some (1, [[0]], 2) := by decide +kernel

/-- 60_exceptions R185: two running commands whose written regions meet. -/
theorem test_two_instances_overlap :
    markAfter (exec .convF (startCommand 0x10 { convState [1] [1] with
        peers := [unitStart 0x10 { (convState [1] [1]).core with base := 0x100000 }] })) = some .overlap := by decide +kernel

/-- 60_exceptions R185: the same two commands, one of them reset before either finishes. -/
theorem test_reset_of_conflicting_instance :
    markAfter (step (turn (.reset 1) (startCommand 0x10 { convState [1] [1] with
        peers := [unitStart 0x10 { (convState [1] [1]).core with base := 0x100000 }] }))) = some .overlap := by decide +kernel

/-! ### Witnesses: for every statement with hypotheses, a state and operands that meet all of them together, and one for
each of its clauses -/

/-- Every register the primitive commands read, written. -/
def primState : State :=
  testState [(.opa, 0x00020003), (.opb, 0x00040005), (.low, 0xA), (.high, 0), (.accLo, 1), (.accHi, 0)] []

/-- An engine running the command word `w` on `s`, its turn next. -/
def running (w : Word) (s : State) : State := turn (.engine 0) (startCommand w s)

/-- A second instance, at 0x100000, running ACC.CLR. -/
def withPeer (s : State) : State := { s with peers := [unitStart 1 (.reset 0x100000)] }

/-- A host about to store 1 to CMD at BASE 0. -/
def hostStore (s : State) : State := { s with prog := [.store .word 0 (.const [1])], sched := [.host] }

theorem witness_DecodeAndEncodeAgree :
    Instr.wf .convP = true ∧ decode 0x11#32 = .ok .convP ∧ encode .convP = 0x11#32 := by decide

theorem witness_StepRunsTheDecodedCommand_core :
    haltedBy (running 1 State.reset).mark = none ∧ haltedBy (some .unwrittenReg) = none ∧ nextTurn (running 1 State.reset) = .engine 0
      ∧ (running 1 State.reset).core.phase = .busy 1 ∧ decode 1#32 = .ok .accClr := by decide

theorem witness_StepRunsTheDecodedCommand_peer :
    haltedBy (turn (.engine 1) (withPeer State.reset)).mark = none ∧ 0 < (turn (.engine 1) (withPeer State.reset)).peers.length
      ∧ nextTurn (turn (.engine 1) (withPeer State.reset)) = .engine (0 + 1)
      ∧ ((turn (.engine 1) (withPeer State.reset)).peers[0]'(by decide)).phase = .busy 1
      ∧ decode 1#32 = .ok .accClr := by decide

theorem witness_StepRunsTheDecodedCommand_placed :
    haltedBy State.reset.mark = none ∧ decodeTableWord 32 0x13 = some .matmulC := by decide

theorem witness_IllegalCommandChangesStatusOnly :
    (running 0x22 State.reset).core.phase = .busy 0x22 ∧ (0x22#32).extractLsb' 5 27 ≠ 0#27
      ∧ (running 0x1F State.reset).core.phase = .busy 0x1F
      ∧ ((0x1F#32).extractLsb' 0 5).toNat ∉ [0x01, 0x02, 0x03, 0x04, 0x05, 0x06, 0x07, 0x08, 0x10, 0x11, 0x12, 0x13] := by
  decide

/-- The written and the unwritten case of every primitive command. -/
theorem witness_primitives :
    (∀ i ∈ [Instr.macW, .macD, .dmacW, .dmacD, .clip, .rdT, .rdS], unitWritten primState.core (readRegs i) = true)
      ∧ (∀ i ∈ [Instr.macW, .macD, .dmacW, .dmacD, .clip, .rdT, .rdS],
          unitWritten State.reset.core (readRegs i) = false) ∧ State.reset.mark = none
      ∧ (regVal primState .high).toInt < (regVal primState .low).toInt := by decide

theorem witness_PairedMacIsTwoScalarMacs : unitWritten primState.core [.opa, .opb, .accLo, .accHi] = true := by decide

theorem witness_AccumulatorArithmeticLaws :
    [((1 : Int), (2 : Int)), (3, 4)].Perm [(3, 4), (1, 2)]
      ∧ [((-32768 : Int), (32767 : Int))].length ≤ 2 ^ 33 - 1
      ∧ (∀ p ∈ [((-32768 : Int), (32767 : Int))], -32768 ≤ p.1 ∧ p.1 ≤ 32767 ∧ -32768 ≤ p.2 ∧ p.2 ≤ 32767)
      ∧ (-(2 ^ 30) ≤ (-(2 ^ 30) : Int) ∧ (-(2 ^ 30) : Int) < 2 ^ 30)
      ∧ (-(2 ^ 63) ≤ (2 ^ 63 - 1 : Int) ∧ (2 ^ 63 - 1 : Int) < 2 ^ 63) := by
  refine ⟨List.Perm.swap _ _ _, ?_, ?_, ?_, ?_⟩ <;> norm_num

/-- A convolution state on which both commands run. -/
def convWitness : State := convState [8192, 16384, 24576] [16384, 16384]

theorem convWitness_ready : memWf convWitness.mem = true ∧ Ready .convF convWitness ∧ Ready .convP convWitness := by
  unfold Ready; decide +kernel

theorem witness_ConvFStoresTheTruncatedSums :
    memWf convWitness.mem = true ∧ Ready .convF convWitness ∧ 3 < convN (lenAOf convWitness.core) (lenBOf convWitness.core)
      ∧ unitWritten State.reset.core (readRegs .convF) = false ∧ State.reset.mark = none
      ∧ unitWritten (convState [] [1]).core (readRegs .convF) = true ∧ (convState [] [1]).mark = none
      ∧ checks .convF (convState [] [1]) = .raise .zeroLength
      ∧ checks .convF (testState [(.srcA, 1), (.srcB, 0), (.dst, 0), (.lenA, 1), (.lenB, 1)] []) = .ends .misaligned
      ∧ unitWritten stuckState.core (readRegs .convF) = true ∧ checks .convF stuckState = .pass ∧ accessible .convF stuckState = false := by
  unfold Ready; decide +kernel

theorem witness_ConvPStoresTheSaturatedSums :
    memWf convWitness.mem = true ∧ Ready .convP convWitness ∧ 3 < convN (lenAOf convWitness.core) (lenBOf convWitness.core)
      ∧ 0 < min (lenAOf convWitness.core) (lenBOf convWitness.core) - 1
      ∧ unitWritten State.reset.core (readRegs .convP) = false ∧ State.reset.mark = none
      ∧ unitWritten (convState [1, 2] []).core (readRegs .convP) = true ∧ (convState [1, 2] []).mark = none
      ∧ checks .convP (convState [1, 2] []) = .raise .zeroLength
      ∧ checks .convP (testState [(.srcA, 0), (.srcB, 0), (.dst, 0), (.scr1, 0), (.scr2, 1), (.lenA, 1), (.lenB, 1)] [])
        = .ends .misaligned
      ∧ checks .convP { convWitness with memMap := [] } = .pass
      ∧ accessible .convP { convWitness with memMap := [] } = false := by
  unfold Ready; decide +kernel

/-- `convWitness` with the two sequences exchanged. -/
def convSwapped : State :=
  setReg .lenB 3 (setReg .lenA 2 (setReg .srcB 0x1000 (setReg .srcA 0x1100 convWitness)))

theorem witness_ConvolutionCommutes :
    memWf convWitness.mem = true ∧ (∀ i ∈ [Instr.convF, .convP], Ready i convWitness ∧ Ready i convSwapped)
      ∧ convSwapped.mem = convWitness.mem ∧ regVal convSwapped .srcA = regVal convWitness .srcB
      ∧ regVal convSwapped .srcB = regVal convWitness .srcA ∧ regVal convSwapped .lenA = regVal convWitness .lenB
      ∧ regVal convSwapped .lenB = regVal convWitness .lenA ∧ regVal convSwapped .dst = regVal convWitness .dst := by
  unfold Ready; decide +kernel

theorem witness_FastAndPreciseConvolutionAgree :
    memWf convWitness.mem = true ∧ Ready .convF convWitness ∧ Ready .convP convWitness
      ∧ (∀ n < 4, -(2 ^ 30) ≤ exactConv convWitness.mem 0x1000 0x1100 3 2 n
          ∧ exactConv convWitness.mem 0x1000 0x1100 3 2 n < 2 ^ 30)
      ∧ (∀ k < 3, |q convWitness.mem (0x1000 + 2 * k)| ≤ 24576) ∧ (∀ k < 2, |q convWitness.mem (0x1100 + 2 * k)| ≤ 16384)
      ∧ (min 3 2 : Int) * 24576 * 16384 < 2 ^ 30 := by
  unfold Ready; decide +kernel

/-- 95 W4, the operands of the identity kernel. -/
theorem witness_IdentityKernelIsWithinOneLsb :
    (∀ i ∈ [Instr.convF, .convP], Ready i (convState [32767, -32768, 0, -1] [32767]))
      ∧ memWf (convState [32767, -32768, 0, -1] [32767]).mem = true
      ∧ lenBOf (convState [32767, -32768, 0, -1] [32767]).core = 1
      ∧ q (convState [32767, -32768, 0, -1] [32767]).mem 0x1100 = 32767 := by
  unfold Ready; decide +kernel

/-- 95 W5: a sum at the upper boundary and one below the lower. -/
theorem witness_PreciseConvolutionNeverWraps :
    (∀ i ∈ [Instr.convF, .convP], Ready i (convState [-32768] [-32768])) ∧ memWf (convState [-32768] [-32768]).mem = true
      ∧ exactConv (convState [-32768] [-32768]).mem 0x1000 0x1100 1 1 0 = 2 ^ 30
      ∧ Ready .convP (convState [-32768, -32768] [32767, 32767])
      ∧ memWf (convState [-32768, -32768] [32767, 32767]).mem = true
      ∧ exactConv (convState [-32768, -32768] [32767, 32767]).mem 0x1000 0x1100 2 2 1 < -(2 ^ 30) := by
  unfold Ready; decide +kernel

/-- The bound of PreciseAccumulatorIsExact and ComplexAccumulatorsAreExact at its edge. -/
theorem witness_accumulator_length : (65535 : Nat) ≤ 65535 := by decide

/-- 95 W8: a 2x2 product with `A = 0.5 I`. -/
def halfState : State := matState 0x00020002 0x00020002 0x00020002 [16384, 0, 0, 16384] [32767, -32768, 1, -1]

theorem witness_MatmulFStoresTheTruncatedProduct :
    memWf halfState.mem = true ∧ Ready .matmulF halfState ∧ 1 < dRows halfState.core ∧ 1 < dCols halfState.core
      ∧ unitWritten State.reset.core (readRegs .matmulF) = false ∧ State.reset.mark = none
      ∧ unitWritten (setReg .dst 0x1000 halfState).core (readRegs .matmulF) = true ∧ halfState.mark = none
      ∧ checks .matmulF (setReg .dst 0x1000 halfState) = .raise .overlap
      ∧ checks .matmulF (matState 0x00030002 0x00020002 0x00020002 [] []) = .ends .sizeMismatch
      ∧ checks .matmulF { halfState with memMap := [] } = .pass
      ∧ accessible .matmulF { halfState with memMap := [] } = false := by
  unfold Ready; decide +kernel

theorem witness_MatmulCStoresTheSaturatedProduct :
    memWf halfState.mem = true ∧ Ready .matmulC halfState ∧ 1 < dRows halfState.core ∧ 1 < dCols halfState.core
      ∧ unitWritten State.reset.core (readRegs .matmulC) = false ∧ State.reset.mark = none
      ∧ unitWritten (setReg .dst 0x1000 halfState).core (readRegs .matmulC) = true ∧ halfState.mark = none
      ∧ checks .matmulC (setReg .dst 0x1000 halfState) = .raise .overlap
      ∧ checks .matmulC (matState 0x00030002 0x00020002 0x00020002 [] []) = .ends .sizeMismatch
      ∧ checks .matmulC { halfState with memMap := [] } = .pass
      ∧ accessible .matmulC { halfState with memMap := [] } = false := by
  unfold Ready; decide +kernel

theorem witness_HalfIdentityHalvesTheMatrix :
    memWf halfState.mem = true ∧ Ready .matmulF halfState ∧ aRows halfState.core = aCols halfState.core
      ∧ ∀ i < aRows halfState.core, ∀ k < aCols halfState.core,
        q halfState.mem (unitAddr halfState.core .srcA + 2 * (i * aCols halfState.core + k)) = if i = k then 16384 else 0 := by
  unfold Ready; decide +kernel

/-- V-M6 and V-M7, for both commands. -/
theorem witness_EmptyDimensionsAreLegal :
    (∀ i ∈ [Instr.matmulF, .matmulC], Ready i (matState 0x00020000 0x00020002 0x00020000 [] [1, 2, 3, 4])
        ∧ Ready i (matState 0x00000002 0x00020000 0x00020002 [] []))
      ∧ memWf (matState 0x00020000 0x00020002 0x00020000 [] [1, 2, 3, 4]).mem = true
      ∧ memWf (matState 0x00000002 0x00020000 0x00020002 [] []).mem = true
      ∧ aRows (matState 0x00020000 0x00020002 0x00020000 [] [1, 2, 3, 4]).core = 0
      ∧ aCols (matState 0x00000002 0x00020000 0x00020002 [] []).core = 0 := by
  unfold Ready; decide +kernel

/-! One state per clause of FirstCheckThatAppliesDecides. -/

theorem witness_FirstCheck_unwritten :
    State.reset.mark = none ∧ ∃ d ∈ readRegs .macW, (regGet State.reset.core.regs d).written = false := by decide

/-- V-E9: an odd base with a zero length. -/
theorem witness_FirstCheck_odd :
    ¬ (∃ d ∈ readRegs .convF, (regGet (setReg .dst 0x1201 (convState [] [1])).core.regs d).written = false)
      ∧ ∃ d ∈ baseRegs .convF, unitAddr (setReg .dst 0x1201 (convState [] [1])).core d % 2 = 1 := by decide +kernel

/-- V-M14. -/
theorem witness_FirstCheck_mismatch :
    ¬ (∃ d ∈ readRegs .matmulF,
        (regGet (matState 0x00020002 0x00020002 0x00030002 [] []).core.regs d).written = false)
      ∧ ¬ (∃ d ∈ baseRegs .matmulF, unitAddr (matState 0x00020002 0x00020002 0x00030002 [] []).core d % 2 = 1)
      ∧ bCols (matState 0x00020002 0x00020002 0x00030002 [] []).core
        ≠ dCols (matState 0x00020002 0x00020002 0x00030002 [] []).core := by decide +kernel

/-- V-E13. -/
theorem witness_FirstCheck_zero :
    (convState [1, 2] []).mark = none ∧ ¬ (∃ d ∈ readRegs .convP, (regGet (convState [1, 2] []).core.regs d).written = false)
      ∧ ¬ (∃ d ∈ baseRegs .convP, unitAddr (convState [1, 2] []).core d % 2 = 1)
      ∧ lenBOf (convState [1, 2] []).core = 0 := by decide +kernel

/-- V-E14. -/
theorem witness_FirstCheck_wrapped :
    (setReg .dst 0xFFFFFFFE (convState [1, 2] [1])).mark = none
      ∧ ¬ (∃ d ∈ readRegs .convF, (regGet (setReg .dst 0xFFFFFFFE (convState [1, 2] [1])).core.regs d).written = false)
      ∧ ¬ (∃ d ∈ baseRegs .convF, unitAddr (setReg .dst 0xFFFFFFFE (convState [1, 2] [1])).core d % 2 = 1)
      ∧ lenAOf (setReg .dst 0xFFFFFFFE (convState [1, 2] [1])).core ≠ 0
      ∧ lenBOf (setReg .dst 0xFFFFFFFE (convState [1, 2] [1])).core ≠ 0
      ∧ ∃ r ∈ regions .convF (setReg .dst 0xFFFFFFFE (convState [1, 2] [1])).core, r.size ≠ 0 ∧ 2 ^ 32 < r.base + r.size := by
  decide +kernel

/-- V-E16: `dst` is region 2, `a` region 0, and they share the byte 0x1000. -/
theorem witness_FirstCheck_overlapping :
    (setReg .dst 0x1000 (convState [1, 2] [1])).mark = none
      ∧ ¬ (∃ d ∈ readRegs .convF, (regGet (setReg .dst 0x1000 (convState [1, 2] [1])).core.regs d).written = false)
      ∧ ¬ (∃ d ∈ baseRegs .convF, unitAddr (setReg .dst 0x1000 (convState [1, 2] [1])).core d % 2 = 1)
      ∧ lenAOf (setReg .dst 0x1000 (convState [1, 2] [1])).core ≠ 0
      ∧ lenBOf (setReg .dst 0x1000 (convState [1, 2] [1])).core ≠ 0
      ∧ ¬ (∃ r ∈ regions .convF (setReg .dst 0x1000 (convState [1, 2] [1])).core, r.size ≠ 0 ∧ 2 ^ 32 < r.base + r.size)
      ∧ (regions .convF (setReg .dst 0x1000 (convState [1, 2] [1])).core).map (fun r => (r.base, r.size, r.written))
        = [(0x1000, 4, false), (0x1100, 2, false), (0x1000, 4, true)] := by decide +kernel

/-- V-E19: the checks pass and byte 0x10 of `a` is not in MEM. -/
theorem witness_FirstCheck_outside :
    unitWritten stuckState.core (readRegs .convF) = true ∧ checks .convF stuckState = .pass ∧ (⟨0x10, 4, false⟩ : Region) ∈ accessed .convF stuckState.core
      ∧ inMem stuckState.memMap 0x10 = false := by decide +kernel

/-- Every check passes. -/
theorem witness_FirstCheck_ok : Ready .convP convWitness := convWitness_ready.2.2

/-- With ILLEGAL_CMD; with MISALIGNED; and with MISALIGNED past the mark of unwritten registers. -/
theorem witness_FailedCommandChangesNothing :
    (running 0 State.reset).core.phase = .busy 0
      ∧ engineStep (running 0 State.reset) = .next (finish .illegalCmd (running 0 State.reset))
      ∧ (finish .illegalCmd (running 0 State.reset)).core.phase = .idle
      ∧ statusErr (finish .illegalCmd (running 0 State.reset)).core.status ≠ 0 := by
  refine ⟨rfl, rfl, rfl, by decide⟩

theorem witness_FailedCommandChangesNothing_misaligned :
    ∀ s ∈ [running 0x10 (setReg .srcA 0x1001 (convState [1, 2] [1])),
        running 0x10 (withMark .unwrittenReg (testState [(.srcA, 0x1001)] []))],
      s.core.phase = .busy 0x10 ∧ after (engineStep s) = some (finish .misaligned s)
        ∧ (finish .misaligned s).core.phase = .idle ∧ statusErr (finish .misaligned s).core.status ≠ 0 := by decide +kernel

theorem witness_CommandsWriteOnlyTheirOutputs :
    answers (exec .convF convWitness) = true ∧ (⟨0x1000, 6, false⟩ : Region) ∈ regions .convF convWitness.core := by
  decide +kernel

theorem witness_CommandsWriteOnlyTheirRegisters :
    answers (exec .rdS primState) = true ∧ answers (exec .rdS (withMark .unwrittenReg primState)) = true ∧ answers (exec .convF convWitness) = true := by decide +kernel

theorem witness_CmdWriteStartsTheCommand :
    (CoreUnit.reset 0x100).base % 4 = 0 ∧ (CoreUnit.reset 0x100).phase = .idle
      ∧ (unitStart 1 (.reset 0x100)).base % 4 = 0 ∧ (unitStart 1 (.reset 0x100)).phase = .busy 1 := by decide

theorem witness_CmdWriteStartsTheCommand_host :
    haltedBy (hostStore State.reset).mark = none ∧ (hostStore (startCommand 1 State.reset)).mark = none ∧ nextTurn (hostStore State.reset) = .host
      ∧ (hostStore State.reset).prog[(hostStore State.reset).hpc]?
        = some (.store .word (hostStore State.reset).core.base (.const [1]))
      ∧ unitWrite (hostStore State.reset).core 0 .word 1 = .ok (unitStart 1 (.reset 0))
      ∧ nextTurn (hostStore (startCommand 1 State.reset)) = .host
      ∧ unitWrite (hostStore (startCommand 1 State.reset)).core 0 .word 1 = .error .busyAccess := by decide

theorem witness_RegisterWritesReadBack :
    (CoreUnit.reset 0x100).phase = .idle ∧ (CoreUnit.reset 0x100).base % 4 = 0 ∧ DataReg.lenA ≠ .res
      ∧ (regGet (CoreUnit.reset 0x100).regs .res).written = false
      ∧ (regGet (unitSetReg (.reset 0x100) .res 7).regs .res).written = true := by decide

theorem witness_BusyRegisterAccessFaults :
    (unitStart 1 (.reset 0x100)).phase = .busy 1 ∧ (unitStart 1 (.reset 0x100)).base % 4 = 0
      ∧ RegName.data .accLo ≠ .status := by decide

theorem witness_MalformedRegisterAccessFaults :
    (CoreUnit.reset 0x100).phase = .idle ∧ AccessSize.half ≠ .word ∧ 0x102 % 4 ≠ 0
      ∧ (CoreUnit.reset 0x100).base + 0x4C ≤ 0x14C := by decide

theorem witness_HostBufferAccessFaults :
    unitFor (startCommand 0x10 convWitness) 0x1206 (sizeBytes .half) = none
      ∧ (⟨0x1200, 8, true⟩ : Region) ∈ runningRegions (startCommand 0x10 convWitness).core
      ∧ unitFor (startCommand 0x10 convWitness) 0x1208 (sizeBytes .half) = none
      ∧ (∀ c ∈ units (startCommand 0x10 convWitness), ∀ r ∈ runningRegions c,
          ¬ (r.base < 0x1208 + 2 ∧ 0x1208 < r.base + r.size))
      ∧ inMem (startCommand 0x10 convWitness).memMap 0x1208 = true
      ∧ inMem (startCommand 0x10 convWitness).memMap 0x1209 = true := by decide +kernel

theorem witness_ElementsAreLittleEndian : memWf [] = true ∧ memWf convWitness.mem = true := by decide +kernel

/-- An IDLE instance 0 and a BUSY peer, each on its reset turn. -/
theorem witness_ResetInitialisesTheInstance :
    (units (turn (.reset 0) primState))[0]? = some primState.core ∧ nextTurn (turn (.reset 0) primState) = .reset 0
      ∧ primState.core.phase = .idle
      ∧ (units (turn (.reset 1) (withPeer State.reset)))[1]? = some (unitStart 1 (.reset 0x100000))
      ∧ nextTurn (turn (.reset 1) (withPeer State.reset)) = .reset 1
      ∧ unitWrite primState.core 4 .word 0 = .ok primState.core
      ∧ (regGet primState.core.regs .opa).written = true := by decide

/-- Two written backed bytes of one reset. -/
theorem witness_ResetWhileBusyFreesTheOutputs :
    (units (turn (.reset 0) (startCommand 0x10 convWitness)))[0]? = some (startCommand 0x10 convWitness).core
      ∧ nextTurn (turn (.reset 0) (startCommand 0x10 convWitness)) = .reset 0
      ∧ (startCommand 0x10 convWitness).core.phase = .busy 0x10
      ∧ memWf (turn (.reset 0) (startCommand 0x10 convWitness)).mem = true
      ∧ (⟨0x1200, 8, true⟩ : Region) ∈ runningRegions (startCommand 0x10 convWitness).core
      ∧ inMem (turn (.reset 0) (startCommand 0x10 convWitness)).memMap 0x1200 = true
      ∧ inMem (turn (.reset 0) (startCommand 0x10 convWitness)).memMap 0x1207 = true := by decide +kernel

/-- The same reset of a peer. -/
theorem witness_ResetWhileBusyFreesTheOutputs_peer :
    (units (turn (.reset 1) { State.reset with peers := [(startCommand 0x10 convWitness).core] }))[1]?
        = some (startCommand 0x10 convWitness).core
      ∧ nextTurn (turn (.reset 1) { State.reset with peers := [(startCommand 0x10 convWitness).core] }) = .reset 1
      ∧ memWf (turn (.reset 1) { State.reset with peers := [(startCommand 0x10 convWitness).core] }).mem = true := by
  decide +kernel

/-- The engine clauses: a written command that a check faults, and one that reads unwritten registers, on a peer's turn. -/
theorem witness_ModelFaultMarksForGood_engine :
    (running 0x10 (convState [] [1])).mark = none ∧ nextTurn (running 0x10 (convState [] [1])) = .engine 0
      ∧ (units (running 0x10 (convState [] [1])))[0]? = some (running 0x10 (convState [] [1])).core
      ∧ (running 0x10 (convState [] [1])).core.phase = .busy 0x10 ∧ decode 0x10#32 = .ok .convF
      ∧ unitWritten (running 0x10 (convState [] [1])).core (readRegs .convF) = true
      ∧ checks .convF (asCore 0 (running 0x10 (convState [] [1]))) = .raise .zeroLength
      ∧ (turn (.engine 1) { State.reset with peers := [unitStart 2 (.reset 0x100000)] }).mark = none
      ∧ (units (turn (.engine 1) { State.reset with peers := [unitStart 2 (.reset 0x100000)] }))[1]?
        = some (unitStart 2 (.reset 0x100000))
      ∧ decode 2#32 = .ok .macW ∧ unitWritten (unitStart 2 (.reset 0x100000)) (readRegs .macW) = false := by decide +kernel

/-- The host's clauses: a store and a load that raise, and a load of an unwritten register. -/
theorem witness_ModelFaultMarksForGood_host :
    haltedBy (hostStore (startCommand 1 State.reset)).mark = none
      ∧ nextTurn (hostStore (startCommand 1 State.reset)) = .host
      ∧ busStore (dropTurn (hostStore (startCommand 1 State.reset))) 0 .word 1 = .error (.raises .busyAccess)
      ∧ nextTurn (turn .host { State.reset with prog := [.load .half 0 0 false] }) = .host
      ∧ busLoad State.reset 0 .half = .error (.raises .badRegAccess)
      ∧ busLoad State.reset 0x20 .word = .ok 0 ∧ unitFor State.reset 0x20 (sizeBytes .word) = some 0
      ∧ (units State.reset)[0]? = some (.reset 0) ∧ (CoreUnit.reset 0).phase = .idle ∧ (CoreUnit.reset 0).base % 4 = 0
      ∧ 0x20 = (CoreUnit.reset 0).base + regOffset (.data .res)
      ∧ unitFor State.reset 0x1000 (sizeBytes .word) = none ∧ busLoad State.reset 0x1000 .word = .ok 0 := by decide +kernel

theorem witness_ModelFaultMarksForGood_kept :
    answers (step (turn (.reset 0) (withMark .overlap State.reset))) = true
      ∧ (withMark .overlap State.reset).mark = some .overlap ∧ ModelFault.overlap ≠ .unwrittenReg
      ∧ nextTurn (withMark .overlap State.reset) = .host := by decide

/-- The reset machine with every register written with the 0 it holds. -/
def zeroState : State :=
  testState [(.opa, 0), (.opb, 0), (.low, 0), (.high, 0), (.accLo, 0), (.accHi, 0), (.res, 0), (.srcA, 0), (.srcB, 0), (.dst, 0),
    (.scr1, 0), (.scr2, 0), (.lenA, 0), (.lenB, 0), (.aDim, 0), (.bDim, 0), (.dDim, 0)] []

theorem witness_UnwrittenRegistersHoldValues :
    checks .macW (withMark .unwrittenReg State.reset) = .pass ∧ State.reset.mark = none ∧ accessible .macW State.reset = true
      ∧ unitWritten State.reset.core (readRegs .macW) = false
      ∧ (∀ d : DataReg, regVal zeroState d = regVal State.reset d)
      ∧ (∀ d : DataReg, (regGet zeroState.core.regs d).written = true)
      ∧ zeroState.core.status = State.reset.core.status ∧ zeroState.peers = State.reset.peers
      ∧ zeroState.mem = State.reset.mem ∧ zeroState.memMap = State.reset.memMap := by
  refine ⟨by decide, by decide, by decide, by decide, fun d => ?_, fun d => ?_, by decide, by decide, by decide, by decide⟩ <;>
    cases d <;> decide

theorem witness_StuckEngineStaysBusy :
    haltedBy (running 0x10 stuckState).mark = none
      ∧ (units (running 0x10 stuckState))[0]? = some (running 0x10 stuckState).core
      ∧ (running 0x10 stuckState).core.phase = .busy 0x10 ∧ decode 0x10#32 = .ok .convF
      ∧ checks .convF (asCore 0 (running 0x10 stuckState)) = .pass
      ∧ (⟨0x10, 4, false⟩ : Region) ∈ accessed .convF (running 0x10 stuckState).core
      ∧ inMem (running 0x10 stuckState).memMap 0x10 = false ∧ nextTurn (running 0x10 stuckState) = .engine 0
      ∧ (running 0x10 stuckState).core.base % 4 = 0 ∧ statusBusy (running 0x10 stuckState).core.status = true
      ∧ unitFor (running 0x10 stuckState) (0 + regOffset .status) (sizeBytes .word) = some 0 := by decide +kernel

theorem witness_UnscheduledEngineFinishes :
    (withPeer State.reset).mark = none ∧ (withPeer State.reset).sched = []
      ∧ (units (withPeer State.reset))[1]? = some (unitStart 1 (.reset 0x100000))
      ∧ (unitStart 1 (.reset 0x100000)).phase = .busy 1 ∧ decode 1#32 = .ok .accClr
      ∧ checks .accClr (asCore 1 (withPeer State.reset)) = .pass
      ∧ accessible .accClr (asCore 1 (withPeer State.reset)) = true := by decide

theorem witness_BusyInstanceIsFrozen :
    (units (turn .host (withPeer State.reset)))[1]? = some (unitStart 1 (.reset 0x100000))
      ∧ (unitStart 1 (.reset 0x100000)).phase = .busy 1
      ∧ nextTurn (turn .host (withPeer State.reset)) ≠ .engine 1
      ∧ nextTurn (turn .host (withPeer State.reset)) ≠ .reset 1
      ∧ answers (step (turn .host (withPeer State.reset))) = true := by decide

theorem witness_InstancesShareOnlyMemory :
    nextTurn (running 1 (withPeer State.reset)) = .engine 0 ∧ answers (step (running 1 (withPeer State.reset))) = true
      ∧ nextTurn (turn (.reset 0) (withPeer State.reset)) = .reset 0
      ∧ answers (step (turn (.reset 0) (withPeer State.reset))) = true
      ∧ nextTurn (turn (.engine 1) (withPeer State.reset)) = .engine (0 + 1)
      ∧ answers (step (turn (.engine 1) (withPeer State.reset))) = true
      ∧ nextTurn (turn (.reset 1) (withPeer State.reset)) = .reset (0 + 1)
      ∧ answers (step (turn (.reset 1) (withPeer State.reset))) = true := by decide

theorem witness_ParametersNeverChange : answers (step (hostStore (withPeer State.reset))) = true := by decide

theorem witness_StepKeepsTheInvariant :
    stateInv (running 0x10 convWitness) = true ∧ answers (step (running 0x10 convWitness)) = true := by decide +kernel

end Sys2Proof.Tests
end

section
/-! SUPPORT. The memory frame of the commands (20_memory R58, R59): an input region of a command whose checks pass shares
no byte with its written regions, so the frame over the written regions covers the input regions too. -/

namespace Sys2Proof.Machine

/-- Conflict of two regions does not depend on their order (R58). -/
theorem conflict_comm (r t : Region) : conflict r t = conflict t r := by
  have ho : overlaps r t = overlaps t r := by
    rw [Bool.eq_iff_iff, overlaps_iff_shared, overlaps_iff_shared]
    simp only [and_comm]
  rw [conflict, conflict, ho, Bool.or_comm]

/-- A list without a self-conflict is one whose regions pairwise do not conflict. -/
theorem selfConflict_false_iff_pairwise (rs : List Region) :
    selfConflict rs = false ↔ rs.Pairwise (fun r t => conflict r t = false) := by
  induction rs with
  | nil => simp [selfConflict]
  | cons r rs ih => simp [selfConflict, ih]

/-- In a list without a self-conflict, the bytes of a read-only region lie in no written region (R58). -/
theorem outsideWritten_of_readOnly {rs : List Region} {r : Region} {a : Nat} (hc : selfConflict rs = false)
    (hr : r ∈ rs) (hro : r.written = false) (ha : InRegion r a) : OutsideWritten rs a := by
  intro t ht hw hta
  have hne : r ≠ t := fun h => by simp [← h, hro] at hw
  have hrt : conflict r t = false :=
    have : Std.Symm (fun r t => conflict r t = false) := ⟨fun x y h => by rwa [conflict_comm]⟩
    ((selfConflict_false_iff_pairwise rs).mp hc).forall hr ht hne
  have hshared : overlaps r t = true := (overlaps_iff_shared r t).mpr ⟨a, ha, hta⟩
  simp [conflict, hw, hshared] at hrt

/-- A next state of a command either keeps the memory, or comes of a command whose checks passed and keeps every byte
outside its written regions (R59, R174, R175). -/
theorem exec_mem_cases {i : Instr} {s t : State} (h : exec i s = .next t) :
    t.mem = s.mem ∨ (checks i s = .pass ∧ BytesSameOutside i s t) := by
  rcases exec_next_cases h with ⟨hc, _, rfl⟩ | ⟨code, _, rfl⟩ | ⟨r, _, _, rfl⟩
  · exact .inr ⟨hc, effectOf_bytes hc⟩
  · exact .inl (finish_mem code s)
  · exact .inl (withMark_mem r s)

/-- Settles O30: a command that a check ends keeps the memory; one whose checks pass writes in its written regions only, and
check 7 has kept these apart from its input regions. -/
theorem commandsWriteOnlyTheirOutputs : Obligations.CommandsWriteOnlyTheirOutputs := by
  intro i s t h
  rcases exec_mem_cases h with hmem | ⟨hpass, hframe⟩
  · exact ⟨fun a _ => by rw [hmem], fun _ _ _ a _ => by rw [hmem]⟩
  · obtain ⟨_, _, _, _, _, hself, _⟩ := (checks_pass_iff i s).mp hpass
    exact ⟨hframe, fun r hr hro a ha => hframe a (outsideWritten_of_readOnly hself hr hro ha)⟩

end Sys2Proof.Machine
end

section
/-! SUPPORT. The opcode map on every 32-bit word (30_encoding R75, R78, R80): a word decodes to a command exactly when it is
the command's word, and the words no command has are the illegal ones. -/

namespace Sys2Proof.Machine

/-! ### The two fields of the command word -/

theorem reservedField_eq_zero_iff (w : Word) : reservedField w = 0 ↔ w.extractLsb' 5 27 = 0#27 := by
  have hw := w.isLt
  rw [← BitVec.toNat_inj, reservedField]
  simp only [BitVec.extractLsb'_toNat, BitVec.toNat_ofNat, Nat.shiftRight_eq_div_pow]
  omega

theorem opField_eq_extract (w : Word) : opField w = (w.extractLsb' 0 5).toNat := by
  simp [opField]

theorem opcode_lt (i : Instr) : opcode i < 32 := by
  cases i <;> decide

/-- The word of a command has its OP value in bits 4:0 and zeros above, and no other word has (R75). -/
theorem fields_eq_iff_encode (w : Word) (i : Instr) : reservedField w = 0 ∧ opField w = opcode i ↔ w = encode i := by
  have hi := opcode_lt i
  rw [← BitVec.toNat_inj, encode, BitVec.toNat_ofNat, reservedField, opField]
  omega

/-! ### Decoding -/

theorem decodeOp_ok_iff (n : Nat) (i : Instr) : decodeOp n = .ok i ↔ n = opcode i := by
  constructor
  · intro h
    unfold decodeOp at h
    split at h <;> cases h <;> rfl
  · rintro rfl
    cases i <;> rfl

theorem decodeOp_error_iff (n : Nat) :
    (∃ e, decodeOp n = .error e) ↔
      n ∉ [0x01, 0x02, 0x03, 0x04, 0x05, 0x06, 0x07, 0x08, 0x10, 0x11, 0x12, 0x13] := by
  unfold decodeOp
  split
  case h_13 =>
    exact iff_of_true ⟨_, rfl⟩ (by simp_all)
  all_goals simp

/-- A word decodes to a command exactly when it is the command's word (R80). -/
theorem decode_ok_iff (w : Word) (i : Instr) : decode w = .ok i ↔ w = encode i := by
  rw [← fields_eq_iff_encode, ← decodeOp_ok_iff, decode]
  split <;> simp [*]

/-- The illegal words (R78). -/
theorem decode_error_iff (w : Word) :
    (∃ e, decode w = .error e) ↔
      w.extractLsb' 5 27 ≠ 0#27
        ∨ (w.extractLsb' 0 5).toNat ∉ [0x01, 0x02, 0x03, 0x04, 0x05, 0x06, 0x07, 0x08, 0x10, 0x11, 0x12, 0x13] := by
  rw [← opField_eq_extract, ← decodeOp_error_iff, ne_eq, ← reservedField_eq_zero_iff, decode]
  split <;> simp [*]

/-- Settles O2: the twelve words are the encoder's words of the twelve commands, and the words refused are those no command
has. -/
theorem decodeIsTheOpcodeMap : Obligations.DecodeIsTheOpcodeMap := fun w =>
  ⟨decode_ok_iff w .accClr, decode_ok_iff w .macW, decode_ok_iff w .macD, decode_ok_iff w .dmacW, decode_ok_iff w .dmacD,
    decode_ok_iff w .clip, decode_ok_iff w .rdT, decode_ok_iff w .rdS, decode_ok_iff w .convF, decode_ok_iff w .convP,
    decode_ok_iff w .matmulF, decode_ok_iff w .matmulC, decode_error_iff w⟩

/-! ### The engine on an illegal word -/

/-- Finishing a command with a code changes STATUS and the phase of its instance and nothing else (R172). -/
theorem endedWith_finish (code : CompletionCode) (s : State) : EndedWith code s (finish code s) :=
  ⟨finished_finish code rfl rfl rfl, fun _ _ => rfl, ⟨rfl, rfl, rfl, rfl, rfl, rfl, rfl, rfl⟩, fun _ => rfl⟩

theorem engineStep_of_decode_error {s : State} {w : Word} {e : DecodeError} (hp : s.core.phase = .busy w)
    (hd : decode w = .error e) : engineStep s = .next (finish .illegalCmd s) := by
  simp [engineStep, hp, hd]

/-- Settles O5: decoding refuses an illegal word, and the engine then does `finish(ILLEGAL_CMD)` and nothing more. -/
theorem illegalCommandChangesStatusOnly : Obligations.IllegalCommandChangesStatusOnly := by
  intro s w hp hw
  obtain ⟨e, hd⟩ := (decode_error_iff w).mpr hw
  exact ⟨finish .illegalCmd s, engineStep_of_decode_error hp hd, endedWith_finish .illegalCmd s⟩

end Sys2Proof.Machine
end

section
/-! SUPPORT. The primitive commands (40_accumulator R102 to R109): each completes from every state in which the registers it
reads are written and changes only those it writes (R100), and the values of its rule as machine words. -/

namespace Sys2Proof.Machine

/-! ### The completion of a primitive command -/

/-- A rule of a command without regions leaves every byte of memory alone. -/
theorem bytesSame_effectOf {i : Instr} {s : State} (hr : regions i s.core = []) (hc : checks i s = .pass) :
    BytesSame s (effectOf i s) :=
  fun a => effectOf_bytes hc a (by simp [OutsideWritten, hr])

/-- A primitive command whose registers are written completes, and its next state is its rule's, finished. -/
theorem completedPrimitive_of_written {i : Instr} {s : State} (hr : regions i s.core = []) (hb : baseRegs i = [])
    (hw : unitWritten s.core (readRegs i) = true) :
    exec i s = .next (finish .ok (effectOf i s))
      ∧ CompletedPrimitive (writtenRegs i) s (finish .ok (effectOf i s)) := by
  obtain ⟨hpass, haccess⟩ := pass_primitive hr hb (readsUnwritten_of_written hw)
  obtain ⟨hstatus, hcmd, hbase, _⟩ := effectOf_unit i s
  exact ⟨exec_of_pass hpass haccess, finished_finish .ok hstatus hcmd hbase, effectOf_written i s, effectOf_regs i s,
    effectOf_environment i s, bytesSame_effectOf hr hpass⟩

/-- What a statement about a primitive command asks, from the one fact that is the command's own: what holds of the state
its rule leaves. -/
theorem primitive_outcomes (i : Instr) {s : State} {P : State → Prop} (hr : regions i s.core = []) (hb : baseRegs i = [])
    (hP : P (finish .ok (effectOf i s))) :
    (unitWritten s.core (readRegs i) = true →
        ∃ t, exec i s = .next t ∧ CompletedPrimitive (writtenRegs i) s t ∧ P t)
      ∧ UnwrittenMarks i s := by
  refine ⟨fun hw => ?_, exec_of_unwritten i s⟩
  obtain ⟨hexec, hdone⟩ := completedPrimitive_of_written hr hb hw
  exact ⟨_, hexec, hdone, hP⟩

/-! ### Signed values as machine words -/

theorem sN_toInt {n : Nat} (hn : 0 < n) (x : BitVec n) : sN n x.toInt = x.toInt := by
  rw [sN_eq_toInt hn, BitVec.ofInt_toInt]

theorem toWord_sN (v : Int) : toWord (sN 32 v) = BitVec.ofInt 32 v := by
  rw [toWord_eq_ofInt, ofInt_sN 32 (by omega)]

/-- A value in the signed 32-bit range is read back from its register word. -/
theorem toInt_toWord {v : Int} (hlo : -2147483648 ≤ v) (hhi : v < 2147483648) : (toWord v).toInt = v := by
  rw [toWord_eq_ofInt, ← sN_eq_toInt (by omega), sN_of_range (by omega) ⟨by simpa using hlo, by simpa using hhi⟩]

/-- What `asr` by 32 leaves of a signed 32-bit value is its sign, in every bit (R103). -/
theorem toWord_asr_toInt (x : Word) : toWord (asr x.toInt 32) = if x.msb then 0xFFFFFFFF#32 else 0#32 := by
  have hlo := BitVec.le_toInt x
  have hhi := BitVec.toInt_lt (x := x)
  have hsign : x.msb = decide (x.toInt < 0) := BitVec.msb_eq_toInt
  by_cases hneg : x.toInt < 0
  · have : asr x.toInt 32 = -1 := by unfold asr; omega
    rw [this, hsign, decide_eq_true hneg]
    decide
  · have : asr x.toInt 32 = 0 := by unfold asr; omega
    rw [this, hsign, decide_eq_false hneg]
    decide

/-! ### The accumulator after a rule -/

/-- A 32-bit path sum in the accumulator words: the low word gains the addend, the high word takes its sign (R103, R105). -/
theorem setAcc32_add_words (v : Int) (s : State) :
    regVal (setAcc32 (sN 32 (acc32 s + v)) s) .accLo = regVal s .accLo + BitVec.ofInt 32 v
      ∧ regVal (setAcc32 (sN 32 (acc32 s + v)) s) .accHi
          = if (regVal s .accLo + BitVec.ofInt 32 v).msb then 0xFFFFFFFF#32 else 0#32 := by
  have hsum : BitVec.ofInt 32 (acc32 s + v) = regVal s .accLo + BitVec.ofInt 32 v := by
    rw [BitVec.ofInt_add, acc32, signed32_eq_toInt, BitVec.ofInt_toInt]
  obtain ⟨hlo, hhi⟩ := regVal_setAcc32 (sN 32 (acc32 s + v)) s
  constructor
  · rw [hlo, toWord_sN, hsum]
  · rw [hhi, sN_eq_toInt (by omega), toWord_asr_toInt, hsum]

/-- A 64-bit path sum in the accumulator (R104, R106). -/
theorem accBits_setAcc64_add (v : Int) (s : State) :
    accBits (setAcc64 (sN 64 (acc64 s + v)) s) = accBits s + BitVec.ofInt 64 v := by
  rw [accBits, setAcc64_words, ofInt_sN 64 (by omega), BitVec.ofInt_add, acc64_eq_toInt, BitVec.ofInt_toInt, accBits]

@[simp] theorem accBits_finish (code : CompletionCode) (s : State) : accBits (finish code s) = accBits s := (rfl)

/-! ### Lane products -/

theorem ofInt_prod_lane0 {n : Nat} (hn : 16 ≤ n) (x y : Word) :
    BitVec.ofInt n (prod (lane0 x) (lane0 y)) = laneLo n x * laneLo n y := by
  rw [lane0_eq_toInt n hn, lane0_eq_toInt n hn, ofInt_prod, laneLo, laneLo]

theorem ofInt_prod_lane1 {n : Nat} (hn : 16 ≤ n) (x y : Word) :
    BitVec.ofInt n (prod (lane1 x) (lane1 y)) = laneHi n x * laneHi n y := by
  rw [lane1_eq_toInt n hn, lane1_eq_toInt n hn, ofInt_prod, laneHi, laneHi]

theorem ofInt_pairProd {n : Nat} (hn : 16 ≤ n) (x y : Word) :
    BitVec.ofInt n (pairProd x y) = laneLo n x * laneLo n y + laneHi n x * laneHi n y := by
  rw [pairProd, BitVec.ofInt_add, ofInt_prod_lane0 hn, ofInt_prod_lane1 hn]

/-! ### The read-outs and the clamp -/

/-- Bits 30 to 15 of a word are the low 16 bits of its arithmetic shift by 15. -/
theorem ofInt_asr_shift (x : Word) : BitVec.ofInt 16 (asr x.toInt Config.shift) = x.extractLsb' 15 16 := by
  have hx := x.isLt
  apply BitVec.eq_of_toNat_eq
  rw [BitVec.toNat_ofInt, BitVec.extractLsb'_toNat, Nat.shiftRight_eq_div_pow, BitVec.toInt_eq_toNat_cond, asr,
    Config.shift]
  split <;> omega

/-- The truncating read-out keeps bits 30 to 15, sign-extended (R108). -/
theorem toWord_narrowFast (x : Word) : toWord (narrowFast x.toInt) = (x.extractLsb' 15 16).signExtend 32 := by
  rw [narrowFast, sN_toInt (by omega), sN_eq_toInt (by omega), ofInt_asr_shift, toWord_eq_ofInt,
    BitVec.signExtend]

/-- The saturating read-out is the clamped arithmetic shift by 15 (R109). -/
theorem narrowPrecise_toInt (x : BitVec 64) :
    narrowPrecise x.toInt = max (-32768) (min 32767 (x.sshiftRight 15).toInt) := by
  rw [narrowPrecise, sN_toInt (by omega), BitVec.toInt_sshiftRight, Int.shiftRight_eq_div_pow]
  unfold sat16 clip asr Config.shift
  omega

/-- The clamp of three signed words is read back from its register word (R107). -/
theorem toInt_toWord_clip32 (v lo hi : Word) :
    (toWord (clip32 v.toInt lo.toInt hi.toInt)).toInt = min (max v.toInt lo.toInt) hi.toInt := by
  have hv := BitVec.le_toInt v
  have hloLt := BitVec.toInt_lt (x := lo)
  have hhi := BitVec.le_toInt hi
  have hhiLt := BitVec.toInt_lt (x := hi)
  apply toInt_toWord <;> unfold clip32 clip <;> omega

/-! ### The value of each rule -/

theorem accClrEffect_words (s : State) :
    regVal (accClrEffect s) .accLo = 0#32 ∧ regVal (accClrEffect s) .accHi = 0#32 := by
  simp [accClrEffect, regVal_setReg]

theorem macWEffect_words (s : State) :
    regVal (macWEffect s) .accLo = regVal s .accLo + laneLo 32 (regVal s .opa) * laneLo 32 (regVal s .opb)
      ∧ regVal (macWEffect s) .accHi = if (regVal (macWEffect s) .accLo).msb then 0xFFFFFFFF#32 else 0#32 := by
  obtain ⟨hlo, hhi⟩ := setAcc32_add_words (prod (lane0 (regVal s .opa)) (lane0 (regVal s .opb))) s
  rw [macWEffect, mac32, hhi, hlo, ofInt_prod_lane0 (by omega)]
  exact ⟨rfl, rfl⟩

theorem accBits_macDEffect (s : State) :
    accBits (macDEffect s) = accBits s + laneLo 64 (regVal s .opa) * laneLo 64 (regVal s .opb) := by
  rw [macDEffect, mac64, accBits_setAcc64_add, ofInt_prod_lane0 (by omega)]

theorem dmacWEffect_words (s : State) :
    regVal (dmacWEffect s) .accLo = regVal s .accLo
        + (laneLo 32 (regVal s .opa) * laneLo 32 (regVal s .opb) + laneHi 32 (regVal s .opa) * laneHi 32 (regVal s .opb))
      ∧ regVal (dmacWEffect s) .accHi = if (regVal (dmacWEffect s) .accLo).msb then 0xFFFFFFFF#32 else 0#32 := by
  obtain ⟨hlo, hhi⟩ := setAcc32_add_words (pairProd (regVal s .opa) (regVal s .opb)) s
  rw [dmacWEffect, hhi, hlo, ofInt_pairProd (by omega)]
  exact ⟨rfl, rfl⟩

theorem accBits_dmacDEffect (s : State) :
    accBits (dmacDEffect s) = accBits s
      + (laneLo 64 (regVal s .opa) * laneLo 64 (regVal s .opb) + laneHi 64 (regVal s .opa) * laneHi 64 (regVal s .opb)) := by
  rw [dmacDEffect, accBits_setAcc64_add, ofInt_pairProd (by omega)]

theorem regVal_setReg_res (v : Word) (s : State) : regVal (setReg .res v s) .res = v := by
  rw [regVal_setReg, if_pos rfl, and_storedBits_res]

theorem toInt_res_clipEffect (s : State) :
    (regVal (clipEffect s) .res).toInt
      = min (max (regVal s .opa).toInt (regVal s .low).toInt) (regVal s .high).toInt := by
  simp only [clipEffect, regVal_setReg_res, signed32_eq_toInt, toInt_toWord_clip32]

/-- On an empty range the clamp is the upper bound (R107). -/
theorem res_clipEffect_of_empty {s : State} (h : (regVal s .high).toInt < (regVal s .low).toInt) :
    regVal (clipEffect s) .res = regVal s .high := by
  apply BitVec.eq_of_toInt_eq
  rw [toInt_res_clipEffect]
  omega

theorem res_rdTEffect (s : State) :
    regVal (rdTEffect s) .res = ((regVal s .accLo).extractLsb' 15 16).signExtend 32 := by
  rw [rdTEffect, regVal_setReg_res, acc32, signed32_eq_toInt, toWord_narrowFast]

theorem toInt_res_rdSEffect (s : State) :
    (regVal (rdSEffect s) .res).toInt = max (-32768) (min 32767 ((accBits s).sshiftRight 15).toInt) := by
  have hrange := narrowPrecise_range (acc64 s)
  rw [rdSEffect, regVal_setReg_res, toInt_toWord (by omega) (by omega), acc64_eq_toInt, narrowPrecise_toInt, accBits]

/-! ### The eight statements -/

theorem decode_encode (i : Instr) : decode (encode i) = .ok i := (decode_ok_iff _ i).mpr rfl

/-- Settles O6: ACC.CLR reads no register, so it completes in every state. -/
theorem accClrClearsTheAccumulator : Obligations.AccClrClearsTheAccumulator := by
  refine ⟨decode_encode .accClr, fun s => (primitive_outcomes .accClr rfl rfl ?_).1 rfl⟩
  simpa only [effectOf, regVal_finish] using accClrEffect_words s

/-- Settles O7: the wrapped sum of R103 is the sum of the low 32 bits, and the high word takes its sign. -/
theorem macWAddsTheLaneProduct : Obligations.MacWAddsTheLaneProduct := by
  refine ⟨decode_encode .macW, fun s => primitive_outcomes .macW rfl rfl ?_⟩
  simpa only [effectOf, regVal_finish] using macWEffect_words s

/-- Settles O8: the wrapped sum of R104 is the sum of the low 64 bits. -/
theorem macDAddsTheLaneProduct : Obligations.MacDAddsTheLaneProduct := by
  refine ⟨decode_encode .macD, fun s => primitive_outcomes .macD rfl rfl ?_⟩
  simpa only [effectOf, accBits_finish] using accBits_macDEffect s

/-- Settles O9: as for MAC.W, with the exact sum of the two lane products taken into the low 32 bits. -/
theorem dmacWAddsBothLaneProducts : Obligations.DmacWAddsBothLaneProducts := by
  refine ⟨decode_encode .dmacW, fun s => primitive_outcomes .dmacW rfl rfl ?_⟩
  simpa only [effectOf, regVal_finish] using dmacWEffect_words s

/-- Settles O10: as for MAC.D, with the exact sum of the two lane products taken into the low 64 bits. -/
theorem dmacDAddsBothLaneProducts : Obligations.DmacDAddsBothLaneProducts := by
  refine ⟨decode_encode .dmacD, fun s => primitive_outcomes .dmacD rfl rfl ?_⟩
  simpa only [effectOf, accBits_finish] using accBits_dmacDEffect s

/-- Settles O11: the clamp of three signed words is one of them, so its register word reads back as it. -/
theorem clipClampsIntoTheBounds : Obligations.ClipClampsIntoTheBounds := by
  refine ⟨decode_encode .clip, fun s => primitive_outcomes .clip rfl rfl ?_⟩
  simpa only [effectOf, regVal_finish] using And.intro (toInt_res_clipEffect s) res_clipEffect_of_empty

/-- Settles O12: the shift by 15 of the 32-bit accumulator, cut to 16 bits, is bits 30 to 15. -/
theorem rdTTruncatesTheAccumulator : Obligations.RdTTruncatesTheAccumulator := by
  refine ⟨decode_encode .rdT, fun s => primitive_outcomes .rdT rfl rfl ?_⟩
  simpa only [effectOf, regVal_finish] using res_rdTEffect s

/-- Settles O13: the shift by 15 of the 64-bit accumulator, clamped to 16 bits, fits the register word. -/
theorem rdSSaturatesTheAccumulator : Obligations.RdSSaturatesTheAccumulator := by
  refine ⟨decode_encode .rdS, fun s => primitive_outcomes .rdS rfl rfl ?_⟩
  simpa only [effectOf, regVal_finish] using toInt_res_rdSEffect s

end Sys2Proof.Machine
end

section
/-! SUPPORT. The narrowings of an exact sum (40_accumulator R101, R110): the bits the truncating one keeps, the range in
which both are the shift by 15, and the bounds the saturating one stores outside it. -/

namespace Sys2Proof.Machine

/-- The truncating narrowing keeps bits 30 to 15 (R110(d)). -/
theorem narrowFast_eq_bits (t : Int) : narrowFast t = sN 16 (wrapN 32 t % 2 ^ 31 / 2 ^ 15) := by
  unfold narrowFast
  apply sN_congr (by omega)
  unfold asr Config.shift sN wrapN
  split <;> omega

/-- Wrapping to the accumulator first does not change the saturating narrowing. -/
theorem narrowPrecise_sN (t : Int) : narrowPrecise (sN 64 t) = narrowPrecise t := by
  unfold narrowPrecise
  rw [sN_of_range (by omega) (sN_range (by omega) t)]

/-- On a value the 64-bit accumulator holds, the saturating narrowing clamps the shift by 15. -/
theorem narrowPrecise_of_fits {t : Int} (hlo : -(2 ^ 63) ≤ t) (hhi : t < 2 ^ 63) : narrowPrecise t = sat16 (asr t 15) := by
  rw [narrowPrecise, sN_of_range (by omega) ⟨hlo, hhi⟩, Config.shift]

/-- Inside `-2^30 <= t < 2^30` the truncating narrowing is the shift by 15 (R110(e)). -/
theorem narrowFast_of_inRange {t : Int} (hlo : -(2 ^ 30) ≤ t) (hhi : t < 2 ^ 30) : narrowFast t = asr t 15 := by
  rw [narrowFast, sN_of_range (n := 32) (by omega) (by omega), Config.shift]
  exact sN_of_range (by omega) (by unfold asr; omega)

/-- Inside `-2^30 <= t < 2^30` the saturating narrowing is the shift by 15 (R110(e)). -/
theorem narrowPrecise_of_inRange {t : Int} (hlo : -(2 ^ 30) ≤ t) (hhi : t < 2 ^ 30) : narrowPrecise t = asr t 15 := by
  rw [narrowPrecise_of_fits (by omega) (by omega)]
  unfold sat16 clip asr
  omega

theorem narrowPrecise_of_ge {t : Int} (hge : 2 ^ 30 ≤ t) (hfits : t < 2 ^ 63) : narrowPrecise t = 32767 := by
  rw [narrowPrecise_of_fits (by omega) hfits]
  unfold sat16 clip asr
  omega

theorem narrowPrecise_of_lt {t : Int} (hlt : t < -(2 ^ 30)) (hfits : -(2 ^ 63) ≤ t) : narrowPrecise t = -32768 := by
  rw [narrowPrecise_of_fits hfits (by omega)]
  unfold sat16 clip asr
  omega

end Sys2Proof.Machine
end

section
/-! SUPPORT. The exact convolution sum of 41_convolution R131: it is commutative, bounded by the shorter length times the
bounds of the two sequences, and a single product when one sequence is a single sample. -/

namespace Sys2Proof.Machine

/-- The sum of R131 over the index pairs with `i + j = n`, in which the two sequences play the same part. -/
theorem exactConv_eq_antidiagonal (m : Memory) (a b lenA lenB n : Nat) :
    exactConv m a b lenA lenB n
      = ∑ p ∈ Finset.HasAntidiagonal.antidiagonal n,
          if p.1 < lenA ∧ p.2 < lenB then q m (a + 2 * p.1) * q m (b + 2 * p.2) else 0 := by
  rw [exactConv, Finset.Nat.sum_antidiagonal_eq_sum_range_succ_mk, ← Finset.sum_filter, ← Finset.sum_filter]
  apply Finset.sum_congr _ fun _ _ => rfl
  ext k
  simp only [Finset.mem_filter, Finset.mem_range]
  omega

/-- Exchanging the two sequences changes no sum (R137). -/
theorem exactConv_comm (m : Memory) (a b lenA lenB n : Nat) :
    exactConv m a b lenA lenB n = exactConv m b a lenB lenA n := by
  rw [exactConv_eq_antidiagonal, exactConv_eq_antidiagonal, ← Finset.Nat.sum_antidiagonal_swap]
  simp only [Prod.fst_swap, Prod.snd_swap, and_comm, mul_comm]

section
variable {m : Memory} {a b lenA lenB : Nat} {x y : Int}

/-- A sum has at most `lenA` products. -/
theorem abs_exactConv_le_lenA (hx : ∀ k < lenA, |q m (a + 2 * k)| ≤ x) (hy : ∀ k < lenB, |q m (b + 2 * k)| ≤ y)
    (hB : 1 ≤ lenB) (n : Nat) : |exactConv m a b lenA lenB n| ≤ lenA * (x * y) := by
  have hy0 : 0 ≤ y := (abs_nonneg _).trans (hy 0 hB)
  have hterm : ∀ k ∈ Finset.range lenA,
      |if k ≤ n ∧ n - k < lenB then q m (a + 2 * k) * q m (b + 2 * (n - k)) else 0| ≤ x * y := by
    intro k hk
    have hxk := hx k (Finset.mem_range.mp hk)
    have hx0 : 0 ≤ x := (abs_nonneg _).trans hxk
    split
    case isTrue h => rw [abs_mul]; exact mul_le_mul hxk (hy _ h.2) (abs_nonneg _) hx0
    case isFalse => rw [abs_zero]; exact mul_nonneg hx0 hy0
  calc |exactConv m a b lenA lenB n| ≤ _ := Finset.abs_sum_le_sum_abs _ _
    _ ≤ ∑ _k ∈ Finset.range lenA, x * y := Finset.sum_le_sum hterm
    _ = lenA * (x * y) := by simp

/-- A sum has at most `L` products (R138). -/
theorem abs_exactConv_le (hx : ∀ k < lenA, |q m (a + 2 * k)| ≤ x) (hy : ∀ k < lenB, |q m (b + 2 * k)| ≤ y)
    (hA : 1 ≤ lenA) (hB : 1 ≤ lenB) (n : Nat) :
    |exactConv m a b lenA lenB n| ≤ (min lenA lenB : Int) * x * y := by
  rw [mul_assoc]
  rcases le_total lenA lenB with h | h
  · rw [min_eq_left (by exact_mod_cast h)]
    exact abs_exactConv_le_lenA hx hy hB n
  · rw [min_eq_right (by exact_mod_cast h), exactConv_comm, mul_comm x]
    exact abs_exactConv_le_lenA hy hx hA n

end

/-- Every element is at most 2^15 in magnitude (00_scope R14). -/
theorem abs_q_le (m : Memory) (p : Nat) : |q m p| ≤ 2 ^ 15 := by
  have := q_range m p
  exact abs_le.mpr ⟨by omega, by omega⟩

/-- With lengths below 2^16 every sum fits the 64-bit accumulator, far from its ends (R134). -/
theorem abs_exactConv_lt (m : Memory) (a b : Nat) {lenA lenB : Nat} (hA : lenA < 65536) (hB : 1 ≤ lenB) (n : Nat) :
    |exactConv m a b lenA lenB n| < 2 ^ 47 := by
  have := abs_exactConv_le_lenA (fun k (_ : k < lenA) => abs_q_le m (a + 2 * k)) (fun k _ => abs_q_le m (b + 2 * k)) hB n
  omega

/-- Convolving with a single sample scales by it. -/
theorem exactConv_single (m : Memory) (a b : Nat) {lenA n : Nat} (hn : n < lenA) :
    exactConv m a b lenA 1 n = q m (a + 2 * n) * q m b := by
  rw [exactConv, Finset.sum_eq_single n]
  · simp
  · intro k _ hk
    exact if_neg (by omega)
  · intro h
    exact absurd (Finset.mem_range.mpr hn) h

end Sys2Proof.Machine
end

section
/-! SUPPORT. The scratch buffers of CONV.P (41_convolution R133): what is read from them after the preparation, and that
the dot product of R134 over them is the exact sum of R131. -/

namespace Sys2Proof.Machine

/-- Element `p` of scratch buffer 1: the longer sequence between `L - 1` zeros on each side (R133). -/
def padElem (m : Memory) (long L M p : Nat) : Int :=
  if L - 1 ≤ p ∧ p < L - 1 + M then q m (long + 2 * (p - (L - 1))) else 0

/-- The three parts of the padding are one run of elements. -/
theorem padWrites_eq_run (m : Memory) (long s1 L M : Nat) :
    padWrites m long s1 L M
      = (List.range (L - 1 + M + (L - 1))).map fun p => (s1 + 2 * p, padElem m long L M p) := by
  rw [List.range_add, List.range_add, List.map_append, List.map_append, List.map_map, List.map_map, padWrites]
  refine congrArg₂ _ (congrArg₂ _ (List.map_congr_left fun p hp => ?_) (List.map_congr_left fun p hp => ?_))
    (List.map_congr_left fun p hp => ?_) <;> rw [List.mem_range] at hp
  · rw [padElem, if_neg (by omega)]
  · rw [Function.comp_apply, padElem, if_pos (by omega), Nat.add_sub_cancel_left]
  · rw [Function.comp_apply, padElem, if_neg (by omega)]

/-- The memory after the preparation of both scratch buffers (R133). -/
def scratchMem (m : Memory) (long short s1 s2 L M : Nat) : Memory :=
  putAll m (padWrites m long s1 L M ++ reverseWrites m short s2 L)

/-- CONV.P's preparation, with the longer and the shorter sequence named; a tie makes `a` the longer one (R133). -/
theorem convPScratch_eq (m : Memory) (a b s1 s2 lenA lenB : Nat) :
    convPScratch m a b s1 s2 lenA lenB
      = scratchMem m (if lenB ≤ lenA then a else b) (if lenB ≤ lenA then b else a) s1 s2 (min lenA lenB) (max lenA lenB) :=
  (rfl)

section
variable {m : Memory} {long short s1 s2 L M : Nat}

theorem q_scratchMem_padded (hm : memWf m = true) (happart : s1 + 2 * (L - 1 + M + (L - 1)) ≤ s2 ∨ s2 + 2 * L ≤ s1)
    {p : Nat} (hp : p < L - 1 + M + (L - 1)) :
    q (scratchMem m long short s1 s2 L M) (s1 + 2 * p) = padElem m long L M p := by
  have hmem : (s1 + 2 * p, padElem m long L M p) ∈ padWrites m long s1 L M := by
    rw [padWrites_eq_run]
    exact List.mem_map_of_mem (List.mem_range.mpr hp)
  have houtside : ∀ e ∈ reverseWrites m short s2 L, s1 + 2 * p + 2 ≤ e.1 ∨ e.1 + 2 ≤ s1 + 2 * p := by
    simp only [reverseWrites, List.forall_mem_map, List.mem_range]
    omega
  have hQ15 : sN 16 (padElem m long L M p) = padElem m long L M p := by
    unfold padElem
    split
    · exact sN_q m _
    · exact sN_zero (by omega)
  rw [scratchMem, putAll_append, q_putAll_outside houtside,
    q_putAll_mem hm (by rw [padWrites_eq_run]; exact elemsApart_run _ _ _) hmem, hQ15]

theorem q_scratchMem_reversed (hm : memWf m = true) {i : Nat} (hi : i < L) :
    q (scratchMem m long short s1 s2 L M) (s2 + 2 * i) = q m (short + 2 * (L - 1 - i)) := by
  have hmem : (s2 + 2 * i, q m (short + 2 * (L - 1 - i))) ∈ reverseWrites m short s2 L :=
    List.mem_map_of_mem (List.mem_range.mpr hi)
  have hrun : (reverseWrites m short s2 L).Pairwise ElemsApart := elemsApart_run _ _ _
  rw [scratchMem, putAll_append, q_putAll_mem (memWf_putAll _ hm) hrun hmem, sN_q]

/-- The dot product of the reversed sequence with the window of the padded one is the sum of R131, wrapped (R134). -/
theorem convAcc64_scratchMem (hm : memWf m = true) (happart : s1 + 2 * (L - 1 + M + (L - 1)) ≤ s2 ∨ s2 + 2 * L ≤ s1)
    {n : Nat} (hn : n < L + M - 1) :
    convAcc64 (scratchMem m long short s1 s2 L M) s1 s2 L n = sN 64 (exactConv m short long L M n) := by
  have hwindow : ∀ i ∈ Finset.range L,
      q (scratchMem m long short s1 s2 L M) (s2 + 2 * i) * q (scratchMem m long short s1 s2 L M) (s1 + 2 * (n + i))
        = if L - 1 - i ≤ n ∧ n - (L - 1 - i) < M
          then q m (short + 2 * (L - 1 - i)) * q m (long + 2 * (n - (L - 1 - i))) else 0 := by
    intro i hi
    rw [Finset.mem_range] at hi
    rw [q_scratchMem_reversed hm hi, q_scratchMem_padded hm happart (by omega), padElem, mul_ite, mul_zero,
      show n + i - (L - 1) = n - (L - 1 - i) by omega]
    exact if_congr (by omega) rfl rfl
  have hfold := foldl_sN (n := 64) (by omega) (fun i => q (scratchMem m long short s1 s2 L M) (s2 + 2 * i)
    * q (scratchMem m long short s1 s2 L M) (s1 + 2 * (n + i))) (List.range L) 0
  rw [sN_zero (by omega), zero_add, sum_map_range, Finset.sum_congr rfl hwindow, Finset.sum_range_reflect
    (fun k => if k ≤ n ∧ n - k < M then q m (short + 2 * k) * q m (long + 2 * (n - k)) else 0)] at hfold
  exact hfold

end

/-- The accumulator of CONV.P over the prepared scratch is the sum of R131, whichever sequence is the longer. -/
theorem convAcc64_convPScratch {m : Memory} {s1 s2 lenA lenB n : Nat} (a b : Nat) (hm : memWf m = true)
    (happart : s1 + 2 * (convM lenA lenB + 2 * convL lenA lenB - 2) ≤ s2 ∨ s2 + 2 * convL lenA lenB ≤ s1)
    (hA : 1 ≤ lenA) (hB : 1 ≤ lenB) (hn : n < convN lenA lenB) :
    convAcc64 (convPScratch m a b s1 s2 lenA lenB) s1 s2 (convL lenA lenB) n = sN 64 (exactConv m a b lenA lenB n) := by
  unfold convL convM at happart
  unfold convN at hn
  rw [convL, convPScratch_eq, convAcc64_scratchMem hm (by omega) (by omega)]
  rcases Nat.lt_or_ge lenA lenB with h | h
  · rw [if_neg (by omega), if_neg (by omega), min_eq_left (by omega), max_eq_right (by omega)]
  · rw [if_pos h, if_pos h, min_eq_right h, max_eq_left h, exactConv_comm]

/-- The accumulator of CONV.F is the sum of R131, wrapped (R132). -/
theorem convAcc32_eq (m : Memory) (a b : Nat) {lenA lenB : Nat} (n : Nat) (hA : 1 ≤ lenA) (hB : 1 ≤ lenB) :
    convAcc32 m a b lenA lenB n = sN 32 (exactConv m a b lenA lenB n) := by
  rw [exactConv_eq_window m a b lenA lenB n hA hB, ← zero_add (List.sum _), ← foldl_sN (by omega), sN_zero (by omega)]
  rfl

end Sys2Proof.Machine
end

section
/-! SUPPORT. The outputs of the convolution commands (41_convolution R132, R134): a ready command stores the narrowed exact
sums. The statements R138 to R140 follow from these and the laws of the narrowings. -/

namespace Sys2Proof.Machine

theorem lenAOf_lt (c : CoreUnit) : lenAOf c < 65536 := Nat.mod_lt _ (by norm_num)

/-- A ready convolution has no empty sequence (R174 check 5). -/
theorem lengths_pos_of_ready {i : Instr} {s : State} (hi : isConv i = true) (h : Ready i s) :
    1 ≤ lenAOf s.core ∧ 1 ≤ lenBOf s.core := by
  obtain ⟨-, hpass, -⟩ := h
  obtain ⟨-, -, -, hlen, -⟩ := (checks_pass_iff i s).mp hpass
  obtain ⟨hA, hB⟩ := hlen hi
  exact ⟨Nat.pos_of_ne_zero hA, Nat.pos_of_ne_zero hB⟩

/-- The scratch buffers of a ready CONV.P share no byte (R58). -/
theorem scratch_apart_of_ready {s : State} (h : Ready .convP s) :
    unitAddr s.core .scr1 + 2 * (convM (lenAOf s.core) (lenBOf s.core) + 2 * convL (lenAOf s.core) (lenBOf s.core) - 2)
        ≤ unitAddr s.core .scr2
      ∨ unitAddr s.core .scr2 + 2 * convL (lenAOf s.core) (lenBOf s.core) ≤ unitAddr s.core .scr1 := by
  obtain ⟨hA, hB⟩ := lengths_pos_of_ready rfl h
  obtain ⟨-, hpass, -⟩ := h
  obtain ⟨-, -, -, -, -, hself, -⟩ := (checks_pass_iff .convP s).mp hpass
  have hpair := List.pairwise_iff_getElem.mp ((selfConflict_false_iff_pairwise _).mp hself) 3 4
    (by simp [regions, convPRegions]) (by simp [regions, convPRegions]) (by omega)
  have hapart := apart_of_noConflict hpair (.inl rfl)
  simp only [regions, convPRegions, List.getElem_cons_succ, List.getElem_cons_zero, convL, convM] at hapart ⊢
  omega

/-- What CONV.F stores (R132). -/
theorem q_effectOf_convF {s : State} (hm : memWf s.mem = true) (h : Ready .convF s) {n : Nat}
    (hn : n < convN (lenAOf s.core) (lenBOf s.core)) :
    q (effectOf .convF s).mem (unitAddr s.core .dst + 2 * n)
      = narrowFast (exactConv s.mem (unitAddr s.core .srcA) (unitAddr s.core .srcB) (lenAOf s.core) (lenBOf s.core) n) := by
  obtain ⟨hA, hB⟩ := lengths_pos_of_ready rfl h
  have hstored := q_putAll_mem hm (elemsApart_run (unitAddr s.core .dst) _ _)
    (List.mem_map_of_mem (f := fun n => (unitAddr s.core .dst + 2 * n, narrowFast (convAcc32 s.mem
      (unitAddr s.core .srcA) (unitAddr s.core .srcB) (lenAOf s.core) (lenBOf s.core) n))) (List.mem_range.mpr hn))
  rw [sN_narrowFast, convAcc32_eq _ _ _ n hA hB, narrowFast_sN] at hstored
  exact hstored

/-- What CONV.P stores (R134). -/
theorem q_effectOf_convP {s : State} (hm : memWf s.mem = true) (h : Ready .convP s) {n : Nat}
    (hn : n < convN (lenAOf s.core) (lenBOf s.core)) :
    q (effectOf .convP s).mem (unitAddr s.core .dst + 2 * n)
      = narrowPrecise (exactConv s.mem (unitAddr s.core .srcA) (unitAddr s.core .srcB) (lenAOf s.core) (lenBOf s.core) n) := by
  obtain ⟨hA, hB⟩ := lengths_pos_of_ready rfl h
  have hscratch : memWf (convPScratch s.mem (unitAddr s.core .srcA) (unitAddr s.core .srcB) (unitAddr s.core .scr1)
    (unitAddr s.core .scr2) (lenAOf s.core) (lenBOf s.core)) = true := memWf_putAll _ hm
  have hstored := q_putAll_mem hscratch (elemsApart_run (unitAddr s.core .dst) _ _)
    (List.mem_map_of_mem (f := fun n => (unitAddr s.core .dst + 2 * n, narrowPrecise (convAcc64 (convPScratch s.mem
      (unitAddr s.core .srcA) (unitAddr s.core .srcB) (unitAddr s.core .scr1) (unitAddr s.core .scr2) (lenAOf s.core)
      (lenBOf s.core)) (unitAddr s.core .scr1) (unitAddr s.core .scr2) (convL (lenAOf s.core) (lenBOf s.core)) n)))
      (List.mem_range.mpr hn))
  rw [sN_narrowPrecise, convAcc64_convPScratch _ _ hm (scratch_apart_of_ready h) hA hB hn, narrowPrecise_sN] at hstored
  exact hstored

/-- Where a sum lies in `-2^30 <= S(n) < 2^30`, either command stores its shift by 15 (R138). -/
theorem q_effectOf_conv_of_inRange {i : Instr} {s : State} (hi : i = .convF ∨ i = .convP) (hm : memWf s.mem = true)
    (h : Ready i s) {n : Nat} (hn : n < convN (lenAOf s.core) (lenBOf s.core)) {S : Int}
    (hS : S = exactConv s.mem (unitAddr s.core .srcA) (unitAddr s.core .srcB) (lenAOf s.core) (lenBOf s.core) n)
    (hlo : -(2 ^ 30) ≤ S) (hhi : S < 2 ^ 30) :
    q (effectOf i s).mem (unitAddr s.core .dst + 2 * n) = asr S 15 := by
  rcases hi with rfl | rfl
  · rw [q_effectOf_convF hm h hn, ← hS, narrowFast_of_inRange hlo hhi]
  · rw [q_effectOf_convP hm h hn, ← hS, narrowPrecise_of_inRange hlo hhi]

/-- Settles O19: each command stores its narrowing of the same sums, both narrowings are the shift by 15 in the strict
regime, and a sum has at most `L` products. -/
theorem fastAndPreciseConvolutionAgree : Obligations.FastAndPreciseConvolutionAgree := by
  intro s hm hF hP
  refine ⟨_, _, exec_of_ready hF, exec_of_ready hP, fun S hS => ⟨?_, fun hrange n hn => ?_, fun x y hx hy hxy n _ => ?_⟩⟩
  · simp only [finish_mem]
    refine forall₂_congr fun n hn => ?_
    rw [q_effectOf_convF hm hF hn, q_effectOf_convP hm hP hn, ← hS n, narrowFast_sN]
  · obtain ⟨hlo, hhi⟩ := hrange n hn
    rw [finish_mem, finish_mem, q_effectOf_conv_of_inRange (.inl rfl) hm hF hn (hS n) hlo hhi,
      q_effectOf_conv_of_inRange (.inr rfl) hm hP hn (hS n) hlo hhi]
  · obtain ⟨hA, hB⟩ := lengths_pos_of_ready rfl hF
    have hbound := abs_exactConv_le hx hy hA hB n
    rw [← hS n] at hbound
    exact abs_lt.mp (hbound.trans_lt hxy)

/-- The shift by 15 of a sample times 32767 is the sample less the fraction `x / 2^15`, rounded down (R139). -/
theorem asr_mul_identity {x y : Int} (hx : -32768 ≤ x ∧ x < 32768) (hy : y = asr (x * 32767) 15) :
    (0 < x → y = x - 1) ∧ (x = 0 → y = 0) ∧ (-32767 ≤ x → x < 0 → y = x) ∧ (x = -32768 → y = -32767) ∧ |y - x| ≤ 1 := by
  unfold asr at hy
  rw [abs_le]
  omega

/-- Settles O20: the one product of each sum lies in the range in which both commands store the shift by 15. -/
theorem identityKernelIsWithinOneLsb : Obligations.IdentityKernelIsWithinOneLsb := by
  intro i s hi hm h hlenB hb
  refine ⟨_, exec_of_ready h, fun n hn x y hx hy => ?_⟩
  have hxrange : -32768 ≤ x ∧ x < 32768 := by rw [hx]; exact q_range _ _
  have hsum : x * 32767
      = exactConv s.mem (unitAddr s.core .srcA) (unitAddr s.core .srcB) (lenAOf s.core) (lenBOf s.core) n := by
    rw [hlenB, exactConv_single _ _ _ hn, hb, hx]
  have hshift : y = asr (x * 32767) 15 := by
    rw [hy, finish_mem]
    exact q_effectOf_conv_of_inRange hi hm h (by unfold convN; omega) hsum (by omega) (by omega)
  exact ⟨hshift, asr_mul_identity hxrange hshift⟩

/-- Settles O21: every sum fits the 64-bit accumulator, so a sum out of range is clamped to the bound on its side; the
truncating narrowing keeps bits 30 to 15. -/
theorem preciseConvolutionNeverWraps : Obligations.PreciseConvolutionNeverWraps := by
  refine ⟨fun s hm h => ⟨_, exec_of_ready h, fun n hn S hS => ?_⟩, fun s hm h => ⟨_, exec_of_ready h, fun n hn => ?_⟩⟩
  · obtain ⟨-, hB⟩ := lengths_pos_of_ready rfl h
    obtain ⟨hlo, hhi⟩ : -(2 ^ 47) < S ∧ S < 2 ^ 47 := by
      rw [hS]; exact abs_lt.mp (abs_exactConv_lt s.mem _ _ (lenAOf_lt s.core) hB n)
    rw [finish_mem, q_effectOf_convP hm h hn, ← hS]
    exact ⟨fun hge => narrowPrecise_of_ge hge (by omega), fun hlt => narrowPrecise_of_lt hlt (by omega)⟩
  · rw [finish_mem, q_effectOf_convF hm h hn, narrowFast_eq_bits]

end Sys2Proof.Machine
end

section
/-! SUPPORT. The two phases of the matrix commands (42_matmul R152 to R155): what the transposition leaves in the scratch
and in the matrix `A`, and what the outputs hold after their phase. -/

namespace Sys2Proof.Machine

/-- An index below a product of dimensions is one of a row and a column. -/
theorem exists_row_col {n r c : Nat} (h : n < r * c) : ∃ i < r, ∃ j < c, n = i * c + j :=
  ⟨n / c, Nat.div_lt_of_lt_mul (by rwa [Nat.mul_comm]), n % c, Nat.mod_lt n (Nat.pos_of_lt_mul_left h),
    (Nat.div_add_mod' n c).symm⟩

/-! ### The transposition -/

/-- The scratch of MATMUL.F holds `B` transposed after the first phase (R152). -/
theorem q_transposeWrites {m : Memory} (b t : Nat) {br bc k j : Nat} (hm : memWf m = true) (hk : k < br) (hj : j < bc) :
    q (putAll m (transposeWrites m b t br bc)) (t + 2 * (j * br + k)) = q m (b + 2 * (k * bc + j)) := by
  have hmem : (t + 2 * (j * br + k), q m (b + 2 * (k * bc + j))) ∈ transposeWrites m b t br bc :=
    List.mem_flatMap.mpr ⟨k, List.mem_range.mpr hk, List.mem_map_of_mem (List.mem_range.mpr hj)⟩
  rw [q_putAll_mem hm (elemsApart_transpose m b t br bc) hmem, sN_q]

/-- The scratch of MATMUL.C holds both halves of `B` transposed after the first phase (R154). -/
theorem q_transposeWritesC {m : Memory} (b t : Nat) {br bc k j c : Nat} (hm : memWf m = true) (hk : k < br) (hj : j < bc)
    (hc : c < 2) : q (putAll m (transposeWritesC m b t br bc)) (t + 4 * (j * br + k) + 2 * c)
      = q m (b + 4 * (k * bc + j) + 2 * c) := by
  have hmem : (t + 4 * (j * br + k) + 2 * c, q m (b + 4 * (k * bc + j) + 2 * c)) ∈ transposeWritesC m b t br bc :=
    List.mem_flatMap.mpr ⟨k, List.mem_range.mpr hk, List.mem_flatMap.mpr ⟨j, List.mem_range.mpr hj,
      List.mem_map_of_mem (List.mem_range.mpr hc)⟩⟩
  rw [q_putAll_mem hm (elemsApart_transposeC m b t br bc) hmem, sN_q]

/-- The transposition writes inside the scratch (R57). -/
theorem transposeWrites_inScratch {m : Memory} {b t br bc : Nat} {e : Nat × Int} (he : e ∈ transposeWrites m b t br bc) :
    t ≤ e.1 ∧ e.1 + 2 ≤ t + 2 * (br * bc) := by
  simp only [transposeWrites, List.mem_flatMap, List.mem_map, List.mem_range] at he
  obtain ⟨k, hk, j, hj, rfl⟩ := he
  have := index_lt hj hk
  rw [Nat.mul_comm br]
  dsimp only
  omega

section
variable {m : Memory} {a b t ar ac br bc i j : Nat}
  (hapart : conflict ⟨a, 2 * (ar * ac), false⟩ ⟨t, 2 * (br * bc), true⟩ = false)
include hapart

/-- The transposition leaves the elements of a matrix outside the scratch alone (R58). -/
theorem q_matrix_transposeWrites {k : Nat} (hi : i < ar) (hk : k < ac) :
    q (putAll m (transposeWrites m b t br bc)) (a + 2 * (i * ac + k)) = q m (a + 2 * (i * ac + k)) := by
  have helem := index_lt hi hk
  have hregions := apart_of_noConflict hapart (.inr rfl)
  refine q_putAll_outside fun e he => ?_
  have := transposeWrites_inScratch he
  dsimp only at hregions
  omega

/-- The dot product of a row of `A` with a row of the scratch is the exact element of the product, wrapped (R153). -/
theorem dotAcc32_transposeWrites (hm : memWf m = true) (hi : i < ar) (hj : j < bc) (hinner : ac = br) :
    dotAcc32 (putAll m (transposeWrites m b t br bc)) a t ac br i j = sN 32 (exactDot m a b ac bc i j) := by
  have hterm : ∀ k ∈ Finset.range ac,
      q (putAll m (transposeWrites m b t br bc)) (a + 2 * (i * ac + k))
          * q (putAll m (transposeWrites m b t br bc)) (t + 2 * (j * br + k))
        = q m (a + 2 * (i * ac + k)) * q m (b + 2 * (k * bc + j)) := by
    intro k hk
    rw [Finset.mem_range] at hk
    rw [q_matrix_transposeWrites hapart hi hk, q_transposeWrites b t hm (hinner ▸ hk) hj]
  rw [exactDot, ← Finset.sum_congr rfl hterm, ← sum_map_range, ← zero_add (List.sum _), ← foldl_sN (by omega),
    sN_zero (by omega)]
  rfl

end

/-! ### The outputs -/

/-- What the second phase of MATMUL.F stores (R153). -/
theorem q_matmulFWrites {m : Memory} (a t dst ac br : Nat) {ar bc dc i j : Nat} (hm : memWf m = true) (hi : i < ar)
    (hj : j < bc) (hcols : bc ≤ dc) :
    q (putAll m (matmulFWrites m a t dst ar ac br bc dc)) (dst + 2 * (i * dc + j)) = narrowFast (dotAcc32 m a t ac br i j) := by
  have hmem : (dst + 2 * (i * dc + j), narrowFast (dotAcc32 m a t ac br i j)) ∈ matmulFWrites m a t dst ar ac br bc dc :=
    List.mem_flatMap.mpr ⟨i, List.mem_range.mpr hi, List.mem_map_of_mem (List.mem_range.mpr hj)⟩
  have hstored := q_putAll_mem hm (elemsApart_rows _ _ _ _ _ hcols) hmem
  rwa [sN_narrowFast] at hstored

/-- The two halves of a complex element start at its address and two bytes above (00_scope R13). -/
theorem addr_of_mem_halves {p : Nat} {v w : Int} {e : Nat × Int} (he : e ∈ [(p, v), (p + 2, w)]) :
    p ≤ e.1 ∧ e.1 ≤ p + 2 := by
  rw [List.mem_pair] at he
  rcases he with rfl | rfl <;> simp

/-- The elements of a complex matrix, row by row, the real half of each first. -/
theorem elemsApart_complexRows (p cols r c : Nat) (f g : Nat → Nat → Int) (h : c ≤ cols) :
    ((List.range r).flatMap fun i => (List.range c).flatMap fun j =>
      [(p + 4 * (i * cols + j), f i j), (p + 4 * (i * cols + j) + 2, g i j)]).Pairwise ElemsApart := by
  rw [List.pairwise_flatMap]
  refine ⟨fun i _ => ?_, List.pairwise_lt_range.imp fun {i i'} hlt x hx y hy => ?_⟩
  · rw [List.pairwise_flatMap]
    refine ⟨fun j _ => by simp [ElemsApart], List.pairwise_lt_range.imp fun hlt x hx y hy => ?_⟩
    have hxaddr := addr_of_mem_halves hx
    have hyaddr := addr_of_mem_halves hy
    unfold ElemsApart
    omega
  · simp only [List.mem_flatMap, List.mem_range] at hx hy
    obtain ⟨j, hj, hx⟩ := hx
    obtain ⟨j', hj', hy⟩ := hy
    have hxaddr := addr_of_mem_halves hx
    have hyaddr := addr_of_mem_halves hy
    have hnext : i * cols + cols ≤ i' * cols := by rw [← Nat.succ_mul]; exact Nat.mul_le_mul_right _ hlt
    unfold ElemsApart
    omega

/-- What the second phase of MATMUL.C stores (R155). -/
theorem reAt_imAt_matmulCWrites {m : Memory} (a t dst ac br : Nat) {ar bc dc i j : Nat} (hm : memWf m = true) (hi : i < ar)
    (hj : j < bc) (hcols : bc ≤ dc) :
    reAt (putAll m (matmulCWrites m a t dst ar ac br bc dc)) dst dc i j = narrowPrecise (dotAccRe m a t ac br i j)
      ∧ imAt (putAll m (matmulCWrites m a t dst ar ac br bc dc)) dst dc i j = narrowPrecise (dotAccIm m a t ac br i j) := by
  have hmem : ∀ e ∈ [(dst + 4 * (i * dc + j), narrowPrecise (dotAccRe m a t ac br i j)),
      (dst + 4 * (i * dc + j) + 2, narrowPrecise (dotAccIm m a t ac br i j))], e ∈ matmulCWrites m a t dst ar ac br bc dc :=
    fun e he => List.mem_flatMap.mpr ⟨i, List.mem_range.mpr hi, List.mem_flatMap.mpr ⟨j, List.mem_range.mpr hj, he⟩⟩
  have hrows : (matmulCWrites m a t dst ar ac br bc dc).Pairwise ElemsApart := elemsApart_complexRows _ _ _ _ _ _ hcols
  have hre := q_putAll_mem hm hrows (hmem _ List.mem_cons_self)
  have him := q_putAll_mem hm hrows (hmem _ (List.mem_cons_of_mem _ List.mem_cons_self))
  rw [sN_narrowPrecise] at hre him
  exact ⟨hre, him⟩

end Sys2Proof.Machine
end

section
/-! SUPPORT. The laws of the matrix commands: the half-identity law (42_matmul R159) and empty dimensions (R156). -/

namespace Sys2Proof.Machine

/-- The memory of MATMUL.F after its first phase. -/
def realScratch (s : State) : Memory :=
  putAll s.mem (transposeWrites s.mem (unitAddr s.core .srcB) (unitAddr s.core .scr1) (bRows s.core) (bCols s.core))

/-- The memory of MATMUL.C after its first phase. -/
def complexScratch (s : State) : Memory :=
  putAll s.mem (transposeWritesC s.mem (unitAddr s.core .srcB) (unitAddr s.core .scr1) (bRows s.core) (bCols s.core))

/-- The two phases of MATMUL.F (R152, R153). -/
theorem effectOf_matmulF_mem (s : State) :
    (effectOf .matmulF s).mem = putAll (realScratch s) (matmulFWrites (realScratch s) (unitAddr s.core .srcA)
      (unitAddr s.core .scr1) (unitAddr s.core .dst) (aRows s.core) (aCols s.core) (bRows s.core) (bCols s.core)
      (dCols s.core)) := (rfl)

/-- The two phases of MATMUL.C (R154, R155). -/
theorem effectOf_matmulC_mem (s : State) :
    (effectOf .matmulC s).mem = putAll (complexScratch s) (matmulCWrites (complexScratch s) (unitAddr s.core .srcA)
      (unitAddr s.core .scr1) (unitAddr s.core .dst) (aRows s.core) (aCols s.core) (bRows s.core) (bCols s.core)
      (dCols s.core)) := (rfl)

/-- The size check of a ready matrix command (R151). -/
theorem sizes_of_ready {i : Instr} {s : State} (hi : isMatmul i = true) (h : Ready i s) :
    aCols s.core = bRows s.core ∧ aRows s.core = dRows s.core ∧ bCols s.core = dCols s.core := by
  obtain ⟨-, hpass, -⟩ := h
  obtain ⟨-, -, hsizes, -⟩ := (checks_pass_iff i s).mp hpass
  simpa [sizesMatch, and_assoc] using hsizes hi

/-! ### The real product -/

/-- A ready MATMUL.F keeps `A` apart from the scratch (R58). -/
theorem matrixA_apart_of_ready {s : State} (h : Ready .matmulF s) :
    conflict ⟨unitAddr s.core .srcA, 2 * (aRows s.core * aCols s.core), false⟩
      ⟨unitAddr s.core .scr1, 2 * (bRows s.core * bCols s.core), true⟩ = false := by
  obtain ⟨-, hpass, -⟩ := h
  obtain ⟨-, -, -, -, -, hself, -⟩ := (checks_pass_iff .matmulF s).mp hpass
  exact List.pairwise_iff_getElem.mp ((selfConflict_false_iff_pairwise _).mp hself) 0 2
    (by simp [regions, matmulRegions]) (by simp [regions, matmulRegions]) (by omega)

/-- A ready MATMUL.F stores the truncated exact product (R153). -/
theorem q_effectOf_matmulF {s : State} (hm : memWf s.mem = true) (h : Ready .matmulF s) {i j : Nat}
    (hi : i < dRows s.core) (hj : j < dCols s.core) :
    q (effectOf .matmulF s).mem (unitAddr s.core .dst + 2 * (i * dCols s.core + j))
      = narrowFast (exactDot s.mem (unitAddr s.core .srcA) (unitAddr s.core .srcB) (aCols s.core) (bCols s.core) i j) := by
  obtain ⟨hinner, hrows, hcols⟩ := sizes_of_ready rfl h
  rw [← hrows] at hi
  have hjB : j < bCols s.core := hcols ▸ hj
  rw [effectOf_matmulF_mem, realScratch, q_matmulFWrites _ _ _ _ _ (memWf_putAll _ hm) hi hjB hcols.le,
    dotAcc32_transposeWrites (matrixA_apart_of_ready h) hm hi hjB hinner, narrowFast_sN]

/-- A row of `A` with one non-zero element picks one row of `B`. -/
theorem exactDot_single {m : Memory} {a ac i : Nat} {x : Int} (b bc j : Nat) (hi : i < ac)
    (hrow : ∀ k < ac, q m (a + 2 * (i * ac + k)) = if i = k then x else 0) :
    exactDot m a b ac bc i j = x * q m (b + 2 * (i * bc + j)) := by
  rw [exactDot, Finset.sum_eq_single_of_mem i (Finset.mem_range.mpr hi), hrow i hi, if_pos rfl]
  intro k hk hne
  rw [hrow k (Finset.mem_range.mp hk), if_neg hne.symm, zero_mul]

/-- Settles O25: the one product of each sum lies in the range in which the narrowing is the shift by 15. -/
theorem halfIdentityHalvesTheMatrix : Obligations.HalfIdentityHalvesTheMatrix := by
  intro s hm h hsquare hhalf
  refine ⟨_, exec_of_ready h, fun i hi j hj => ?_⟩
  obtain ⟨-, hrows, -⟩ := sizes_of_ready rfl h
  have hiA : i < aRows s.core := hrows ▸ hi
  have hB := q_range s.mem (unitAddr s.core .srcB + 2 * (i * bCols s.core + j))
  rw [finish_mem, q_effectOf_matmulF hm h hi hj, exactDot_single _ _ _ (hsquare ▸ hiA) (hhalf i hiA),
    narrowFast_of_inRange (by omega) (by omega), asr]
  omega

/-! ### Empty dimensions -/

@[simp] theorem exactDot_zero (m : Memory) (a b bc i j : Nat) : exactDot m a b 0 bc i j = 0 := (rfl)

@[simp] theorem dotAccRe_zero (m : Memory) (a t br i j : Nat) : dotAccRe m a t 0 br i j = 0 := (rfl)

@[simp] theorem dotAccIm_zero (m : Memory) (a t br i j : Nat) : dotAccIm m a t 0 br i j = 0 := (rfl)

@[simp] theorem narrowFast_zero : narrowFast 0 = 0 := by decide

@[simp] theorem narrowPrecise_zero : narrowPrecise 0 = 0 := by decide

/-- A ready MATMUL.C stores its two accumulators over the scratch, saturated (R155). -/
theorem reAt_imAt_effectOf_matmulC {s : State} (hm : memWf s.mem = true) (h : Ready .matmulC s) {i j : Nat}
    (hi : i < dRows s.core) (hj : j < dCols s.core) :
    reAt (effectOf .matmulC s).mem (unitAddr s.core .dst) (dCols s.core) i j
        = narrowPrecise (dotAccRe (complexScratch s) (unitAddr s.core .srcA) (unitAddr s.core .scr1) (aCols s.core)
            (bRows s.core) i j)
      ∧ imAt (effectOf .matmulC s).mem (unitAddr s.core .dst) (dCols s.core) i j
        = narrowPrecise (dotAccIm (complexScratch s) (unitAddr s.core .srcA) (unitAddr s.core .scr1) (aCols s.core)
            (bRows s.core) i j) := by
  obtain ⟨-, hrows, hcols⟩ := sizes_of_ready rfl h
  exact reAt_imAt_matmulCWrites _ _ _ _ _ (memWf_putAll _ hm) (hrows ▸ hi) (hcols ▸ hj) hcols.le

theorem not_inRegion_of_empty {r : Region} (h : r.size = 0) (a : Nat) : ¬ InRegion r a := by
  unfold InRegion
  omega

/-- A matrix command leaves every byte outside its scratch and its output alone (R59). -/
theorem readByte_effectOf_matmul {i : Instr} {s : State} {e a : Nat} (hregions : regions i s.core = matmulRegions e s.core)
    (h : checks i s = .pass) (hscratch : ¬ InRegion ⟨unitAddr s.core .scr1, e * (bRows s.core * bCols s.core), true⟩ a)
    (hdst : ¬ InRegion ⟨unitAddr s.core .dst, e * (dRows s.core * dCols s.core), true⟩ a) :
    readByte (effectOf i s).mem a = readByte s.mem a := by
  refine effectOf_bytes h a ?_
  rw [hregions]
  simp only [OutsideWritten, matmulRegions, List.forall_mem_cons]
  exact ⟨nofun, nofun, fun _ => hscratch, fun _ => hdst, nofun⟩

theorem matmulFWrites_of_empty {ar bc : Nat} (h : ar = 0 ∨ bc = 0) (m : Memory) (a t dst ac br dc : Nat) :
    matmulFWrites m a t dst ar ac br bc dc = [] := by
  rcases h with rfl | rfl <;> simp [matmulFWrites]

theorem matmulCWrites_of_empty {ar bc : Nat} (h : ar = 0 ∨ bc = 0) (m : Memory) (a t dst ac br dc : Nat) :
    matmulCWrites m a t dst ar ac br bc dc = [] := by
  rcases h with rfl | rfl <;> simp [matmulCWrites]

section
variable {i : Instr} {s : State} {h : Nat} (hi : (i = .matmulF ∧ h = 1) ∨ (i = .matmulC ∧ h = 2))
  (hm : memWf s.mem = true)
include hi hm

/-- With an empty output the transposition is all that is stored. -/
theorem q_scratch_of_emptyOutput (hempty : aRows s.core = 0 ∨ bCols s.core = 0) {k j c : Nat} (hk : k < bRows s.core)
    (hj : j < bCols s.core) (hc : c < h) :
    q (effectOf i s).mem (unitAddr s.core .scr1 + 2 * h * (j * bRows s.core + k) + 2 * c)
      = q s.mem (unitAddr s.core .srcB + 2 * h * (k * bCols s.core + j) + 2 * c) := by
  rcases hi with ⟨rfl, rfl⟩ | ⟨rfl, rfl⟩
  · obtain rfl : c = 0 := by omega
    rw [effectOf_matmulF_mem, matmulFWrites_of_empty hempty]
    exact q_transposeWrites _ _ hm hk hj
  · rw [effectOf_matmulC_mem, matmulCWrites_of_empty hempty]
    exact q_transposeWritesC _ _ hm hk hj hc

/-- With an empty inner dimension every halfword of the output is the narrowed empty sum. -/
theorem q_dst_of_emptyInner (hready : Ready i s) (hempty : aCols s.core = 0) {n : Nat}
    (hn : n < h * (dRows s.core * dCols s.core)) : q (effectOf i s).mem (unitAddr s.core .dst + 2 * n) = 0 := by
  rcases hi with ⟨rfl, rfl⟩ | ⟨rfl, rfl⟩
  · obtain ⟨i, hi, j, hj, rfl⟩ := exists_row_col (by rwa [one_mul] at hn)
    rw [q_effectOf_matmulF hm hready hi hj, hempty, exactDot_zero, narrowFast_zero]
  · obtain ⟨i, hi, j, hj, hij⟩ := exists_row_col (show n / 2 < dRows s.core * dCols s.core by omega)
    obtain ⟨hre, him⟩ := reAt_imAt_effectOf_matmulC hm hready hi hj
    rw [hempty, dotAccRe_zero, narrowPrecise_zero, reAt, ← hij] at hre
    rw [hempty, dotAccIm_zero, narrowPrecise_zero, imAt, ← hij] at him
    rcases Nat.mod_two_eq_zero_or_one n with hn2 | hn2
    · rw [show 2 * n = 4 * (n / 2) by omega]
      exact hre
    · rw [show 2 * n = 4 * (n / 2) + 2 by omega]
      exact him

end

/-- Settles O26: with an empty output the second phase has no element; with an empty inner dimension the first has none, and
every sum of the second is empty. -/
theorem emptyDimensionsAreLegal : Obligations.EmptyDimensionsAreLegal := by
  intro i s h hi hm hready
  obtain ⟨hmatmul, hregions⟩ : isMatmul i = true ∧ regions i s.core = matmulRegions (2 * h) s.core := by
    rcases hi with ⟨rfl, rfl⟩ | ⟨rfl, rfl⟩ <;> exact ⟨rfl, rfl⟩
  obtain ⟨hinner, hrows, hcols⟩ := sizes_of_ready hmatmul hready
  have ⟨_, hpass, _⟩ := hready
  obtain ⟨hstatus, hcmd, hbase, -⟩ := effectOf_unit i s
  refine ⟨_, exec_of_ready hready, finished_finish .ok hstatus hcmd hbase, fun hempty => ⟨fun a ha => ?_, ?_⟩,
    fun hempty => ⟨?_, fun a ha => ?_⟩⟩
  · rw [finish_mem]
    refine readByte_effectOf_matmul hregions hpass ha (not_inRegion_of_empty ?_ a)
    rcases hempty with hzero | hzero
    · simp [← hrows, hzero]
    · simp [← hcols, hzero]
  · exact fun k hk j hj c hc => q_scratch_of_emptyOutput hi hm hempty hk hj hc
  · exact fun n hn => q_dst_of_emptyInner hi hm hready hempty hn
  · rw [finish_mem]
    exact readByte_effectOf_matmul hregions hpass (not_inRegion_of_empty (by simp [← hinner, hempty]) a) ha

end Sys2Proof.Machine
end

section
/-! SUPPORT. The host's accesses to the register block of a BUSY instance (70_reset_and_hazards R195). -/

namespace Sys2Proof.Machine

variable {c : CoreUnit} {addr : Nat} {size : AccessSize}

/-- STATUS may be read whether the instance is IDLE or BUSY (30_encoding R72). -/
theorem unitRead_of_status (h : accessedReg c addr size = some .status) : unitRead c addr size = .ok c.status := by
  unfold unitRead
  cases hbusy : unitBusy c <;> simp [h]

/-- While BUSY a read that does not name STATUS raises, at a reserved offset or malformed too. -/
theorem unitRead_of_busy (hbusy : unitBusy c = true) (h : accessedReg c addr size ≠ some .status) :
    unitRead c addr size = .error .busyAccess := by
  unfold unitRead
  rw [hbusy]
  cases hreg : accessedReg c addr size with
  | none => rfl
  | some r =>
    cases r with
    | cmd => rfl
    | status => exact absurd hreg h
    | data d => rfl

/-- While BUSY every write of the register block raises, whatever it names. -/
theorem unitWrite_of_busy (hbusy : unitBusy c = true) (v : Word) : unitWrite c addr size v = .error .busyAccess := by
  unfold unitWrite
  rw [hbusy]
  cases accessedReg c addr size <;> rfl

/-- Settles O34: an aligned access at a register's offset names that register, and while BUSY only STATUS may be read and
nothing written. -/
theorem busyRegisterAccessFaults : Obligations.BusyRegisterAccessFaults := by
  intro c w hphase halign
  have hbusy : unitBusy c = true := unitBusy_of_busy hphase
  refine ⟨unitRead_of_status (accessedReg_at c halign .status), fun r hr => unitRead_of_busy hbusy ?_,
    fun r v => unitWrite_of_busy hbusy v⟩
  rw [accessedReg_at c halign r]
  exact fun heq => hr (Option.some.inj heq)

end Sys2Proof.Machine
end

section
/-! SUPPORT. The invariant of the machine (10_state R22, R34, R35, R42, 20_memory R51): the operations on one instance keep
`unitInv`, and each agent's transition keeps `stateInv`. -/

namespace Sys2Proof.Machine

/-- Settles O3: both directions are the decoder's law of one command's word. -/
theorem decodeAndEncodeAgree : Obligations.DecodeAndEncodeAgree := fun i w _ => by
  rw [decode_ok_iff, eq_comm]

/-! ### One instance -/

theorem unitInv_iff (c : CoreUnit) :
    unitInv c = true ↔
      statusBusy c.status = unitBusy c ∧ phaseIsCmd c = true ∧ statusReservedZero c.status = true ∧ statusErr c.status ≤ 3
        ∧ (unitBusy c = true → statusErr c.status = 0)
        ∧ highHalf (unitVal c .lenA) = 0 ∧ highHalf (unitVal c .lenB) = 0 := by
  simp only [unitInv, Bool.and_eq_true, Bool.or_eq_true, decide_eq_true_eq, Bool.not_eq_true', unitVal, regGet, and_assoc,
    ← Bool.not_eq_true, imp_iff_not_or]

/-- The upper halves of both length registers read 0 (R34, R35). -/
def LengthsFit (c : CoreUnit) : Prop := highHalf (unitVal c .lenA) = 0 ∧ highHalf (unitVal c .lenB) = 0

theorem lengthsFit_of_unitInv {c : CoreUnit} (h : unitInv c = true) : LengthsFit c := by
  obtain ⟨-, -, -, -, -, hlengths⟩ := (unitInv_iff c).mp h
  exact hlengths

theorem reservedZero_of_unitInv {c : CoreUnit} (h : unitInv c = true) : statusReservedZero c.status = true := by
  obtain ⟨-, -, hreserved, -⟩ := (unitInv_iff c).mp h
  exact hreserved

/-- Starting a command gives BUSY = 1 and ERR = 0 with the phase BUSY (R171). -/
theorem unitInv_unitStart (w : Word) {c : CoreUnit} (h : unitInv c = true) : unitInv (unitStart w c) = true := by
  obtain ⟨hbusy, herr⟩ := statusStarted_fields c.status
  have hlengths : LengthsFit c := lengthsFit_of_unitInv h
  rw [unitInv_iff]
  exact ⟨hbusy, by simp [phaseIsCmd], statusReservedZero_setBusy_setErr 0 true (reservedZero_of_unitInv h),
    herr ▸ Nat.zero_le 3, fun _ => herr, hlengths⟩

/-- Finishing a command gives BUSY = 0 and a code of at most 3 with the phase IDLE (R172). -/
theorem unitInv_unitFinish (code : CompletionCode) {c : CoreUnit} (hreserved : statusReservedZero c.status = true)
    (hlengths : LengthsFit c) : unitInv (unitFinish code c) = true := by
  obtain ⟨hbusy, herr⟩ := statusFinished_fields c.status code
  rw [unitInv_iff]
  exact ⟨hbusy, rfl, statusReservedZero_setBusy_setErr _ false hreserved, herr ▸ Nat.le_of_lt_succ (codeValue_lt code), nofun,
    hlengths⟩

theorem unitInv_reset (base : Nat) : unitInv (CoreUnit.reset base) = true := by
  simp [unitInv_iff, unitBusy, phaseIsCmd, unitVal, DReg.reset, highHalf, statusBusy, statusErr, statusReservedZero]

theorem highHalf_and_lowMask (v : Word) : highHalf (v &&& 0x0000FFFF#32) = 0 := by
  rw [highHalf, BitVec.toNat_and]
  exact Nat.div_eq_of_lt (Nat.and_lt_two_pow (n := 16) _ (by decide))

/-- A write of a length register stores bits 15:0 only (R73). -/
theorem lengthsFit_unitSetReg (d : DataReg) (v : Word) {c : CoreUnit} (h : LengthsFit c) : LengthsFit (unitSetReg c d v) := by
  obtain ⟨hA, hB⟩ := h
  simp only [LengthsFit, unitVal, unitSetReg_regs, regGet_regSet]
  constructor <;> split
  case left.isTrue heq => subst heq; exact highHalf_and_lowMask v
  case right.isTrue heq => subst heq; exact highHalf_and_lowMask v
  case left.isFalse => exact hA
  case right.isFalse => exact hB

theorem unitInv_unitSetReg (d : DataReg) (v : Word) {c : CoreUnit} (h : unitInv c = true) :
    unitInv (unitSetReg c d v) = true := by
  obtain ⟨hbusy, hphase, hreserved, herr, hbusyErr, hlengths⟩ := (unitInv_iff c).mp h
  exact (unitInv_iff _).mpr ⟨hbusy, hphase, hreserved, herr, hbusyErr, lengthsFit_unitSetReg d v hlengths⟩

/-- A host write of a register keeps the invariant of its instance (R72). -/
theorem unitInv_unitWrite {c d : CoreUnit} {addr : Nat} {size : AccessSize} {v : Word} (hc : unitInv c = true)
    (h : unitWrite c addr size v = .ok d) : unitInv d = true := by
  rcases unitWrite_ok h with ⟨-, rfl | rfl | ⟨r, -, rfl⟩⟩
  · exact unitInv_unitStart v hc
  · exact hc
  · exact unitInv_unitSetReg r v hc

/-- No command writes a length register (R178). -/
theorem lengths_notMem_writtenRegs (i : Instr) : DataReg.lenA ∉ writtenRegs i ∧ DataReg.lenB ∉ writtenRegs i := by
  cases i <;> decide

theorem lengthsFit_effectOf (i : Instr) {s : State} (h : LengthsFit s.core) : LengthsFit (effectOf i s).core := by
  obtain ⟨hA, hB⟩ := lengths_notMem_writtenRegs i
  unfold LengthsFit unitVal
  rw [effectOf_regs i s _ hA, effectOf_regs i s _ hB]
  exact h

/-- A command that completes leaves its instance in the invariant. -/
theorem unitInv_finish_effectOf (i : Instr) {s : State} (h : unitInv s.core = true) :
    unitInv (finish .ok (effectOf i s)).core = true := by
  obtain ⟨hstatus, -⟩ := effectOf_unit i s
  exact unitInv_unitFinish .ok (hstatus ▸ reservedZero_of_unitInv h) (lengthsFit_effectOf i (lengthsFit_of_unitInv h))

/-! ### The machine -/

/-- The memory is in canonical form and lists backed addresses only (R51). -/
def MemInv (s : State) : Prop := memWf s.mem = true ∧ s.mem.all (fun c => inMem s.memMap c.1) = true

theorem stateInv_iff (s : State) :
    stateInv s = true ↔ MemInv s ∧ unitInv s.core = true ∧ s.peers.all unitInv = true := by
  simp only [stateInv, MemInv, units, Bool.and_eq_true, List.all_cons]

/-- The invariant does not depend on the order of the instances. -/
theorem stateInv_swapUnit (j : Nat) (s : State) : stateInv (swapUnit j s) = stateInv s := by
  simp only [stateInv, swapUnit_mem, swapUnit_memMap, units_all_swapUnit]

/-- A transition of instance 0 that keeps the invariant keeps it as a transition of any instance. -/
theorem stateInv_onUnit {k : Nat} {f : State → Host.Outcome State Fault Refusal} {s t : State}
    (hf : ∀ u v, stateInv u = true → f u = .next v → stateInv v = true) (hs : stateInv s = true)
    (h : onUnit k f s = .next t) : stateInv t = true := by
  rcases onUnit_next h with hfs | ⟨j, u, -, hfu, rfl⟩ | rfl
  · exact hf s t hs hfs
  · rw [stateInv_swapUnit]
    exact hf _ u (by rwa [stateInv_swapUnit]) hfu
  · exact hs

theorem memInv_setMem_memWrite {s : State} {a n : Nat} (v : Nat) (h : MemInv s) (hspan : spanInMem s.memMap a n = true) :
    MemInv (setMem (memWrite s.mem a n v) s) := by
  obtain ⟨hwf, hbacked⟩ := h
  exact ⟨memWf_memWrite a n v hwf, all_memWrite (fun x => inMem s.memMap x) hbacked
    fun k hk => inMem_of_span hspan (by omega) (by omega)⟩

/-- A command writes backed bytes only, by check 8. -/
theorem memInv_finish_effectOf {i : Instr} {s : State} (h : MemInv s) (hpass : checks i s = .pass)
    (haccess : accessible i s = true) : MemInv (finish .ok (effectOf i s)) := by
  obtain ⟨hwf, hbacked⟩ := h
  obtain ⟨-, hmap, -⟩ := effectOf_environment i s
  unfold MemInv
  rw [finish_mem, finish_memMap, hmap, effectOf_mem]
  exact ⟨memWf_putAll _ hwf, all_putAll (fun x => inMem s.memMap x) hbacked (writesOf_inMem hpass haccess)⟩

theorem stateInv_finish (code : CompletionCode) {s : State} (h : stateInv s = true) : stateInv (finish code s) = true := by
  obtain ⟨hmem, hcore, hpeers⟩ := (stateInv_iff s).mp h
  exact (stateInv_iff _).mpr
    ⟨hmem, unitInv_unitFinish code (reservedZero_of_unitInv hcore) (lengthsFit_of_unitInv hcore), hpeers⟩

theorem stateInv_exec {i : Instr} {s t : State} (hs : stateInv s = true) (h : exec i s = .next t) : stateInv t = true := by
  rcases exec_next_cases h with ⟨hpass, haccess, rfl⟩ | ⟨code, -, rfl⟩ | ⟨r, -, -, rfl⟩
  · obtain ⟨hmem, hcore, hpeers⟩ := (stateInv_iff s).mp hs
    obtain ⟨hpeersSame, -⟩ := effectOf_environment i s
    refine (stateInv_iff _).mpr ⟨memInv_finish_effectOf hmem hpass haccess, unitInv_finish_effectOf i hcore, ?_⟩
    rwa [finish_peers, hpeersSame]
  · exact stateInv_finish code hs
  · exact hs

theorem stateInv_engineStep (s t : State) (hs : stateInv s = true) (h : engineStep s = .next t) : stateInv t = true := by
  rcases engineStep_cases s with ⟨-, he⟩ | ⟨w, e, -, -, he⟩ | ⟨w, i, -, -, he⟩ <;> rw [he] at h
  · cases h; exact hs
  · cases h; exact stateInv_finish .illegalCmd hs
  · rcases settle_next h with hexec | ⟨-, rfl⟩
    · exact stateInv_exec hs hexec
    · exact hs

/-! ### The reset of an instance (70_reset_and_hazards R190, R191) -/

@[simp] theorem resetUnit_core (s : State) : (resetUnit s).core = .reset s.core.base := (rfl)

theorem resetUnit_mem (s : State) :
    (resetUnit s).mem = (drawBytes (writtenBytes (runningRegions s.core)) (noteAbandoned s)).mem := (rfl)

theorem resetUnit_draws (s : State) :
    (resetUnit s).draws = (drawBytes (writtenBytes (runningRegions s.core)) (noteAbandoned s)).draws := (rfl)

@[simp] theorem resetUnit_peers (s : State) : (resetUnit s).peers = s.peers := by
  obtain ⟨-, hpeers, -⟩ := drawBytes_frame (writtenBytes (runningRegions s.core)) (noteAbandoned s)
  exact hpeers.trans (noteAbandoned_peers s)

@[simp] theorem resetUnit_memMap (s : State) : (resetUnit s).memMap = s.memMap := by
  obtain ⟨-, -, hmap, -⟩ := drawBytes_frame (writtenBytes (runningRegions s.core)) (noteAbandoned s)
  exact hmap.trans (noteAbandoned_memMap s)

theorem resetUnit_mark (s : State) : (resetUnit s).mark = (noteAbandoned s).mark := by
  obtain ⟨-, -, -, hmark, -⟩ := drawBytes_frame (writtenBytes (runningRegions s.core)) (noteAbandoned s)
  exact hmark

theorem memInv_resetUnit {s : State} (h : MemInv s) : MemInv (resetUnit s) := by
  obtain ⟨hwf, hbacked⟩ := h
  unfold MemInv
  rw [resetUnit_mem, resetUnit_memMap, ← noteAbandoned_memMap]
  exact ⟨memWf_drawBytes _ (by simpa using hwf), all_drawBytes _ (by simpa using hbacked)⟩

theorem stateInv_resetUnit {s : State} (hs : stateInv s = true) : stateInv (resetUnit s) = true := by
  obtain ⟨hmem, -, hpeers⟩ := (stateInv_iff s).mp hs
  exact (stateInv_iff _).mpr ⟨memInv_resetUnit hmem, unitInv_reset _, by rwa [resetUnit_peers]⟩

/-! ### The host -/

/-- Replacing an instance by one that meets the invariant keeps it. -/
theorem stateInv_setUnit (k : Nat) {c : CoreUnit} {s : State} (hs : stateInv s = true) (hc : unitInv c = true) :
    stateInv (setUnit k c s) = true := by
  obtain ⟨hmem, hcore, hpeers⟩ := (stateInv_iff s).mp hs
  cases k with
  | zero => exact (stateInv_iff _).mpr ⟨hmem, hc, hpeers⟩
  | succ j =>
    refine (stateInv_iff _).mpr ⟨hmem, hcore, List.all_eq_true.mpr fun x hx => ?_⟩
    rcases List.mem_or_eq_of_mem_set hx with hx | rfl
    · exact List.all_eq_true.mp hpeers x hx
    · exact hc

theorem stateInv_busStore {s t : State} {addr : Nat} {size : AccessSize} {v : Word} (hs : stateInv s = true)
    (h : busStore s addr size v = .ok t) : stateInv t = true := by
  rcases busStore_ok h with ⟨k, c, hk, hwrite, rfl⟩ | ⟨-, hspan, rfl⟩
  · have hunits : (units s).all unitInv = true := by
      simp only [stateInv, Bool.and_eq_true] at hs
      exact hs.2
    have hunit : unitInv ((units s).getD k s.core) = true := by
      rw [List.getD_eq_getElem _ _ hk]
      exact List.all_eq_true.mp hunits _ (List.getElem_mem hk)
    exact stateInv_setUnit k hs (unitInv_unitWrite hunit hwrite)
  · obtain ⟨hmem, hunits⟩ := (stateInv_iff s).mp hs
    exact (stateInv_iff _).mpr ⟨memInv_setMem_memWrite _ hmem hspan, hunits⟩

theorem stateInv_hostTurn {s t : State} (hs : stateInv s = true) (h : hostTurn s = .next t) : stateInv t = true := by
  rcases hostTurn_next h with rfl | ⟨op, hop⟩
  · exact hs
  · rcases hostOp_next hop with ⟨u, addr, size, v, hstore, rfl⟩ | ⟨i, vs, addr, size, rfl⟩ | ⟨i, vs, rfl⟩ | ⟨n, rfl⟩
      | ⟨r, -, rfl⟩
    · have hu : stateInv u = true := stateInv_busStore hs hstore
      exact hu
    · simpa [stateInv, units] using hs
    · exact hs
    · exact hs
    · exact hs

/-- Settles O48: each of the three agents keeps the invariant, the engine and the reset as transitions of any instance. -/
theorem stepKeepsTheInvariant : Obligations.StepKeepsTheInvariant := by
  intro s t hs hstep
  have hdrop : stateInv (dropTurn s) = true := hs
  rcases step_next hstep with ⟨k, -, hengine⟩ | ⟨-, hhost⟩ | ⟨k, hreset⟩
  · exact stateInv_onUnit stateInv_engineStep hdrop hengine
  · exact stateInv_hostTurn hdrop hhost
  · refine stateInv_onUnit (fun u v hu hv => ?_) hdrop hreset
    cases hv
    exact stateInv_resetUnit hu

/-- Settles O47: the memory lists nothing, and the one instance is a reset one. -/
theorem invariantHoldsAtReset : Obligations.InvariantHoldsAtReset :=
  (stateInv_iff _).mpr ⟨⟨rfl, rfl⟩, unitInv_reset 0, rfl⟩

end Sys2Proof.Machine
end

section
/-! SUPPORT. The arithmetic laws of 40_accumulator R110, and the accumulators of CONV.P and MATMUL.C as exact sums
(41_convolution and 42_matmul, section 4): no sum of at most 65535 products of elements reaches the ends of 64 bits. -/

namespace Sys2Proof.Machine

/-! ### Registers that store all their bits (30_encoding R73) -/

/-- Every register but the two lengths stores all 32 bits. -/
theorem and_storedBits_of_full {d : DataReg} (hA : d ≠ .lenA) (hB : d ≠ .lenB) (v : Word) : v &&& storedBits d = v := by
  have hfull : storedBits d = BitVec.allOnes 32 := by
    cases d with
    | lenA => exact absurd rfl hA
    | lenB => exact absurd rfl hB
    | _ => rfl
  rw [hfull, BitVec.and_allOnes]

/-! ### The paired multiply-accumulate (R110(b)) -/

/-- The state with lane 1 of `x` and of `y` as the operands, each in lane 0 of its register. -/
def withUpperHalves (x y : Word) (u : State) : State :=
  setReg .opb (BitVec.ofNat 32 (y.toNat / 65536)) (setReg .opa (BitVec.ofNat 32 (x.toNat / 65536)) u)

theorem laneLo_upperHalf (n : Nat) (x : Word) : laneLo n (BitVec.ofNat 32 (x.toNat / 65536)) = laneHi n x := by
  have hx := x.isLt
  unfold laneLo laneHi
  congr 1
  apply BitVec.eq_of_toNat_eq
  simp only [BitVec.extractLsb'_toNat, BitVec.toNat_ofNat, Nat.shiftRight_eq_div_pow]
  omega

section
variable (x y : Word) (u : State)

theorem regVal_withUpperHalves_opa : regVal (withUpperHalves x y u) .opa = BitVec.ofNat 32 (x.toNat / 65536) := by
  simp [withUpperHalves, regVal_setReg, and_storedBits_of_full]

theorem regVal_withUpperHalves_opb : regVal (withUpperHalves x y u) .opb = BitVec.ofNat 32 (y.toNat / 65536) := by
  simp [withUpperHalves, regVal_setReg, and_storedBits_of_full]

theorem regVal_withUpperHalves_accLo : regVal (withUpperHalves x y u) .accLo = regVal u .accLo := by
  simp [withUpperHalves, regVal_setReg]

theorem regVal_withUpperHalves_accHi : regVal (withUpperHalves x y u) .accHi = regVal u .accHi := by
  simp [withUpperHalves, regVal_setReg]

theorem accBits_withUpperHalves : accBits (withUpperHalves x y u) = accBits u := by
  rw [accBits, accBits, regVal_withUpperHalves_accLo, regVal_withUpperHalves_accHi]

variable {u}

/-- A command that has written the accumulator leaves a scalar command with the upper halves ready to run. -/
theorem unitWritten_withUpperHalves (hacc : unitWritten u.core [.accLo, .accHi] = true) :
    unitWritten (withUpperHalves x y u).core [.opa, .opb, .accLo, .accHi] = true := by
  simpa [unitWritten, withUpperHalves, regGet_regSet] using hacc

end

/-- An accumulator whose high word is the sign of its low word is known by its low word. -/
theorem accBits_eq_of_accLo {t v : State} (ht : regVal t .accHi = if (regVal t .accLo).msb then 0xFFFFFFFF#32 else 0#32)
    (hv : regVal v .accHi = if (regVal v .accLo).msb then 0xFFFFFFFF#32 else 0#32) (h : regVal t .accLo = regVal v .accLo) :
    accBits t = accBits v := by
  rw [accBits, accBits, ht, hv, h]

/-- The 32-bit paired rule is two scalar rules. -/
theorem accBits_dmacWEffect_eq_macW (s : State) :
    accBits (dmacWEffect s)
      = accBits (macWEffect (withUpperHalves (regVal s .opa) (regVal s .opb) (finish .ok (macWEffect s)))) := by
  obtain ⟨hpairLo, hpairHi⟩ := dmacWEffect_words s
  obtain ⟨hfirst, -⟩ := macWEffect_words s
  obtain ⟨hsecondLo, hsecondHi⟩ :=
    macWEffect_words (withUpperHalves (regVal s .opa) (regVal s .opb) (finish .ok (macWEffect s)))
  refine accBits_eq_of_accLo hpairHi hsecondHi ?_
  rw [hpairLo, hsecondLo, regVal_withUpperHalves_accLo, regVal_withUpperHalves_opa, regVal_withUpperHalves_opb,
    laneLo_upperHalf, laneLo_upperHalf, regVal_finish, hfirst, BitVec.add_assoc]

/-- The 64-bit paired rule is two scalar rules. -/
theorem accBits_dmacDEffect_eq_macD (s : State) :
    accBits (dmacDEffect s)
      = accBits (macDEffect (withUpperHalves (regVal s .opa) (regVal s .opb) (finish .ok (macDEffect s)))) := by
  rw [accBits_dmacDEffect, accBits_macDEffect, accBits_withUpperHalves, regVal_withUpperHalves_opa,
    regVal_withUpperHalves_opb, laneLo_upperHalf, laneLo_upperHalf, accBits_finish, accBits_macDEffect, BitVec.add_assoc]

/-- Fewer registers are written where more are. -/
theorem unitWritten_of_subset {c : CoreUnit} {ds es : List DataReg} (hsub : ds ⊆ es) (h : unitWritten c es = true) :
    unitWritten c ds = true := by
  rw [unitWritten, List.all_eq_true] at h ⊢
  exact fun d hd => h d (hsub hd)

/-- A paired command and the two scalar ones all complete, from the one fact about their rules. -/
theorem paired_runs {pair scalar : Instr} {s : State}
    (hpair : baseRegs pair = [] ∧ regions pair s.core = [] ∧ readRegs pair ⊆ [.opa, .opb, .accLo, .accHi])
    (hscalar : baseRegs scalar = [] ∧ (∀ c, regions scalar c = []) ∧ readRegs scalar ⊆ [.opa, .opb, .accLo, .accHi]
      ∧ writtenRegs scalar = [.accLo, .accHi])
    (hrule : accBits (effectOf pair s) = accBits (effectOf scalar (withUpperHalves (regVal s .opa) (regVal s .opb)
      (finish .ok (effectOf scalar s)))))
    (hw : unitWritten s.core [.opa, .opb, .accLo, .accHi] = true) :
    ∃ t u v, exec pair s = .next t ∧ exec scalar s = .next u
      ∧ exec scalar (withUpperHalves (regVal s .opa) (regVal s .opb) u) = .next v ∧ accBits t = accBits v := by
  obtain ⟨hpairBase, hpairRegions, hpairReads⟩ := hpair
  obtain ⟨hbase, hregions, hreads, hwrites⟩ := hscalar
  have hacc : unitWritten (finish .ok (effectOf scalar s)).core [.accLo, .accHi] = true :=
    hwrites ▸ effectOf_written scalar s
  exact ⟨_, _, _, exec_of_ready (ready_primitive hpairRegions hpairBase (unitWritten_of_subset hpairReads hw)),
    exec_of_ready (ready_primitive (hregions _) hbase (unitWritten_of_subset hreads hw)),
    exec_of_ready (ready_primitive (hregions _) hbase
      (unitWritten_of_subset hreads (unitWritten_withUpperHalves _ _ hacc))), hrule⟩

/-- Settles O14: the sum of the two lane products is added in one or in two additions. -/
theorem pairedMacIsTwoScalarMacs : Obligations.PairedMacIsTwoScalarMacs := fun s hw =>
  ⟨paired_runs (pair := .dmacW) (scalar := .macW) ⟨rfl, rfl, by decide⟩ ⟨rfl, fun _ => rfl, by decide, rfl⟩
      (accBits_dmacWEffect_eq_macW s) hw,
    paired_runs (pair := .dmacD) (scalar := .macD) ⟨rfl, rfl, by decide⟩ ⟨rfl, fun _ => rfl, by decide, rfl⟩
      (accBits_dmacDEffect_eq_macD s) hw⟩

/-! ### Sums of products (R110(a), (c)) -/

theorem foldl_mac32 (l : List (Int × Int)) (acc : Int) :
    l.foldl (fun x p => mac32 x p.1 p.2) (sN 32 acc) = sN 32 (acc + (l.map fun p => p.1 * p.2).sum) :=
  foldl_sN (by omega) (fun p : Int × Int => p.1 * p.2) l acc

theorem foldl_mac64 (l : List (Int × Int)) (acc : Int) :
    l.foldl (fun x p => mac64 x p.1 p.2) (sN 64 acc) = sN 64 (acc + (l.map fun p => p.1 * p.2).sum) :=
  foldl_sN (by omega) (fun p : Int × Int => p.1 * p.2) l acc

/-- The exact sum does not depend on the order of the products. -/
theorem sum_products_of_perm {l l' : List (Int × Int)} (h : l.Perm l') :
    (l.map fun p => p.1 * p.2).sum = (l'.map fun p => p.1 * p.2).sum :=
  (h.map _).sum_eq

/-- A product of two Q15 values lies between `-2^30` and `2^30` (00_scope R14). -/
theorem abs_mul_le_of_q15 {x y : Int} (hx : -32768 ≤ x ∧ x ≤ 32767) (hy : -32768 ≤ y ∧ y ≤ 32767) : |x * y| ≤ 2 ^ 30 := by
  have habsx : |x| ≤ 2 ^ 15 := abs_le.mpr ⟨by omega, by omega⟩
  have habsy : |y| ≤ 2 ^ 15 := abs_le.mpr ⟨by omega, by omega⟩
  calc |x * y| = |x| * |y| := abs_mul x y
    _ ≤ 2 ^ 15 * 2 ^ 15 := mul_le_mul habsx habsy (abs_nonneg y) (by norm_num)
    _ = 2 ^ 30 := by norm_num

theorem abs_sum_products_le {l : List (Int × Int)}
    (h : ∀ p ∈ l, -32768 ≤ p.1 ∧ p.1 ≤ 32767 ∧ -32768 ≤ p.2 ∧ p.2 ≤ 32767) :
    |(l.map fun p => p.1 * p.2).sum| ≤ l.length * 2 ^ 30 := by
  induction l with
  | nil => simp
  | cons p l ih =>
    obtain ⟨hp, hl⟩ := List.forall_mem_cons.mp h
    have hprod := abs_mul_le_of_q15 ⟨hp.1, hp.2.1⟩ hp.2.2
    calc |((p :: l).map fun p => p.1 * p.2).sum| ≤ |p.1 * p.2| + |(l.map fun p => p.1 * p.2).sum| := by
          simpa using abs_add_le (p.1 * p.2) _
      _ ≤ 2 ^ 30 + l.length * 2 ^ 30 := add_le_add hprod (ih hl)
      _ = (p :: l).length * 2 ^ 30 := by push_cast [List.length_cons]; ring

/-- A sum inside the 64-bit range is not wrapped. -/
theorem sN64_of_abs_lt {x : Int} (h : |x| < 2 ^ 63) : sN 64 x = x := by
  obtain ⟨hlo, hhi⟩ := abs_lt.mp h
  exact sN_of_range (by omega) ⟨hlo.le, hhi⟩

/-- Settles O15: a sum that wraps at every step is the wrapped exact sum, and the rest are the laws of the narrowings. -/
theorem accumulatorArithmeticLaws : Obligations.AccumulatorArithmeticLaws := by
  refine ⟨fun l l' acc hperm => ?_, fun l hlen hq15 => ?_, narrowFast_eq_bits,
    fun t hlo hhi => ⟨narrowFast_of_inRange hlo hhi, narrowPrecise_of_inRange hlo hhi⟩,
    ⟨by decide, narrowPrecise_of_ge le_rfl (by norm_num)⟩, fun t hlo hhi => narrowPrecise_of_fits hlo hhi⟩
  · simp only [foldl_mac32, foldl_mac64, sum_products_of_perm hperm, and_self]
  · have hfold := foldl_mac64 l 0
    have hbound := abs_sum_products_le hq15
    rw [sN_zero (by omega), zero_add] at hfold
    rw [hfold, sN64_of_abs_lt (by omega)]

/-! ### The 64-bit accumulators of the kernels -/

/-- A 64-bit accumulation of at most 65535 terms, each at most `2^31` in magnitude, is the exact sum and far from its ends. -/
theorem foldl_sN64_exact (f : Nat → Int) {n : Nat} {B : Int} (hn : n ≤ 65535) (hB : B ≤ 2 ^ 31) (hf : ∀ k, |f k| ≤ B) :
    (List.range n).foldl (fun acc k => sN 64 (acc + f k)) 0 = ∑ k ∈ Finset.range n, f k
      ∧ |∑ k ∈ Finset.range n, f k| < 2 ^ 47 := by
  have hbound : |∑ k ∈ Finset.range n, f k| < 2 ^ 47 := by
    have := abs_sum_le_mul f n (2 ^ 31) fun k => (hf k).trans hB
    omega
  have hfold := foldl_sN (n := 64) (by omega) f (List.range n) 0
  rw [sN_zero (by omega), zero_add, sum_map_range, sN64_of_abs_lt (hbound.trans (by norm_num))] at hfold
  exact ⟨hfold, hbound⟩

/-- Settles O22: at most 65535 products, each at most `2^30` in magnitude. -/
theorem preciseAccumulatorIsExact : Obligations.PreciseAccumulatorIsExact := by
  intro m s1 s2 L n hL
  obtain ⟨hexact, hbound⟩ := foldl_sN64_exact (fun i => q m (s2 + 2 * i) * q m (s1 + 2 * (n + i))) hL (by norm_num)
    fun i => abs_q_mul_q_le m _ _
  have hacc : convAcc64 m s1 s2 L n = ∑ i ∈ Finset.range L, q m (s2 + 2 * i) * q m (s1 + 2 * (n + i)) := hexact
  exact ⟨hacc, hacc ▸ hbound⟩

/-- The complex terms are at most `2^31` in magnitude (R155). -/
theorem abs_cplx_le (m : Memory) (x y z w : Nat) :
    |q m x * q m y - q m z * q m w| ≤ 2 ^ 31 ∧ |q m x * q m y + q m z * q m w| ≤ 2 ^ 31 := by
  have hleft := abs_le.mp (abs_q_mul_q_le m x y)
  have hright := abs_le.mp (abs_q_mul_q_le m z w)
  constructor <;> rw [abs_le] <;> omega

/-- The real accumulator is the exact sum over the scratch row (R155). -/
theorem dotAccRe_exact (m : Memory) (a t : Nat) {ac : Nat} (br i j : Nat) (hac : ac ≤ 65535) :
    dotAccRe m a t ac br i j
        = ∑ k ∈ Finset.range ac, (reAt m a ac i k * reAt m t br j k - imAt m a ac i k * imAt m t br j k)
      ∧ |dotAccRe m a t ac br i j| < 2 ^ 47 := by
  obtain ⟨hexact, hbound⟩ := foldl_sN64_exact
    (fun k => reAt m a ac i k * reAt m t br j k - imAt m a ac i k * imAt m t br j k) hac le_rfl
    fun k => (abs_cplx_le m _ _ _ _).1
  have hacc : dotAccRe m a t ac br i j = _ := hexact
  exact ⟨hacc, hacc ▸ hbound⟩

/-- The imaginary accumulator is the exact sum over the scratch row (R155). -/
theorem dotAccIm_exact (m : Memory) (a t : Nat) {ac : Nat} (br i j : Nat) (hac : ac ≤ 65535) :
    dotAccIm m a t ac br i j
        = ∑ k ∈ Finset.range ac, (reAt m a ac i k * imAt m t br j k + imAt m a ac i k * reAt m t br j k)
      ∧ |dotAccIm m a t ac br i j| < 2 ^ 47 := by
  obtain ⟨hexact, hbound⟩ := foldl_sN64_exact
    (fun k => reAt m a ac i k * imAt m t br j k + imAt m a ac i k * reAt m t br j k) hac le_rfl
    fun k => (abs_cplx_le m _ _ _ _).2
  have hacc : dotAccIm m a t ac br i j = _ := hexact
  exact ⟨hacc, hacc ▸ hbound⟩

/-- Settles O27: at most 65535 complex terms, each at most `2^31` in magnitude. -/
theorem complexAccumulatorsAreExact : Obligations.ComplexAccumulatorsAreExact := fun m a t _ br i j hac =>
  ⟨(dotAccRe_exact m a t br i j hac).1, (dotAccIm_exact m a t br i j hac).1, (dotAccRe_exact m a t br i j hac).2,
    (dotAccIm_exact m a t br i j hac).2⟩

end Sys2Proof.Machine
end

section
/-! SUPPORT. The kernel commands (41_convolution R132 to R134, R137; 42_matmul R152 to R155): what a ready one completes with,
and what its scratch buffers still hold when its outputs are stored, since check 7 keeps the two apart (20_memory R58). -/

namespace Sys2Proof.Machine

/-- A command whose checks pass and that writes no register completes as a kernel command does (R59, R172). -/
theorem completedKernel_of_ready {i : Instr} {s : State} (hw : writtenRegs i = []) (h : Ready i s) :
    CompletedKernel i s (finish .ok (effectOf i s)) := by
  have ⟨_, hpass, _⟩ := h
  obtain ⟨hstatus, hcmd, hbase, -⟩ := effectOf_unit i s
  have hregs : RegsSameBut [] s (effectOf i s) := hw ▸ effectOf_regs i s
  exact ⟨finished_finish .ok hstatus hcmd hbase, hregs, effectOf_environment i s, effectOf_bytes hpass⟩

/-- Two regions of a ready command, one of them written, do not conflict (R58). -/
theorem noConflict_of_ready {i : Instr} {s : State} (h : Ready i s) {j k : Nat} (hjk : j < k)
    (hk : k < (regions i s.core).length) : conflict (regions i s.core)[j] (regions i s.core)[k] = false := by
  obtain ⟨-, hpass, -⟩ := h
  obtain ⟨-, -, -, -, -, hself, -⟩ := (checks_pass_iff i s).mp hpass
  exact List.pairwise_iff_getElem.mp ((selfConflict_false_iff_pairwise _).mp hself) j k _ hk hjk

/-- An element of one region is not touched by a phase that writes in another one that does not conflict. -/
theorem q_putAll_of_noConflict {m : Memory} {es : List (Nat × Int)} {p x t y a : Nat} {b : Bool}
    (h : conflict ⟨p, x, b⟩ ⟨t, y, true⟩ = false) (hes : ∀ e ∈ es, t ≤ e.1 ∧ e.1 + 2 ≤ t + y) (hlo : p ≤ a)
    (hhi : a + 2 ≤ p + x) : q (putAll m es) a = q m a := by
  refine q_putAll_outside fun e he => ?_
  have happart := apart_of_noConflict h (.inr rfl)
  have hbounds := hes e he
  dsimp only at happart
  omega

/-! ### The convolutions -/

/-- A sum below `2^47` in magnitude is shifted and saturated, not wrapped. -/
theorem narrowPrecise_of_abs_lt {t : Int} (h : |t| < 2 ^ 47) : narrowPrecise t = sat16 (t / 2 ^ 15) := by
  obtain ⟨hlo, hhi⟩ := abs_lt.mp h
  rw [narrowPrecise_of_fits (by omega) (by omega), asr]

/-- Settles O16: a ready CONV.F stores the narrowed sums of R131. -/
theorem convFStoresTheTruncatedSums : Obligations.ConvFStoresTheTruncatedSums := by
  refine ⟨decode_encode .convF, fun s => ⟨outcomeByChecks .convF s, fun hm h => ?_⟩⟩
  exact ⟨_, exec_of_ready h, completedKernel_of_ready rfl h, fun n hn => q_effectOf_convF hm h hn⟩

/-- The memory of CONV.P after its scratch preparation (R133). -/
def convScratch (s : State) : Memory :=
  convPScratch s.mem (unitAddr s.core .srcA) (unitAddr s.core .srcB) (unitAddr s.core .scr1) (unitAddr s.core .scr2)
    (lenAOf s.core) (lenBOf s.core)

/-- The two phases of CONV.P (R133, R134). -/
theorem effectOf_convP_mem (s : State) :
    (effectOf .convP s).mem = putAll (convScratch s) (convPWrites (convScratch s) (unitAddr s.core .scr1)
      (unitAddr s.core .scr2) (unitAddr s.core .dst) (lenAOf s.core) (lenBOf s.core)) := (rfl)

theorem convPWrites_inDst {m : Memory} {s1 s2 dst lenA lenB : Nat} {e : Nat × Int}
    (he : e ∈ convPWrites m s1 s2 dst lenA lenB) : dst ≤ e.1 ∧ e.1 + 2 ≤ dst + 2 * convN lenA lenB := by
  obtain ⟨n, hn, rfl⟩ := List.mem_map.mp he
  rw [List.mem_range] at hn
  dsimp only
  omega

section
variable {s : State} (hm : memWf s.mem = true) (h : Ready .convP s)
include hm h

/-- Scratch buffer 1 of a ready CONV.P holds the padded longer sequence when the outputs are stored (R133). -/
theorem q_scr1_effectOf_convP {p : Nat} (hp : p < min (lenAOf s.core) (lenBOf s.core) - 1
      + max (lenAOf s.core) (lenBOf s.core) + (min (lenAOf s.core) (lenBOf s.core) - 1)) :
    q (effectOf .convP s).mem (unitAddr s.core .scr1 + 2 * p)
      = padElem s.mem (if lenBOf s.core ≤ lenAOf s.core then unitAddr s.core .srcA else unitAddr s.core .srcB)
          (min (lenAOf s.core) (lenBOf s.core)) (max (lenAOf s.core) (lenBOf s.core)) p := by
  obtain ⟨hA, hB⟩ := lengths_pos_of_ready rfl h
  have happart := scratch_apart_of_ready h
  have hdst : conflict ⟨unitAddr s.core .scr1,
        2 * (convM (lenAOf s.core) (lenBOf s.core) + 2 * convL (lenAOf s.core) (lenBOf s.core) - 2), true⟩
      ⟨unitAddr s.core .dst, 2 * convN (lenAOf s.core) (lenBOf s.core), true⟩ = false :=
    (conflict_comm _ _).trans (noConflict_of_ready h (j := 2) (k := 3) (by omega) (by simp [regions, convPRegions]))
  unfold convM convL at happart
  rw [effectOf_convP_mem, q_putAll_of_noConflict hdst (fun e he => convPWrites_inDst he) (by omega)
    (by unfold convM convL; omega), convScratch, convPScratch_eq, q_scratchMem_padded hm (by omega) hp]

/-- Scratch buffer 2 of a ready CONV.P holds the reversed shorter sequence when the outputs are stored (R133). -/
theorem q_scr2_effectOf_convP {i : Nat} (hi : i < min (lenAOf s.core) (lenBOf s.core)) :
    q (effectOf .convP s).mem (unitAddr s.core .scr2 + 2 * i)
      = q s.mem ((if lenBOf s.core ≤ lenAOf s.core then unitAddr s.core .srcB else unitAddr s.core .srcA)
          + 2 * (min (lenAOf s.core) (lenBOf s.core) - 1 - i)) := by
  have hdst : conflict ⟨unitAddr s.core .scr2, 2 * convL (lenAOf s.core) (lenBOf s.core), true⟩
      ⟨unitAddr s.core .dst, 2 * convN (lenAOf s.core) (lenBOf s.core), true⟩ = false :=
    (conflict_comm _ _).trans (noConflict_of_ready h (j := 2) (k := 4) (by omega) (by simp [regions, convPRegions]))
  rw [effectOf_convP_mem, q_putAll_of_noConflict hdst (fun e he => convPWrites_inDst he) (by omega) (by unfold convL; omega),
    convScratch, convPScratch_eq, q_scratchMem_reversed hm hi]

/-- Every sum fits the 64-bit accumulator, so the narrowing of R134 saturates the shifted exact sum. -/
theorem q_dst_effectOf_convP {n : Nat} (hn : n < convN (lenAOf s.core) (lenBOf s.core)) :
    q (effectOf .convP s).mem (unitAddr s.core .dst + 2 * n)
      = sat16 (exactConv s.mem (unitAddr s.core .srcA) (unitAddr s.core .srcB) (lenAOf s.core) (lenBOf s.core) n
          / 2 ^ 15) := by
  obtain ⟨-, hB⟩ := lengths_pos_of_ready rfl h
  rw [q_effectOf_convP hm h hn, narrowPrecise_of_abs_lt (abs_exactConv_lt s.mem _ _ (lenAOf_lt s.core) hB n)]

end

/-- Settles O17: the scratch preparation of R133 outlasts the outputs, which are the saturated sums of R131. -/
theorem convPStoresTheSaturatedSums : Obligations.ConvPStoresTheSaturatedSums := by
  refine ⟨decode_encode .convP, fun s => ⟨outcomeByChecks .convP s, fun hm h => ?_⟩⟩
  refine ⟨_, exec_of_ready h, completedKernel_of_ready rfl h, fun n hn => q_dst_effectOf_convP hm h hn,
    fun i hi => ⟨?_, ?_⟩, fun j hj => ?_, fun i hi => q_scr2_effectOf_convP hm h hi⟩
  · exact (q_scr1_effectOf_convP hm h (by omega)).trans (if_neg (by omega))
  · exact (q_scr1_effectOf_convP hm h (by omega)).trans (if_neg (by omega))
  · refine (q_scr1_effectOf_convP hm h (by omega)).trans ((if_pos (by omega)).trans ?_)
    rw [Nat.add_sub_cancel_left]

/-- Settles O18: either command stores a narrowing of the sums of R131, which are commutative. -/
theorem convolutionCommutes : Obligations.ConvolutionCommutes := by
  intro i s u hi hm hs hu hmem hsrcA hsrcB hlenA hlenB hdst
  have haddrA : unitAddr u.core .srcA = unitAddr s.core .srcB := congrArg BitVec.toNat hsrcA
  have haddrB : unitAddr u.core .srcB = unitAddr s.core .srcA := congrArg BitVec.toNat hsrcB
  have hA : lenAOf u.core = lenBOf s.core := congrArg lowHalf hlenA
  have hB : lenBOf u.core = lenAOf s.core := congrArg lowHalf hlenB
  have haddrDst : unitAddr u.core .dst = unitAddr s.core .dst := congrArg BitVec.toNat hdst
  have hmu : memWf u.mem = true := hmem ▸ hm
  refine ⟨_, _, exec_of_ready hs, exec_of_ready hu, fun n hn => ?_⟩
  have hnu : n < convN (lenAOf u.core) (lenBOf u.core) := by rw [hA, hB, convN]; omega
  rw [finish_mem, finish_mem]
  rcases hi with rfl | rfl
  · have hu_out := q_effectOf_convF hmu hu hnu
    rw [haddrA, haddrB, haddrDst, hA, hB, hmem, exactConv_comm] at hu_out
    exact (q_effectOf_convF hm hs hn).trans hu_out.symm
  · have hu_out := q_effectOf_convP hmu hu hnu
    rw [haddrA, haddrB, haddrDst, hA, hB, hmem, exactConv_comm] at hu_out
    exact (q_effectOf_convP hm hs hn).trans hu_out.symm

/-! ### The real matrix product -/

/-- The outputs of MATMUL.F lie in `dst` (R57). -/
theorem matmulFWrites_inDst {m : Memory} {a t dst ar ac br bc dc : Nat} {e : Nat × Int} (hcols : bc ≤ dc)
    (he : e ∈ matmulFWrites m a t dst ar ac br bc dc) : dst ≤ e.1 ∧ e.1 + 2 ≤ dst + 2 * (ar * dc) := by
  simp only [matmulFWrites, List.mem_flatMap, List.mem_map, List.mem_range] at he
  obtain ⟨i, hi, j, hj, rfl⟩ := he
  have := index_lt hi (hj.trans_le hcols)
  dsimp only
  omega

/-- The scratch of a ready MATMUL.F holds `B` transposed when the outputs are stored (R152). -/
theorem q_scr1_effectOf_matmulF {s : State} (hm : memWf s.mem = true) (h : Ready .matmulF s) {k j : Nat}
    (hk : k < bRows s.core) (hj : j < bCols s.core) :
    q (effectOf .matmulF s).mem (unitAddr s.core .scr1 + 2 * (j * bRows s.core + k))
      = q s.mem (unitAddr s.core .srcB + 2 * (k * bCols s.core + j)) := by
  obtain ⟨-, hrows, hcols⟩ := sizes_of_ready rfl h
  have hindex := index_lt hj hk
  rw [Nat.mul_comm (bCols s.core)] at hindex
  have hdst : conflict ⟨unitAddr s.core .scr1, 2 * (bRows s.core * bCols s.core), true⟩
      ⟨unitAddr s.core .dst, 2 * (dRows s.core * dCols s.core), true⟩ = false :=
    noConflict_of_ready h (j := 2) (k := 3) (by omega) (by simp [regions, matmulRegions])
  rw [effectOf_matmulF_mem, q_putAll_of_noConflict hdst (fun e he => hrows ▸ matmulFWrites_inDst hcols.le he) (by omega)
    (by omega), realScratch, q_transposeWrites _ _ hm hk hj]

/-- Settles O23: the transposition outlasts the outputs, which are the narrowed exact products. -/
theorem matmulFStoresTheTruncatedProduct : Obligations.MatmulFStoresTheTruncatedProduct := by
  refine ⟨decode_encode .matmulF, fun s => ⟨outcomeByChecks .matmulF s, fun hm h => ?_⟩⟩
  exact ⟨_, exec_of_ready h, completedKernel_of_ready rfl h, fun k hk j hj => q_scr1_effectOf_matmulF hm h hk hj,
    fun i hi j hj => q_effectOf_matmulF hm h hi hj⟩

/-! ### The complex matrix product -/

/-- The complex transposition writes inside the scratch (R57). -/
theorem transposeWritesC_inScratch {m : Memory} {b t br bc : Nat} {e : Nat × Int} (he : e ∈ transposeWritesC m b t br bc) :
    t ≤ e.1 ∧ e.1 + 2 ≤ t + 4 * (br * bc) := by
  simp only [transposeWritesC, List.mem_flatMap, List.mem_map, List.mem_range] at he
  obtain ⟨k, hk, j, hj, c, hc, rfl⟩ := he
  have := index_lt hj hk
  rw [Nat.mul_comm br]
  dsimp only
  omega

/-- The outputs of MATMUL.C lie in `dst` (R57). -/
theorem matmulCWrites_inDst {m : Memory} {a t dst ar ac br bc dc : Nat} {e : Nat × Int} (hcols : bc ≤ dc)
    (he : e ∈ matmulCWrites m a t dst ar ac br bc dc) : dst ≤ e.1 ∧ e.1 + 2 ≤ dst + 4 * (ar * dc) := by
  simp only [matmulCWrites, List.mem_flatMap, List.mem_range] at he
  obtain ⟨i, hi, j, hj, he⟩ := he
  have := index_lt hi (hj.trans_le hcols)
  have := addr_of_mem_halves he
  omega

section
variable {s : State} (hm : memWf s.mem = true) (h : Ready .matmulC s)

section
include hm

/-- The scratch of MATMUL.C holds the complex `B` transposed after the first phase (R154). -/
theorem halves_scr1_complexScratch {k j : Nat} (hk : k < bRows s.core) (hj : j < bCols s.core) :
    reAt (complexScratch s) (unitAddr s.core .scr1) (bRows s.core) j k = reAt s.mem (unitAddr s.core .srcB) (bCols s.core) k j
      ∧ imAt (complexScratch s) (unitAddr s.core .scr1) (bRows s.core) j k
        = imAt s.mem (unitAddr s.core .srcB) (bCols s.core) k j :=
  ⟨q_transposeWritesC _ _ hm hk hj (c := 0) (by omega), q_transposeWritesC _ _ hm hk hj (c := 1) (by omega)⟩

end

section
include h

/-- The transposition of a ready MATMUL.C leaves the matrix `A` alone (R58). -/
theorem halves_srcA_complexScratch {i k : Nat} (hi : i < aRows s.core) (hk : k < aCols s.core) :
    reAt (complexScratch s) (unitAddr s.core .srcA) (aCols s.core) i k = reAt s.mem (unitAddr s.core .srcA) (aCols s.core) i k
      ∧ imAt (complexScratch s) (unitAddr s.core .srcA) (aCols s.core) i k
        = imAt s.mem (unitAddr s.core .srcA) (aCols s.core) i k := by
  have hindex := index_lt hi hk
  have hscr1 : conflict ⟨unitAddr s.core .srcA, 4 * (aRows s.core * aCols s.core), false⟩
      ⟨unitAddr s.core .scr1, 4 * (bRows s.core * bCols s.core), true⟩ = false :=
    noConflict_of_ready h (j := 0) (k := 2) (by omega) (by simp [regions, matmulRegions])
  constructor
  · exact q_putAll_of_noConflict hscr1 (fun e he => transposeWritesC_inScratch he) (by omega) (by omega)
  · exact q_putAll_of_noConflict hscr1 (fun e he => transposeWritesC_inScratch he) (by omega) (by omega)

/-- The outputs of a ready MATMUL.C leave its scratch alone (R58). -/
theorem halves_scr1_effectOf_matmulC {k j : Nat} (hk : k < bRows s.core) (hj : j < bCols s.core) :
    reAt (effectOf .matmulC s).mem (unitAddr s.core .scr1) (bRows s.core) j k
        = reAt (complexScratch s) (unitAddr s.core .scr1) (bRows s.core) j k
      ∧ imAt (effectOf .matmulC s).mem (unitAddr s.core .scr1) (bRows s.core) j k
        = imAt (complexScratch s) (unitAddr s.core .scr1) (bRows s.core) j k := by
  obtain ⟨-, hrows, hcols⟩ := sizes_of_ready rfl h
  have hindex := index_lt hj hk
  rw [Nat.mul_comm (bCols s.core)] at hindex
  have hdst : conflict ⟨unitAddr s.core .scr1, 4 * (bRows s.core * bCols s.core), true⟩
      ⟨unitAddr s.core .dst, 4 * (dRows s.core * dCols s.core), true⟩ = false :=
    noConflict_of_ready h (j := 2) (k := 3) (by omega) (by simp [regions, matmulRegions])
  rw [effectOf_matmulC_mem, reAt, imAt]
  constructor
  · exact q_putAll_of_noConflict hdst (fun e he => hrows ▸ matmulCWrites_inDst hcols.le he) (by omega) (by omega)
  · exact q_putAll_of_noConflict hdst (fun e he => hrows ▸ matmulCWrites_inDst hcols.le he) (by omega) (by omega)

end

theorem aCols_le (c : CoreUnit) : aCols c ≤ 65535 := by
  have := (unitVal c .aDim).isLt
  unfold aCols highHalf
  omega

include hm h

/-- A sum over the halves of a row of `A` and a row of the scratch is one over those of `A` and a column of `B`. -/
theorem sum_halves_complexScratch (g : Int → Int → Int → Int → Int) {i j : Nat} (hi : i < aRows s.core)
    (hj : j < bCols s.core) :
    (∑ k ∈ Finset.range (aCols s.core),
      g (reAt (complexScratch s) (unitAddr s.core .srcA) (aCols s.core) i k)
        (imAt (complexScratch s) (unitAddr s.core .srcA) (aCols s.core) i k)
        (reAt (complexScratch s) (unitAddr s.core .scr1) (bRows s.core) j k)
        (imAt (complexScratch s) (unitAddr s.core .scr1) (bRows s.core) j k))
      = ∑ k ∈ Finset.range (aCols s.core),
        g (reAt s.mem (unitAddr s.core .srcA) (aCols s.core) i k) (imAt s.mem (unitAddr s.core .srcA) (aCols s.core) i k)
          (reAt s.mem (unitAddr s.core .srcB) (bCols s.core) k j) (imAt s.mem (unitAddr s.core .srcB) (bCols s.core) k j) := by
  obtain ⟨hinner, -⟩ := sizes_of_ready rfl h
  refine Finset.sum_congr rfl fun k hk => ?_
  rw [Finset.mem_range] at hk
  obtain ⟨hAre, hAim⟩ := halves_srcA_complexScratch h hi hk
  obtain ⟨hBre, hBim⟩ := halves_scr1_complexScratch hm (hinner ▸ hk) hj
  rw [hAre, hAim, hBre, hBim]

/-- The real accumulator over the scratch is the exact real part of the product, far from the ends of 64 bits (R155). -/
theorem dotAccRe_complexScratch {i j : Nat} (hi : i < aRows s.core) (hj : j < bCols s.core) :
    dotAccRe (complexScratch s) (unitAddr s.core .srcA) (unitAddr s.core .scr1) (aCols s.core) (bRows s.core) i j
        = exactRe s.mem (unitAddr s.core .srcA) (unitAddr s.core .srcB) (aCols s.core) (bCols s.core) i j
      ∧ |exactRe s.mem (unitAddr s.core .srcA) (unitAddr s.core .srcB) (aCols s.core) (bCols s.core) i j| < 2 ^ 47 := by
  obtain ⟨hsum, hbound⟩ := dotAccRe_exact (complexScratch s) (unitAddr s.core .srcA) (unitAddr s.core .scr1) (bRows s.core)
    i j (aCols_le s.core)
  have hexact : dotAccRe (complexScratch s) (unitAddr s.core .srcA) (unitAddr s.core .scr1) (aCols s.core) (bRows s.core) i j
      = exactRe s.mem (unitAddr s.core .srcA) (unitAddr s.core .srcB) (aCols s.core) (bCols s.core) i j :=
    hsum.trans (sum_halves_complexScratch hm h (fun ar ai br bi => ar * br - ai * bi) hi hj)
  exact ⟨hexact, hexact ▸ hbound⟩

/-- The imaginary accumulator over the scratch is the exact imaginary part of the product (R155). -/
theorem dotAccIm_complexScratch {i j : Nat} (hi : i < aRows s.core) (hj : j < bCols s.core) :
    dotAccIm (complexScratch s) (unitAddr s.core .srcA) (unitAddr s.core .scr1) (aCols s.core) (bRows s.core) i j
        = exactIm s.mem (unitAddr s.core .srcA) (unitAddr s.core .srcB) (aCols s.core) (bCols s.core) i j
      ∧ |exactIm s.mem (unitAddr s.core .srcA) (unitAddr s.core .srcB) (aCols s.core) (bCols s.core) i j| < 2 ^ 47 := by
  obtain ⟨hsum, hbound⟩ := dotAccIm_exact (complexScratch s) (unitAddr s.core .srcA) (unitAddr s.core .scr1) (bRows s.core)
    i j (aCols_le s.core)
  have hexact : dotAccIm (complexScratch s) (unitAddr s.core .srcA) (unitAddr s.core .scr1) (aCols s.core) (bRows s.core) i j
      = exactIm s.mem (unitAddr s.core .srcA) (unitAddr s.core .srcB) (aCols s.core) (bCols s.core) i j :=
    hsum.trans (sum_halves_complexScratch hm h (fun ar ai br bi => ar * bi + ai * br) hi hj)
  exact ⟨hexact, hexact ▸ hbound⟩

end

/-- Settles O24: the transposition outlasts the outputs, which are the saturated exact sums, both far from 64 bits. -/
theorem matmulCStoresTheSaturatedProduct : Obligations.MatmulCStoresTheSaturatedProduct := by
  refine ⟨decode_encode .matmulC, fun s => ⟨outcomeByChecks .matmulC s, fun hm h => ?_⟩⟩
  obtain ⟨-, hrows, hcols⟩ := sizes_of_ready rfl h
  refine ⟨_, exec_of_ready h, completedKernel_of_ready rfl h, fun k hk j hj => ?_, fun i hi j hj => ?_⟩
  · obtain ⟨hre, him⟩ := halves_scr1_effectOf_matmulC h hk hj
    obtain ⟨hBre, hBim⟩ := halves_scr1_complexScratch hm hk hj
    exact ⟨hre.trans hBre, him.trans hBim⟩
  · obtain ⟨hre, him⟩ := reAt_imAt_effectOf_matmulC hm h hi hj
    obtain ⟨haccRe, hboundRe⟩ := dotAccRe_complexScratch hm h (hrows ▸ hi) (hcols ▸ hj)
    obtain ⟨haccIm, hboundIm⟩ := dotAccIm_complexScratch hm h (hrows ▸ hi) (hcols ▸ hj)
    rw [haccRe, narrowPrecise_of_abs_lt hboundRe] at hre
    rw [haccIm, narrowPrecise_of_abs_lt hboundIm] at him
    exact ⟨hre, him⟩

end Sys2Proof.Machine
end

section
/-! SUPPORT. The outcomes of a command (60_exceptions R174 to R178): the checks said over operand lists and bytes, what a
command that a check ends leaves unchanged, and that a command depends on the values of its registers only. -/

namespace Sys2Proof.Machine

/-! ### The checks over the operand lists and the bytes of the regions -/

theorem unitWritten_false_iff (c : CoreUnit) (ds : List DataReg) :
    unitWritten c ds = false ↔ ∃ d ∈ ds, (regGet c.regs d).written = false := by
  simp [unitWritten, List.all_eq_false]

theorem oddBase_iff (i : Instr) (c : CoreUnit) : oddBase i c = true ↔ ∃ d ∈ baseRegs i, unitAddr c d % 2 = 1 := by
  simp [oddBase]

theorem isMatmul_iff (i : Instr) : isMatmul i = true ↔ i = .matmulF ∨ i = .matmulC := by
  cases i <;> decide

theorem isConv_iff (i : Instr) : isConv i = true ↔ i = .convF ∨ i = .convP := by
  cases i <;> decide

theorem sizeMismatch_iff (i : Instr) (c : CoreUnit) :
    (isMatmul i && !sizesMatch c) = true ↔ (i = .matmulF ∨ i = .matmulC)
      ∧ ¬ (aCols c = bRows c ∧ aRows c = dRows c ∧ bCols c = dCols c) := by
  rw [Bool.and_eq_true, isMatmul_iff, Bool.not_eq_true', ← Bool.not_eq_true]
  simp only [sizesMatch, Bool.and_eq_true, decide_eq_true_eq, and_assoc]

theorem zeroLength_iff (i : Instr) (c : CoreUnit) :
    (isConv i && (decide (lenAOf c = 0) || decide (lenBOf c = 0))) = true
      ↔ (i = .convF ∨ i = .convP) ∧ (lenAOf c = 0 ∨ lenBOf c = 0) := by
  rw [Bool.and_eq_true, isConv_iff, Bool.or_eq_true, decide_eq_true_eq, decide_eq_true_eq]

theorem any_wraps_iff (rs : List Region) : rs.any wraps = true ↔ ∃ r ∈ rs, r.size ≠ 0 ∧ 2 ^ 32 < r.base + r.size := by
  simp only [List.any_eq_true, wraps_iff_past]

/-- Two regions conflict when one of them is written and they share a byte (R58). -/
theorem conflict_iff_shared (r t : Region) :
    conflict r t = true ↔ (r.written = true ∨ t.written = true) ∧ ∃ a, InRegion r a ∧ InRegion t a := by
  rw [conflict, Bool.and_eq_true, Bool.or_eq_true, overlaps_iff_shared]

/-- A list conflicts with itself when a written region of it shares a byte with another one of it (R58). -/
theorem selfConflict_iff_shared (rs : List Region) :
    selfConflict rs = true ↔ ∃ j k : Fin rs.length, j ≠ k ∧ (rs.get j).written = true
      ∧ ∃ a, InRegion (rs.get j) a ∧ InRegion (rs.get k) a := by
  constructor
  · intro h
    have hpair : ¬ rs.Pairwise (fun r t => conflict r t = false) := fun hp =>
      Bool.false_ne_true (((selfConflict_false_iff_pairwise rs).mpr hp).symm.trans h)
    rw [List.pairwise_iff_getElem] at hpair
    push Not at hpair
    obtain ⟨j, k, hj, hk, hlt, hconflict⟩ := hpair
    obtain ⟨hwritten, a, haj, hak⟩ := (conflict_iff_shared _ _).mp (Bool.eq_true_of_not_eq_false hconflict)
    have hne : (⟨j, hj⟩ : Fin rs.length) ≠ ⟨k, hk⟩ := fun h => by rw [Fin.mk.injEq] at h; omega
    rcases hwritten with hw | hw
    · exact ⟨⟨j, hj⟩, ⟨k, hk⟩, hne, hw, a, haj, hak⟩
    · exact ⟨⟨k, hk⟩, ⟨j, hj⟩, hne.symm, hw, a, hak, haj⟩
  · rintro ⟨j, k, hne, hw, a, haj, hak⟩
    by_contra hself
    have hpair := List.pairwise_iff_getElem.mp ((selfConflict_false_iff_pairwise rs).mp (Bool.eq_false_of_not_eq_true hself))
    have hconflict : conflict (rs.get j) (rs.get k) = true := (conflict_iff_shared _ _).mpr ⟨.inl hw, a, haj, hak⟩
    rcases lt_or_gt_of_ne hne with hlt | hgt
    · exact Bool.false_ne_true ((hpair j k j.isLt k.isLt hlt).symm.trans hconflict)
    · exact Bool.false_ne_true ((hpair k j k.isLt j.isLt hgt).symm.trans ((conflict_comm _ _).trans hconflict))

/-- A command conflicts with the running commands of the peers when they share a byte that one of the two writes (R185). -/
theorem crossConflict_peers_iff (rs : List Region) (s : State) :
    crossConflict rs (peerRegions s) = true ↔ ∃ r ∈ rs, ∃ p ∈ s.peers, ∃ x ∈ runningRegions p,
      (r.written = true ∨ x.written = true) ∧ ∃ a, InRegion r a ∧ InRegion x a := by
  simp only [crossConflict, peerRegions, List.any_eq_true, List.mem_flatMap, conflict_iff_shared]
  constructor
  · rintro ⟨r, hr, x, ⟨p, hp, hx⟩, h⟩
    exact ⟨r, hr, p, hp, x, hx, h⟩
  · rintro ⟨r, hr, p, hp, x, hx, h⟩
    exact ⟨r, hr, x, ⟨p, hp, hx⟩, h⟩

/-! ### The first check that applies -/

theorem exec_of_ends {i : Instr} {s : State} {code : CompletionCode} (h : checks i s = .ends code) :
    ∃ t, exec i s = .next t ∧ EndedWith code s t := by
  obtain ⟨-, -, hends, -⟩ := outcomeByChecks i s
  exact hends code h

theorem exec_of_stuck {i : Instr} {s : State} (hpass : checks i s = .pass) (h : accessible i s = false) :
    exec i s = .fault .stuck := by
  obtain ⟨-, -, -, hstuck⟩ := outcomeByChecks i s
  exact hstuck hpass h

/-- A command that completes is finished with OK. -/
theorem finished_effectOf (i : Instr) (s : State) : Finished .ok s (finish .ok (effectOf i s)) := by
  obtain ⟨hstatus, hcmd, hbase, -⟩ := effectOf_unit i s
  exact finished_finish .ok hstatus hcmd hbase

/-- Settles O28: each condition is the one the check tests, and the checks take the first that holds. -/
theorem firstCheckThatAppliesDecides : Obligations.FirstCheckThatAppliesDecides := by
  intro i s unwritten odd mismatch zero wrapped overlapping outside hunwritten hodd hmismatch hzero hwrapped hoverlapping
    houtside
  rw [← unitWritten_false_iff] at hunwritten
  rw [← oddBase_iff] at hodd
  rw [← sizeMismatch_iff] at hmismatch
  rw [← zeroLength_iff] at hzero
  rw [← any_wraps_iff] at hwrapped
  rw [← selfConflict_iff_shared, ← crossConflict_peers_iff, ← Bool.or_eq_true] at hoverlapping
  rw [← accessible_false_iff_byte] at houtside
  rw [hunwritten, hodd, hmismatch, hzero, hwrapped, hoverlapping, houtside]
  have hread (hw : ¬ unitWritten s.core (readRegs i) = false) : readsUnwritten i s = false :=
    readsUnwritten_of_written (Bool.eq_true_of_not_eq_false hw)
  refine ⟨exec_of_unwritten i s, fun h2 h3 => exec_of_ends ?_, fun h2 h3 h4 => exec_of_ends ?_,
    fun h2 h3 h4 h5 => exec_of_raise ?_, fun h2 h3 h4 h5 h6 => exec_of_raise ?_,
    fun h2 h3 h4 h5 h6 h7 => exec_of_raise ?_, fun h2 h3 h4 h5 h6 h7 => exec_of_stuck ?_, fun h2 h3 h4 h5 h6 h7 h8 =>
    ⟨_, exec_of_pass ?_ (Bool.eq_true_of_not_eq_false h8), finished_effectOf i s⟩⟩
  · simp [checks, hread h2, h3]
  · simp [checks, hread h2, h3, h4]
  · simp only [checks, hread h2, h3, h4, h5, Bool.false_eq_true, if_false, if_true]
  · simp only [checks, hread h2, h3, h4, h5, h6, Bool.false_eq_true, if_false, if_true]
  · simp only [checks, hread h2, h3, h4, h5, h6, h7, Bool.false_eq_true, if_false, if_true]
  · simp only [checks, hread h2, h3, h4, h5, h6, h7, Bool.false_eq_true, if_false]
  · simp only [checks, hread h2, h3, h4, h5, h6, h7, Bool.false_eq_true, if_false]

/-! ### What a command leaves unchanged -/

theorem statusErr_unitFinish (code : CompletionCode) (c : CoreUnit) :
    statusErr (unitFinish code c).status = codeValue code :=
  (statusFinished_fields c.status code).2

/-- Settles O29: a transition that leaves the engine IDLE with an error code is the refusal of an illegal word or the end
of a command by a check, and either is `finish` alone. -/
theorem failedCommandChangesNothing : Obligations.FailedCommandChangesNothing := by
  intro s t w hbusy hstep hidle herr
  have hne : t ≠ s := by rintro rfl; simp [hbusy] at hidle
  rcases engineStep_cases s with ⟨-, he⟩ | ⟨_, _, -, -, he⟩ | ⟨_, i, -, -, he⟩ <;> rw [he] at hstep
  · cases hstep; exact absurd rfl hne
  · cases hstep; exact ⟨.illegalCmd, nofun, endedWith_finish .illegalCmd s⟩
  · rcases settle_next hstep with hexec | ⟨-, rfl⟩
    · rcases exec_next_cases hexec with ⟨-, -, rfl⟩ | ⟨code, hends, rfl⟩ | ⟨r, -, -, rfl⟩
      · exact absurd (statusErr_unitFinish .ok _) herr
      · refine ⟨code, ?_, endedWith_finish code s⟩
        rcases checks_ends_code hends with rfl | rfl <;> nofun
      · simp [hbusy] at hidle
    · exact absurd rfl hne

theorem environmentSameButMark_of_same {s t : State} (h : EnvironmentSame s t) :
    EnvironmentSameButMark s t ∧ t.mark = s.mark := by
  obtain ⟨hpeers, hmap, hmark, hrest⟩ := h
  exact ⟨⟨hpeers, hmap, hrest⟩, hmark⟩

/-- The kernel commands write no data register (R178). -/
theorem writtenRegs_kernel {i : Instr} (h : i = .convF ∨ i = .convP ∨ i = .matmulF ∨ i = .matmulC) : writtenRegs i = [] := by
  rcases h with rfl | rfl | rfl | rfl <;> rfl

/-- Settles O31: a next state is that of a completed rule, of a `finish` alone, or of a mark alone. -/
theorem commandsWriteOnlyTheirRegisters : Obligations.CommandsWriteOnlyTheirRegisters := by
  intro i s t h
  rcases exec_next_cases h with ⟨-, -, rfl⟩ | ⟨code, -, rfl⟩ | ⟨r, -, hmark, rfl⟩
  · obtain ⟨-, -, hrest, -, hcmd, hbase⟩ := finished_effectOf i s
    obtain ⟨henv, hmark⟩ := environmentSameButMark_of_same (effectOf_environment i s)
    have hregs := effectOf_regs i s
    exact ⟨hregs, henv, .inl hmark, hcmd, hbase, hrest, fun hi => writtenRegs_kernel hi ▸ hregs⟩
  · obtain ⟨⟨-, -, hrest, -, hcmd, hbase⟩, hregs, henv, -⟩ := endedWith_finish code s
    exact ⟨fun d _ => hregs d List.not_mem_nil, (environmentSameButMark_of_same henv).1, .inl rfl, hcmd, hbase, hrest,
      fun _ => hregs⟩
  · exact ⟨fun _ _ => rfl, ⟨rfl, rfl, rfl, rfl, rfl, rfl, rfl⟩, .inr ⟨hmark, r, rfl⟩, rfl, rfl, rfl, fun _ _ _ => rfl⟩

/-! ### A command depends on the values of its registers only -/

section
variable {c e : CoreUnit} (h : unitVal c = unitVal e)
include h

theorem unitAddr_congr : unitAddr c = unitAddr e := funext fun d => congrArg BitVec.toNat (congrFun h d)

theorem lengths_congr : lenAOf c = lenAOf e ∧ lenBOf c = lenBOf e := by
  simp only [lenAOf, lenBOf, h, and_self]

theorem dims_congr : aRows c = aRows e ∧ aCols c = aCols e ∧ bRows c = bRows e ∧ bCols c = bCols e ∧ dRows c = dRows e
    ∧ dCols c = dCols e := by
  simp only [aRows, aCols, bRows, bCols, dRows, dCols, h, and_self]

theorem oddBase_congr (i : Instr) : oddBase i c = oddBase i e := by
  rw [oddBase, oddBase, unitAddr_congr h]

theorem sizesMatch_congr : sizesMatch c = sizesMatch e := by
  obtain ⟨hAr, hAc, hBr, hBc, hDr, hDc⟩ := dims_congr h
  rw [sizesMatch, sizesMatch, hAr, hAc, hBr, hBc, hDr, hDc]

theorem matmulRegions_congr (n : Nat) : matmulRegions n c = matmulRegions n e := by
  obtain ⟨hAr, hAc, hBr, hBc, hDr, hDc⟩ := dims_congr h
  rw [matmulRegions, matmulRegions, unitAddr_congr h, hAr, hAc, hBr, hBc, hDr, hDc]

theorem convRegions_congr : convFRegions c = convFRegions e ∧ convPRegions c = convPRegions e := by
  obtain ⟨hA, hB⟩ := lengths_congr h
  rw [convFRegions, convFRegions, convPRegions, convPRegions, unitAddr_congr h, hA, hB]
  exact ⟨rfl, rfl⟩

theorem regions_congr (i : Instr) : regions i c = regions i e := by
  cases i with
  | convF => exact (convRegions_congr h).1
  | convP => exact (convRegions_congr h).2
  | matmulF => exact matmulRegions_congr h 2
  | matmulC => exact matmulRegions_congr h 4
  | _ => rfl

theorem accessed_congr (i : Instr) : accessed i c = accessed i e := by
  obtain ⟨-, -, -, hBc, -⟩ := dims_congr h
  cases i with
  | convF => exact (convRegions_congr h).1
  | convP => exact (convRegions_congr h).2
  | matmulF => rw [accessed, accessed, hBc, matmulRegions_congr h]
  | matmulC => rw [accessed, accessed, hBc, matmulRegions_congr h]
  | _ => rfl

end

section
variable {s u : State} (h : unitVal u.core = unitVal s.core)
include h

/-- Checks 3 to 7 read values, and check 2 finds nothing in `u`. -/
theorem checks_pass_congr {i : Instr} (hpeers : u.peers = s.peers) (hread : readsUnwritten i u = false)
    (hpass : checks i s = .pass) : checks i u = .pass := by
  obtain ⟨-, hrest⟩ := (checks_pass_iff i s).mp hpass
  obtain ⟨hA, hB⟩ := lengths_congr h
  rw [checks_pass_iff]
  refine ⟨hread, ?_⟩
  rwa [oddBase_congr h, sizesMatch_congr h, hA, hB, regions_congr h, peerRegions, hpeers]

theorem accessible_congr (i : Instr) (hmap : u.memMap = s.memMap) : accessible i u = accessible i s := by
  rw [accessible, accessible, accessed_congr h, hmap]

theorem writesOf_congr (i : Instr) (hmem : u.mem = s.mem) : writesOf i u = writesOf i s := by
  obtain ⟨hA, hB⟩ := lengths_congr h
  obtain ⟨hAr, hAc, hBr, hBc, -, hDc⟩ := dims_congr h
  cases i with
  | convF => rw [writesOf, writesOf, unitAddr_congr h, hA, hB, hmem]
  | convP => rw [writesOf, writesOf, unitAddr_congr h, hA, hB, hmem]
  | matmulF => rw [writesOf, writesOf, unitAddr_congr h, hAr, hAc, hBr, hBc, hDc, hmem]
  | matmulC => rw [writesOf, writesOf, unitAddr_congr h, hAr, hAc, hBr, hBc, hDc, hmem]
  | _ => rfl

theorem regVal_effectOf_congr (i : Instr) (d : DataReg) : regVal (effectOf i u) d = regVal (effectOf i s) d := by
  have hval : ∀ e, regVal u e = regVal s e := congrFun h
  cases i <;> simp only [effectOf, accClrEffect, macWEffect, macDEffect, dmacWEffect, dmacDEffect, clipEffect, rdTEffect,
    rdSEffect, convFEffect, convPEffect, matmulFEffect, matmulCEffect, setAcc32, setAcc64, acc32, acc64, regVal_setReg,
    regVal_setMem, hval]

end

/-- A rule sets the written-flags of the registers it writes and leaves the others (R39). -/
theorem written_effectOf (i : Instr) (s : State) (d : DataReg) :
    (regGet (effectOf i s).core.regs d).written = ((regGet s.core.regs d).written || decide (d ∈ writtenRegs i)) := by
  by_cases hd : d ∈ writtenRegs i
  · have hset := effectOf_written i s
    rw [unitWritten, List.all_eq_true] at hset
    simp [hset d hd, hd]
  · simp [effectOf_regs i s d hd, hd]

/-- Settles O49: past the mark check 2 finds nothing, as in the fully written state, and the rule reads values only. -/
theorem unwrittenRegistersHoldValues : Obligations.UnwrittenRegistersHoldValues := by
  intro i s u hpass haccess hval hwritten hstatus hpeers hmem hmap
  have hvalues : unitVal u.core = unitVal (withMark .unwrittenReg s).core := funext hval
  have hpassU : checks i u = .pass := checks_pass_congr hvalues hpeers
    (readsUnwritten_of_written (List.all_eq_true.mpr fun d _ => hwritten d)) hpass
  have haccessU : accessible i u = true := (accessible_congr hvalues i hmap).trans haccess
  obtain ⟨henv, hmark⟩ := environmentSameButMark_of_same (effectOf_environment i (withMark .unwrittenReg s))
  obtain ⟨hstatusS, -⟩ := effectOf_unit i (withMark .unwrittenReg s)
  obtain ⟨hstatusU, -⟩ := effectOf_unit i u
  refine ⟨exec_of_unwritten i s, _, _, exec_of_pass hpass haccess, exec_of_pass hpassU haccessU,
    finished_effectOf i (withMark .unwrittenReg s), henv, ?_, fun d => (regVal_effectOf_congr hvalues i d).symm, ?_,
    written_effectOf i (withMark .unwrittenReg s), hmark⟩
  · rw [finish_mem, finish_mem, effectOf_mem, effectOf_mem, writesOf_congr hvalues i hmem, hmem, withMark_mem]
  · rw [finish_core, finish_core, unitFinish_status, unitFinish_status, hstatusS, hstatusU, hstatus, withMark_core]

end Sys2Proof.Machine
end

section
/-! SUPPORT. The host's interface (20_memory R52, R53, R63; 30_encoding R71, R72; 60_exceptions R171): register accesses to an
IDLE instance, the store that starts a command, and accesses to the data memory. -/

namespace Sys2Proof.Machine

/-- Settles O1: the four assigned words are the encoder's, and the decoder refuses the other four. -/
theorem decodeReadsWordsOfTheSpec : Obligations.DecodeReadsWordsOfTheSpec :=
  ⟨decode_encode .accClr, decode_encode .dmacD, decode_encode .convP, decode_encode .matmulC, rfl, rfl, rfl, rfl⟩

/-- Settles O38: the power-on instance is the reset one. -/
theorem powerOnStateIsTheResetState : Obligations.PowerOnStateIsTheResetState :=
  ⟨rfl, rfl, rfl, fun d => congrArg DReg.written (regGet_reset d), rfl⟩

/-- Settles O37: two bytes written one after the other, at different addresses. -/
theorem elementsAreLittleEndian : Obligations.ElementsAreLittleEndian := by
  intro m a v hm
  have hlow : BitVec.ofNat 8 v = BitVec.ofNat 8 (v % 256) := BitVec.eq_of_toNat_eq (by simp)
  have hhigh : BitVec.ofNat 8 (v / 256) = BitVec.ofNat 8 (v / 256 % 256) := BitVec.eq_of_toNat_eq (by simp)
  have hfirst : memWf (writeByte m a (BitVec.ofNat 8 v)) = true := memWf_writeByte a _ hm
  refine ⟨by simp [memRead], ?_, ?_, fun c hc hc1 => readByte_memWrite_outside (by omega), memWf_memWrite a 2 v hm⟩
  · rw [memWrite, memWrite, memWrite, readByte_writeByte_other _ (by omega), readByte_writeByte_same a _ hm, hlow]
  · rw [memWrite, memWrite, memWrite, readByte_writeByte_same _ _ hfirst, hhigh]

/-! ### Register accesses to an IDLE instance -/

section
variable {c : CoreUnit} {addr : Nat} {size : AccessSize} (hidle : c.phase = .idle)
include hidle

theorem unitRead_of_idle_data {d : DataReg} (h : accessedReg c addr size = some (.data d)) :
    unitRead c addr size = .ok (unitVal c d) := by
  rw [unitRead, unitBusy_of_idle hidle, h]
  rfl

theorem unitReadsUnwritten_of_idle_data {d : DataReg} (h : accessedReg c addr size = some (.data d)) :
    unitReadsUnwritten c addr size = !(regGet c.regs d).written := by
  rw [unitReadsUnwritten, unitBusy_of_idle hidle, h]

theorem unitRead_of_idle_cmd (h : accessedReg c addr size = some .cmd) : unitRead c addr size = .ok c.cmd := by
  rw [unitRead, unitBusy_of_idle hidle, h]

theorem unitRead_of_idle_none (h : accessedReg c addr size = none) : unitRead c addr size = .error .badRegAccess := by
  rw [unitRead, unitBusy_of_idle hidle, h]

theorem unitWrite_of_idle_cmd (h : accessedReg c addr size = some .cmd) (v : Word) :
    unitWrite c addr size v = .ok (unitStart v c) := by
  rw [unitWrite, unitBusy_of_idle hidle, h]

theorem unitWrite_of_idle_status (h : accessedReg c addr size = some .status) (v : Word) :
    unitWrite c addr size v = .ok c := by
  rw [unitWrite, unitBusy_of_idle hidle, h]

theorem unitWrite_of_idle_res (h : accessedReg c addr size = some (.data .res)) (v : Word) :
    unitWrite c addr size v = .ok c := by
  rw [unitWrite, unitBusy_of_idle hidle, h]

theorem unitWrite_of_idle_data {d : DataReg} (hd : d ≠ .res) (h : accessedReg c addr size = some (.data d)) (v : Word) :
    unitWrite c addr size v = .ok (unitSetReg c d v) := by
  rw [unitWrite, unitBusy_of_idle hidle, h]
  cases d with
  | res => exact absurd rfl hd
  | _ => rfl

theorem unitWrite_of_idle_none (h : accessedReg c addr size = none) (v : Word) :
    unitWrite c addr size v = .error .badRegAccess := by
  rw [unitWrite, unitBusy_of_idle hidle, h]

end

/-- A malformed access or one past the assigned offsets names no register (R53, R71). -/
theorem accessedReg_of_malformed {c : CoreUnit} {addr : Nat} {size : AccessSize}
    (h : size ≠ .word ∨ addr % 4 ≠ 0 ∨ c.base + 0x4C ≤ addr) : accessedReg c addr size = none := by
  unfold accessedReg
  split
  case isTrue hformed =>
    obtain ⟨hsize, halign, -⟩ := hformed
    rcases h with h | h | h
    · exact absurd hsize h
    · exact absurd halign h
    · exact regAt_of_le (by omega)
  case isFalse => rfl

/-- Settles O35: such an access names no register. -/
theorem malformedRegisterAccessFaults : Obligations.MalformedRegisterAccessFaults := fun _ _ _ hidle h =>
  ⟨unitRead_of_idle_none hidle (accessedReg_of_malformed h),
    fun v => unitWrite_of_idle_none hidle (accessedReg_of_malformed h) v⟩

/-- The bits a register stores (R73): bits 15:0 of a length register, every bit of any other one. -/
theorem and_storedBits (d : DataReg) (v : Word) :
    v &&& storedBits d = if d = .lenA ∨ d = .lenB then BitVec.ofNat 32 (v.toNat % 65536) else v := by
  have hlength : v &&& 0x0000FFFF#32 = BitVec.ofNat 32 (v.toNat % 65536) := by
    apply BitVec.eq_of_toNat_eq
    rw [BitVec.toNat_and, show (0x0000FFFF#32).toNat = 2 ^ 16 - 1 from rfl, Nat.and_two_pow_sub_one_eq_mod,
      BitVec.toNat_ofNat]
    omega
  split
  case isTrue h => rcases h with rfl | rfl <;> exact hlength
  case isFalse h => exact and_storedBits_of_full (fun hd => h (.inl hd)) (fun hd => h (.inr hd)) v

theorem unitVal_unitSetReg_same (c : CoreUnit) (d : DataReg) (v : Word) : unitVal (unitSetReg c d v) d = v &&& storedBits d := by
  rw [unitVal, unitSetReg_regs, regGet_regSet_same]

/-- Settles O33: an aligned access at a register's offset names it, and a write stores its bits and sets its flag. -/
theorem registerWritesReadBack : Obligations.RegisterWritesReadBack := by
  intro c hidle halign
  have hat := accessedReg_at c halign
  refine ⟨fun d v hd => ⟨unitSetReg c d v, unitWrite_of_idle_data hidle hd (hat _) v, ?_, ?_, fun e he => ?_, rfl, rfl, rfl,
    rfl⟩, unitWrite_of_idle_res hidle (hat _), unitWrite_of_idle_status hidle (hat _), fun d =>
    ⟨unitRead_of_idle_data hidle (hat _), unitReadsUnwritten_of_idle_data hidle (hat _)⟩, unitRead_of_idle_cmd hidle (hat _),
    unitRead_of_status (hat _)⟩
  · rw [← and_storedBits, ← unitVal_unitSetReg_same c d v]
    exact unitRead_of_idle_data (c := unitSetReg c d v) hidle (accessedReg_at (unitSetReg c d v) halign (.data d))
  · rw [unitSetReg_regs, regGet_regSet_same]
  · rw [unitSetReg_regs, regGet_regSet_other c.regs _ he]

/-! ### The store that starts a command (R74, R171) -/

/-- The host's next operation does not depend on the turn list. -/
theorem hostTurn_dropTurn {s : State} {op : HostOp} (h : s.prog[s.hpc]? = some op) :
    hostTurn (dropTurn s) = hostOp op (dropTurn s) := by
  simp [hostTurn, h]

@[simp] theorem storeWord_dropTurn (s : State) (v : HostTerm) : storeWord (dropTurn s) v = storeWord s v := by
  cases v <;> rfl

theorem hostOp_store_of_ok {s t : State} {size : AccessSize} {addr : Nat} {v : HostTerm}
    (h : busStore s addr size (storeWord s v) = .ok t) : hostOp (.store size addr v) s = .next (setHpc (s.hpc + 1) t) := by
  simp [hostOp, h]

theorem hostOp_store_of_error {s : State} {size : AccessSize} {addr : Nat} {v : HostTerm} {e : BusStop}
    (h : busStore s addr size (storeWord s v) = .error e) : hostOp (.store size addr v) s = busStopped s e := by
  simp [hostOp, h]

section
variable {s : State} {addr k : Nat} {size : AccessSize} (h : unitFor s addr (sizeBytes size) = some k)
include h

/-- A store into the register block of an instance is a write of that instance. -/
theorem busStore_of_write_ok {v : Word} {c : CoreUnit} (hwrite : unitWrite ((units s).getD k s.core) addr size v = .ok c) :
    busStore s addr size v = .ok (setUnit k c s) := by
  simp only [busStore, h, hwrite]

theorem busStore_of_write_error {v : Word} {r : ModelFault}
    (hwrite : unitWrite ((units s).getD k s.core) addr size v = .error r) : busStore s addr size v = .error (.raises r) := by
  simp only [busStore, h, hwrite]

/-- A load from the register block of an instance is a read of that instance. -/
theorem busLoad_of_read_ok {w : Word} (hread : unitRead ((units s).getD k s.core) addr size = .ok w) :
    busLoad s addr size = .ok (w.toNat : Int) := by
  simp only [busLoad, h, hread]

end

theorem unitFor_base_core (s : State) : unitFor s s.core.base (sizeBytes .word) = some 0 := by
  simp [unitFor, units, List.findIdx?_cons, touchesBlock, sizeBytes, Config.blockBytes]

theorem raiseFault_of_unmarked {s : State} (h : s.mark = none) (r : ModelFault) : raiseFault r s = .next (withMark r s) := by
  rw [raiseFault, h]

theorem raiseFault_of_marked {s : State} {m : ModelFault} (h : s.mark = some m) (r : ModelFault) :
    raiseFault r s = .fault (.marked m) := by
  rw [raiseFault, h]

/-- Settles O32: the access at BASE names CMD, and it lies in the register block of instance 0. -/
theorem cmdWriteStartsTheCommand : Obligations.CmdWriteStartsTheCommand := by
  refine ⟨fun c w halign => ⟨fun hidle => ?_, fun v hbusy => unitWrite_of_busy (unitBusy_of_busy hbusy) w⟩,
    fun s v hmark hturn halign hop => ?_⟩
  · obtain ⟨hbusy, herr⟩ := statusStarted_fields c.status
    exact ⟨unitStart w c, unitWrite_of_idle_cmd hidle (accessedReg_at c halign .cmd) w, rfl, herr, hbusy, rfl,
      rest_setBusy_setErr c.status 0 true, rfl, rfl⟩
  · have hstep : step s = hostOp (.store .word s.core.base v) (dropTurn s) :=
      (step_of_host hmark hturn).trans (hostTurn_dropTurn hop)
    have hunit : unitFor (dropTurn s) s.core.base (sizeBytes .word) = some 0 := unitFor_base_core (dropTurn s)
    refine ⟨fun c hwrite => ⟨setHpc (s.hpc + 1) (setUnit 0 c (dropTurn s)), ?_, rfl, rfl, rfl, rfl, rfl, rfl, rfl, rfl, rfl,
      rfl⟩, fun r hwrite hunmarked => ?_⟩
    · rw [← storeWord_dropTurn] at hwrite
      rw [hstep, hostOp_store_of_ok (busStore_of_write_ok hunit hwrite), dropTurn_hpc]
    · rw [← storeWord_dropTurn] at hwrite
      rw [hstep, hostOp_store_of_error (busStore_of_write_error hunit hwrite)]
      exact raiseFault_of_unmarked (s := dropTurn s) hunmarked r

/-! ### Accesses to the data memory (R63, 70_reset_and_hazards R196) -/

/-- An access touches a running command's region when it shares a byte with one. -/
theorem hitsRunning_iff_shared (s : State) (addr n : Nat) :
    hitsRunning s addr n = true
      ↔ ∃ c ∈ units s, ∃ r ∈ runningRegions c, ∃ a, addr ≤ a ∧ a < addr + n ∧ InRegion r a := by
  simp only [hitsRunning, List.any_eq_true, overlaps_iff_shared, InRegion, and_assoc]

theorem spanInMem_of_bytes {rs : List MemRange} {p n : Nat} (h : ∀ a, p ≤ a → a < p + n → inMem rs a = true) :
    spanInMem rs p n = true :=
  List.all_eq_true.mpr fun k hk => h (p + k) (by omega) (by have := List.mem_range.mp hk; omega)

section
variable {s : State} {addr : Nat} {size : AccessSize} (hdata : unitFor s addr (sizeBytes size) = none)
include hdata

theorem busAccess_of_hit (h : hitsRunning s addr (sizeBytes size) = true) :
    busLoad s addr size = .error (.raises .hostBufferAccess)
      ∧ ∀ v, busStore s addr size v = .error (.raises .hostBufferAccess) := by
  simp [busLoad, busStore, hdata, h]

theorem busAccess_of_miss (h : hitsRunning s addr (sizeBytes size) = false)
    (hspan : spanInMem s.memMap addr (sizeBytes size) = true) :
    busLoad s addr size = .ok (loadedValue size (memRead s.mem addr (sizeBytes size)))
      ∧ ∀ v, busStore s addr size v = .ok (setMem (memWrite s.mem addr (sizeBytes size) v.toNat) s) := by
  simp [busLoad, busStore, hdata, h, hspan]

end

/-- Settles O36: the model's test of a hit is a shared byte, and an access that shares none is one of the data memory. -/
theorem hostBufferAccessFaults : Obligations.HostBufferAccessFaults := by
  intro s addr size hdata
  refine ⟨fun hshared => busAccess_of_hit hdata ((hitsRunning_iff_shared s addr _).mpr hshared), fun hmiss hbacked => ?_⟩
  have hhits : hitsRunning s addr (sizeBytes size) = false := by
    refine Bool.eq_false_of_not_eq_true fun hhit => ?_
    obtain ⟨c, hc, r, hr, a, hlo, hhi, ha⟩ := (hitsRunning_iff_shared s addr _).mp hhit
    exact hmiss c hc r hr a hlo hhi ha
  obtain ⟨hload, hstore⟩ := busAccess_of_miss hdata hhits (spanInMem_of_bytes hbacked)
  exact ⟨hload, fun v => ⟨_, hstore v, rfl, ⟨rfl, rfl, rfl, rfl, rfl, rfl, rfl, rfl⟩, memRead_memWrite_same addr _ v.toNat,
    fun a ha => readByte_memWrite_outside ha⟩⟩

end Sys2Proof.Machine
end

section
/-! SUPPORT. One move of the machine (60_exceptions R172, R177, R185; 10_state R42, R45): an agent's turn on any instance is
its turn on instance 0 with the two exchanged, and what each agent leaves alone. -/

namespace Sys2Proof.Machine

/-! ### A turn of instance `k` -/

theorem asCore_asCore (k : Nat) (s : State) : asCore k (asCore k s) = s := by
  cases k <;> simp

theorem asCore_withMark (k : Nat) (r : ModelFault) (s : State) : asCore k (withMark r s) = withMark r (asCore k s) := by
  cases k with
  | zero => rfl
  | succ j => exact swapUnit_withMark j r s

theorem asCore_dropTurn (k : Nat) (s : State) : asCore k (dropTurn s) = dropTurn (asCore k s) := by
  cases k with
  | zero => rfl
  | succ j => cases hp : s.peers[j]? <;> simp [swapUnit, hp, dropTurn]

/-- No check reads the turn list. -/
@[simp] theorem checks_dropTurn (i : Instr) (s : State) : checks i (dropTurn s) = checks i s := (rfl)

@[simp] theorem accessible_dropTurn (i : Instr) (s : State) : accessible i (dropTurn s) = accessible i s := (rfl)

@[simp] theorem units_dropTurn (s : State) : units (dropTurn s) = units s := (rfl)

section
variable {s : State} {k : Nat} {c : CoreUnit} (hc : (units s)[k]? = some c)
include hc

theorem getD_units : (units s).getD k s.core = c := by
  rw [List.getD_eq_getElem?_getD, hc, Option.getD_some]

/-- A transition of an instance that exists is one of instance 0 between two exchanges. -/
theorem onUnit_eq_mapNext (f : State → Host.Outcome State Fault Refusal) :
    onUnit k f s = mapNext (asCore k) (f (asCore k s)) := by
  cases k with
  | zero =>
    rw [onUnit, asCore_zero]
    cases f s <;> rfl
  | succ j =>
    have hj : j < s.peers.length := by
      obtain ⟨hlt, -⟩ := List.getElem?_eq_some_iff.mp hc
      simpa [units] using hlt
    rw [onUnit, if_pos hj]
    rfl

end

/-- The next states of a transition of instance `k` that leaves the other instances alone. -/
theorem onUnit_next_cases {k : Nat} {f : State → Host.Outcome State Fault Refusal} {s t : State}
    (hf : ∀ v w, f v = .next w → w.peers = v.peers) (h : onUnit k f s = .next t) :
    t = s ∨ ∃ c u, (units s)[k]? = some c ∧ f (asCore k s) = .next u ∧ (units t)[k]? = some u.core
      ∧ (∀ m, m ≠ k → (units t)[m]? = (units s)[m]?) ∧ t.memMap = u.memMap ∧ t.mark = u.mark := by
  cases hc : (units s)[k]? with
  | none =>
    cases k with
    | zero => simp [units] at hc
    | succ j =>
      have hj : ¬ j < s.peers.length := by simpa [units] using hc
      rw [onUnit, if_neg hj] at h
      exact .inl (Host.Outcome.next.inj h).symm
  | some c =>
    obtain ⟨u, hu, rfl⟩ := mapNext_next (onUnit_eq_mapNext hc f ▸ h)
    obtain ⟨t', ht', hself, hother, -, hmap, hmark, -⟩ := onUnit_of_next hc hu (hf _ _ hu)
    rw [h] at ht'
    cases ht'
    exact .inr ⟨c, u, rfl, hu, hself, hother, hmap, hmark⟩

/-! ### What the engine and the host leave alone -/

/-- An engine's transition leaves the peers, MEM and BASE as they were, and a mark that is set (R45, R176, R185). -/
theorem engineStep_frame {s t : State} (h : engineStep s = .next t) :
    t.peers = s.peers ∧ t.memMap = s.memMap ∧ t.core.base = s.core.base ∧ (t.mark = s.mark ∨ s.mark = none) := by
  rcases engineStep_cases s with ⟨-, he⟩ | ⟨w, e, -, -, he⟩ | ⟨w, i, -, -, he⟩ <;> rw [he] at h
  · cases h; exact ⟨rfl, rfl, rfl, .inl rfl⟩
  · cases h; exact ⟨rfl, rfl, rfl, .inl rfl⟩
  · rcases settle_next h with hexec | ⟨-, rfl⟩
    · obtain ⟨-, ⟨hpeers, hmap, -⟩, hmark, -, hbase, -⟩ := commandsWriteOnlyTheirRegisters i s t hexec
      exact ⟨hpeers, hmap, hbase, hmark.imp_right And.left⟩
    · exact ⟨rfl, rfl, rfl, .inl rfl⟩

theorem engineStep_peers {s t : State} (h : engineStep s = .next t) : t.peers = s.peers := (engineStep_frame h).1

theorem reset_peers {s t : State} (h : Host.Outcome.next (ρ := Refusal) (φ := Fault) (resetUnit s) = .next t) :
    t.peers = s.peers := by
  cases h
  exact resetUnit_peers s

theorem units_setUnit (k : Nat) (c : CoreUnit) (s : State) : units (setUnit k c s) = (units s).set k c := by
  cases k <;> rfl

/-- A host write leaves BASE as it was. -/
theorem unitWrite_base {c d : CoreUnit} {addr : Nat} {size : AccessSize} {v : Word} (h : unitWrite c addr size v = .ok d) :
    d.base = c.base := by
  rcases unitWrite_ok h with ⟨-, rfl | rfl | ⟨r, -, rfl⟩⟩ <;> rfl

/-- A host store changes at most one instance, an IDLE one, and not its BASE. -/
theorem busStore_frame {s t : State} {addr : Nat} {size : AccessSize} {v : Word} (h : busStore s addr size v = .ok t) :
    t.memMap = s.memMap ∧ t.mark = s.mark ∧ (units t = units s ∨ ∃ k c d, (units s)[k]? = some c ∧ c.phase = .idle
      ∧ d.base = c.base ∧ units t = (units s).set k d) := by
  rcases busStore_ok h with ⟨k, d, hk, hwrite, rfl⟩ | ⟨-, -, rfl⟩
  · have hc : (units s)[k]? = some (units s)[k] := List.getElem?_eq_getElem hk
    rw [getD_units hc] at hwrite
    obtain ⟨hidle, -⟩ := unitWrite_ok hwrite
    refine ⟨?_, ?_, .inr ⟨k, _, d, hc, hidle, unitWrite_base hwrite, units_setUnit k d s⟩⟩ <;> cases k <;> rfl
  · exact ⟨rfl, rfl, .inl rfl⟩

/-- The host's turn changes at most one instance, an IDLE one, and not its BASE, nor MEM, nor a mark that is set. -/
theorem hostTurn_frame {s t : State} (h : hostTurn s = .next t) :
    t.memMap = s.memMap ∧ (∀ m, s.mark = some m → t.mark = some m)
      ∧ (units t = units s ∨ ∃ k c d, (units s)[k]? = some c ∧ c.phase = .idle ∧ d.base = c.base
        ∧ units t = (units s).set k d) := by
  rcases hostTurn_next h with rfl | ⟨op, hop⟩
  · exact ⟨rfl, fun _ hm => hm, .inl rfl⟩
  · rcases hostOp_next hop with ⟨u, addr, size, v, hstore, rfl⟩ | ⟨i, vs, addr, size, rfl⟩ | ⟨i, vs, rfl⟩ | ⟨n, rfl⟩
      | ⟨r, hmark, rfl⟩
    · obtain ⟨hmap, hmark, hunits⟩ := busStore_frame hstore
      exact ⟨hmap, fun m hm => hmark.trans hm, hunits⟩
    · refine ⟨by simp, fun m hm => ?_, .inl (by simp [units])⟩
      obtain ⟨-, hload, -⟩ := mark_kept hm
      exact hload addr size
    · exact ⟨rfl, fun _ hm => hm, .inl rfl⟩
    · exact ⟨rfl, fun _ hm => hm, .inl rfl⟩
    · exact ⟨rfl, fun m hm => by simp [hmark] at hm, .inl rfl⟩

/-! ### The frames of a step -/

/-- Settles O45: an engine's transition and a reset leave the peers alone, and an exchange puts them back. -/
theorem instancesShareOnlyMemory : Obligations.InstancesShareOnlyMemory := by
  refine ⟨fun s t hturn hstep => ?_, fun s t j hturn hstep => ?_⟩
  · have htake := takeTurn_of_step hstep
    rcases hturn with hturn | hturn <;> rw [hturn] at htake
    · exact engineStep_peers (s := dropTurn s) htake
    · exact reset_peers (s := dropTurn s) htake
  · have hpeer : ∀ f, (∀ v w, f v = .next w → w.peers = v.peers) → onUnit (j + 1) f (dropTurn s) = .next t →
        t.core = s.core ∧ t.peers.length = s.peers.length ∧ ∀ k, k ≠ j → t.peers[k]? = s.peers[k]? := by
      intro f hf honUnit
      rcases onUnit_succ_next honUnit with ⟨p, u, hp, hfu, rfl⟩ | ⟨-, rfl⟩
      · obtain ⟨hcore, hpeers⟩ := swapUnit_back hp (hf _ _ hfu)
        refine ⟨hcore, by simp [hpeers], fun k hk => ?_⟩
        rw [hpeers, List.getElem?_set_ne hk.symm, dropTurn_peers]
      · exact ⟨rfl, rfl, fun _ _ => rfl⟩
    have htake := takeTurn_of_step hstep
    rcases hturn with hturn | hturn <;> rw [hturn] at htake
    · exact hpeer engineStep (fun _ _ => engineStep_peers) htake
    · exact hpeer _ (fun _ _ => reset_peers) htake

/-- A transition that keeps BASE keeps the BASE of every instance when any instance takes it. -/
theorem bases_onUnit {k : Nat} {f : State → Host.Outcome State Fault Refusal} {s t : State}
    (hf : ∀ v w, f v = .next w → w.peers = v.peers ∧ w.memMap = v.memMap ∧ w.core.base = v.core.base)
    (h : onUnit k f s = .next t) : t.memMap = s.memMap ∧ (units t).map (·.base) = (units s).map (·.base) := by
  rcases onUnit_next_cases (fun v w hvw => (hf v w hvw).1) h with rfl | ⟨c, u, hc, hu, hself, hother, hmap, -⟩
  · exact ⟨rfl, rfl⟩
  · obtain ⟨-, hmapU, hbase⟩ := hf _ _ hu
    obtain ⟨-, hmapS, -⟩ := asCore_frame k s
    refine ⟨hmap.trans (hmapU.trans hmapS), List.ext_getElem? fun m => ?_⟩
    rw [List.getElem?_map, List.getElem?_map]
    by_cases hm : m = k
    · subst hm
      rw [hself, hc, Option.map_some, Option.map_some, hbase, asCore_core hc]
    · rw [hother m hm]

/-- Settles O46: no agent changes MEM or a BASE. -/
theorem parametersNeverChange : Obligations.ParametersNeverChange := by
  intro s t hstep
  rcases step_next hstep with ⟨k, -, hengine⟩ | ⟨-, hhost⟩ | ⟨k, hreset⟩
  · refine bases_onUnit (s := dropTurn s) (fun v w hvw => ?_) hengine
    obtain ⟨hpeers, hmap, hbase, -⟩ := engineStep_frame hvw
    exact ⟨hpeers, hmap, hbase⟩
  · obtain ⟨hmap, -, hunits | ⟨k, c, d, hc, -, hbase, hunits⟩⟩ := hostTurn_frame hhost
    · exact ⟨hmap, by rw [hunits, units_dropTurn]⟩
    · refine ⟨hmap, List.ext_getElem? fun m => ?_⟩
      rw [units_dropTurn] at hc hunits
      rw [hunits, List.getElem?_map, List.getElem?_map, List.getElem?_set]
      split
      case isTrue hm =>
        subst hm
        obtain ⟨hlt, -⟩ := List.getElem?_eq_some_iff.mp hc
        rw [if_pos hlt, hc, Option.map_some, Option.map_some, hbase]
      case isFalse => rfl
  · refine bases_onUnit (s := dropTurn s) (fun v w hvw => ?_) hreset
    cases hvw
    exact ⟨resetUnit_peers v, resetUnit_memMap v, rfl⟩

/-- Settles O44: a turn of another instance leaves this one alone, and the host writes IDLE instances only. -/
theorem busyInstanceIsFrozen : Obligations.BusyInstanceIsFrozen := by
  intro s t k c w hc hbusy hengine hreset hstep
  have hother : ∀ j f, j ≠ k → (∀ v w, f v = .next w → w.peers = v.peers) → onUnit j f (dropTurn s) = .next t →
      (units t)[k]? = some c := by
    intro j f hj hf honUnit
    rcases onUnit_next_cases hf honUnit with rfl | ⟨-, -, -, -, -, hframe, -⟩
    · exact hc
    · exact (hframe k hj.symm).trans hc
  have htake := takeTurn_of_step hstep
  cases hturn : nextTurn s with
  | engine j =>
    rw [hturn] at htake hengine
    exact hother j engineStep (fun h => hengine (h ▸ rfl)) (fun _ _ => engineStep_peers) htake
  | reset j =>
    rw [hturn] at htake hreset
    exact hother j _ (fun h => hreset (h ▸ rfl)) (fun _ _ => reset_peers) htake
  | host =>
    rw [hturn] at htake
    obtain ⟨-, -, hunits | ⟨j, b, d, hb, hidle, -, hunits⟩⟩ := hostTurn_frame htake
    · rw [hunits]; exact hc
    · have hne : j ≠ k := by
        rintro rfl
        rw [units_dropTurn, hc, Option.some.injEq] at hb
        rw [hb, hidle] at hbusy
        cases hbusy
      rw [hunits, List.getElem?_set_ne hne]
      exact hc

/-! ### The engine's turn -/

theorem engineStep_of_decode_ok {s : State} {w : Word} {i : Instr} (hbusy : s.core.phase = .busy w)
    (hdecode : decode w = .ok i) : engineStep s = settle s (exec i s) := by
  simp [engineStep, hbusy, hdecode]

/-- A step on the turn of an instance's engine that is BUSY with a command runs that command (R172). -/
theorem step_of_engine_busy {s : State} {k : Nat} {c : CoreUnit} {w : Word} {i : Instr} (hmark : haltedBy s.mark = none)
    (hturn : nextTurn s = .engine k) (hc : (units s)[k]? = some c) (hbusy : c.phase = .busy w) (hdecode : decode w = .ok i) :
    step s = mapNext (asCore k) (settle (asCore k (dropTurn s)) (exec i (asCore k (dropTurn s)))) := by
  have hcore : (asCore k (dropTurn s)).core = c := asCore_core hc
  rw [step_of_engine hmark hturn, onUnit_eq_mapNext (s := dropTurn s) hc,
    engineStep_of_decode_ok (by rw [hcore]; exact hbusy) hdecode]

theorem decode_of_decodeTableWord {nbits w : Nat} {i : Instr} (h : decodeTableWord nbits w = some i) :
    decode (tableWord nbits w) = .ok i := by
  unfold decodeTableWord at h
  cases hd : decode (tableWord nbits w) with
  | ok j => simpa [hd] using h
  | error e => simp [hd] at h

/-- Taking off the turn that placing a command put first leaves the started command (R171). -/
theorem dropTurn_placeCommand (w : Word) (s : State) : dropTurn (placeCommand w s) = startCommand w s := (rfl)

/-- Settles O4: on an engine's turn the command is run on the state with the turn taken off, and placing a command word is
starting the command and giving the engine the turn. -/
theorem stepRunsTheDecodedCommand : Obligations.StepRunsTheDecodedCommand := by
  have hcore : ∀ (s : State) (w : Word) (i : Instr), haltedBy s.mark = none → nextTurn s = .engine 0 →
      s.core.phase = .busy w → decode w = .ok i → step s = settle (dropTurn s) (exec i (dropTurn s)) := by
    intro s w i hmark hturn hbusy hdecode
    rw [step_of_engine hmark hturn]
    exact engineStep_of_decode_ok (s := dropTurn s) hbusy hdecode
  refine ⟨hcore, fun s w i j hj hmark hturn hbusy hdecode => ?_, fun s nbits w i hmark hdecode => ?_⟩
  · exact step_of_engine_busy (c := s.peers[j]) hmark hturn (by simp [units, hj]) hbusy hdecode
  · rw [State.withFetchWord, ← dropTurn_placeCommand]
    exact hcore _ _ i hmark rfl rfl (decode_of_decodeTableWord hdecode)

/-! ### Stuck engines (R177) and fairness (R172, R200) -/

/-- BUSY is bit 0 of STATUS. -/
theorem toNat_mod_two_of_statusBusy {w : Word} (h : statusBusy w = true) : w.toNat % 2 = 1 := by
  simpa [statusBusy, BitVec.getLsbD, Nat.testBit_zero] using h

/-- Settles O42: a stuck command settles in the state it was, and STATUS may be read while BUSY. -/
theorem stuckEngineStaysBusy : Obligations.StuckEngineStaysBusy := by
  intro s k c w i hmark hc hbusy hdecode hpass houtside
  refine ⟨fun hturn => ⟨?_, hc⟩, fun halign hstatus hunit => ⟨c.status.toNat, ?_, ?_⟩⟩
  · obtain ⟨-, hmap, -⟩ := asCore_frame k s
    have hstuck : exec i (asCore k (dropTurn s)) = .fault .stuck := by
      rw [asCore_dropTurn]
      refine exec_of_stuck hpass ?_
      rw [accessible_dropTurn, accessible_false_iff_byte, asCore_core hc, hmap]
      exact houtside
    rw [step_of_engine_busy hmark hturn hc hbusy hdecode, hstuck]
    exact congrArg Host.Outcome.next (asCore_asCore k (dropTurn s))
  · exact busLoad_of_read_ok hunit (by rw [getD_units hc]; exact unitRead_of_status (accessedReg_at c halign .status))
  · have := toNat_mod_two_of_statusBusy hstatus
    omega

/-- The first enabled engine is the first number in the list whose instance, in instance 0's place, is enabled. -/
theorem firstEnabled_eq_find? (s : State) (ks : List Nat) :
    firstEnabled s ks = ks.find? fun k => engineEnabled (asCore k s) := by
  induction ks with
  | nil => rfl
  | cons k ks ih =>
    have hcons : firstEnabled s (k :: ks) = if engineEnabled (asCore k s) then some k else firstEnabled s ks := by
      cases k <;> rfl
    rw [hcons, ih, List.find?_cons]
    cases engineEnabled (asCore k s) <;> rfl

/-- With no turn scheduled and an instance enabled, the first enabled engine has the turn (log 7). -/
theorem nextTurn_of_enabled {s : State} {k : Nat} (hsched : s.sched = []) (hk : k < s.peers.length + 1)
    (h : engineEnabled (asCore k s) = true) : ∃ j ≤ k, nextTurn s = .engine j ∧ engineEnabled (asCore j s) = true := by
  cases hfirst : firstEnabled s (List.range (s.peers.length + 1)) with
  | none =>
    rw [firstEnabled_eq_find?, List.find?_eq_none] at hfirst
    exact absurd h (hfirst k (List.mem_range.mpr hk))
  | some j =>
    have hturn : nextTurn s = .engine j := by rw [nextTurn, hsched, defaultTurn, hfirst]
    rw [firstEnabled_eq_find?, List.find?_range_eq_some] at hfirst
    obtain ⟨hj, -, hbefore⟩ := hfirst
    refine ⟨j, Nat.le_of_not_lt fun hkj => ?_, hturn, hj⟩
    simpa [h] using hbefore k hkj

/-- In an unmarked state a BUSY engine whose command is not stuck is enabled. -/
theorem engineEnabled_of_accessible {s : State} {w : Word} (hmark : s.mark = none) (hbusy : s.core.phase = .busy w)
    (haccess : ∀ i, decode w = .ok i → checks i s = .pass → accessible i s = true) : engineEnabled s = true := by
  cases hdecode : decode w with
  | error e => simp [engineEnabled, hbusy, hdecode]
  | ok i =>
    have hanswers : answers (exec i s) = true := by
      rw [exec_eq_runCommand]
      rcases runCommand_cases i (effectOf i) s with ⟨-, -, he⟩ | ⟨code, -, he⟩ | ⟨r, -, -, he⟩ | ⟨r, m, -, hm, -⟩
        | ⟨hpass, hstuck, -⟩
      · rw [he]; rfl
      · rw [he]; rfl
      · rw [he]; rfl
      · simp [hmark] at hm
      · rw [haccess i hdecode hpass] at hstuck; cases hstuck
    simp [engineEnabled, hbusy, hdecode, hanswers]

/-- An enabled engine finishes its command or marks the state. -/
theorem engineStep_of_enabled {s : State} (h : engineEnabled s = true) :
    ∃ w t, s.core.phase = .busy w ∧ engineStep s = .next t ∧ t.peers = s.peers
      ∧ ((t.mark = s.mark ∧ t.core.phase = .idle) ∨ t.mark ≠ none) := by
  cases hbusy : s.core.phase with
  | idle => simp [engineEnabled, hbusy] at h
  | busy w =>
    cases hdecode : decode w with
    | error e => exact ⟨w, _, rfl, engineStep_of_decode_error hbusy hdecode, rfl, .inl ⟨rfl, rfl⟩⟩
    | ok i =>
      simp only [engineEnabled, hbusy, hdecode] at h
      cases hexec : exec i s with
      | next t =>
        have hstep : engineStep s = .next t := by rw [engineStep_of_decode_ok hbusy hdecode, hexec]; rfl
        refine ⟨w, t, rfl, hstep, engineStep_peers hstep, ?_⟩
        rcases exec_next_cases hexec with ⟨-, -, rfl⟩ | ⟨code, -, rfl⟩ | ⟨r, -, -, rfl⟩
        · obtain ⟨-, -, hmark, -⟩ := effectOf_environment i s
          exact .inl ⟨hmark, rfl⟩
        · exact .inl ⟨rfl, rfl⟩
        · exact .inr (by simp)
      | fault f => simp [hexec, answers] at h
      | refused r => simp [hexec, answers] at h

/-- Settles O43: the instance is enabled, so the first enabled one, at or before it, has the turn and ends its command. -/
theorem unscheduledEngineFinishes : Obligations.UnscheduledEngineFinishes := by
  intro s k c w hmark hsched hc hbusy haccess
  obtain ⟨hk, -⟩ := List.getElem?_eq_some_iff.mp hc
  obtain ⟨-, -, hmarkK, -⟩ := asCore_frame k s
  obtain ⟨j, hjk, hturn, henabled⟩ := nextTurn_of_enabled hsched (by simpa [units] using hk)
    (engineEnabled_of_accessible (hmarkK.trans hmark) (by rw [asCore_core hc]; exact hbusy) haccess)
  have hb : (units s)[j]? = some (units s)[j] := List.getElem?_eq_getElem (by omega)
  obtain ⟨x, u, hphase, hstep, hpeers, hended⟩ := engineStep_of_enabled henabled
  have hdrop : dropTurn s = s := by rw [dropTurn, hsched, List.tail_nil, ← hsched]
  obtain ⟨t, ht, hself, hother, -, -, hmarkT, -⟩ := onUnit_of_next hb hstep hpeers
  refine ⟨t, by rw [step_of_engine (by rw [hmark]; rfl) hturn, hdrop, ht], ?_⟩
  rw [asCore_core hb] at hphase
  obtain ⟨-, -, hmarkJ, -⟩ := asCore_frame j s
  rcases hended with ⟨hsame, hidle⟩ | hmarked
  · exact .inr ⟨by rw [hmarkT, hsame, hmarkJ, hmark], j, _, _, x, hjk, hb, hphase, hself, hidle, hother⟩
  · exact .inl (by rw [hmarkT]; exact hmarked)

end Sys2Proof.Machine
end

section
/-! SUPPORT. The reset of an instance (70_reset_and_hazards R190, R191): the state it leaves, and the free bytes a BUSY one
draws for its written regions. -/

namespace Sys2Proof.Machine

/-! ### Draws -/

theorem draws_le_drawBytes (as : List Nat) (s : State) : s.draws ≤ (drawBytes as s).draws := by
  induction as generalizing s with
  | nil => exact le_rfl
  | cons a as ih =>
    rw [drawBytes]
    refine le_trans ?_ (ih _)
    split
    · exact Nat.le_succ _
    · exact le_rfl

/-- A draw for one backed byte. -/
def drawByte (a : Nat) (s : State) : State :=
  { s with mem := writeByte s.mem a (Config.freeByte s.draws), draws := s.draws + 1 }

theorem drawBytes_cons_backed {a : Nat} {s : State} (h : inMem s.memMap a = true) (as : List Nat) :
    drawBytes (a :: as) s = drawBytes as (drawByte a s) := by
  rw [drawBytes, if_pos h, drawByte]

theorem drawBytes_cons_unbacked {a : Nat} {s : State} (h : inMem s.memMap a = false) (as : List Nat) :
    drawBytes (a :: as) s = drawBytes as s := by
  rw [drawBytes, if_neg (by simp [h])]

/-- `n` numbers the draws of the backed bytes listed: each holds the draw of its number, one of those between the two states,
and no two bytes have one number. -/
def NumbersDraws (as : List Nat) (s t : State) (n : Nat → Nat) : Prop :=
  (∀ a ∈ as, inMem s.memMap a = true → s.draws ≤ n a ∧ n a < t.draws ∧ readByte t.mem a = Config.freeByte (n a))
    ∧ ∀ a ∈ as, inMem s.memMap a = true → ∀ b ∈ as, inMem s.memMap b = true → n a = n b → a = b

/-- The numbers `n` of the bytes listed, and the number `first` for every other byte. -/
def numberOr (as : List Nat) (n : Nat → Nat) (first x : Nat) : Nat := if x ∈ as then n x else first

theorem numberOr_of_mem {as : List Nat} {x : Nat} (h : x ∈ as) (n : Nat → Nat) (first : Nat) :
    numberOr as n first x = n x := if_pos h

theorem numberOr_of_notMem {as : List Nat} {x : Nat} (h : x ∉ as) (n : Nat → Nat) (first : Nat) :
    numberOr as n first x = first := if_neg h

/-- One more byte ahead of the list: unless a later draw replaces its own, it has the number of its own, below all others. -/
theorem NumbersDraws.cons {a : Nat} {as : List Nat} {s : State} {n : Nat → Nat} (hwf : memWf s.mem = true)
    (h : NumbersDraws as (drawByte a s) (drawBytes as (drawByte a s)) n) :
    NumbersDraws (a :: as) s (drawBytes as (drawByte a s)) (numberOr as n s.draws) := by
  obtain ⟨hheld, hdistinct⟩ := h
  have hlater : ∀ x ∈ as, inMem s.memMap x = true → s.draws < n x := fun x hx hb => (hheld x hx hb).1
  have hahead : ∀ x ∈ a :: as, x ∉ as → x = a := fun x hx hxas => (List.mem_cons.mp hx).resolve_right hxas
  refine ⟨fun x hx hb => ?_, fun x hx hbx y hy hby hxy => ?_⟩
  · by_cases hxas : x ∈ as
    · obtain ⟨-, hhi, hbyte⟩ := hheld x hxas hb
      rw [numberOr_of_mem hxas]
      exact ⟨(hlater x hxas hb).le, hhi, hbyte⟩
    · obtain rfl := hahead x hx hxas
      rw [numberOr_of_notMem hxas, readByte_drawBytes hxas]
      exact ⟨le_rfl, draws_le_drawBytes as (drawByte x s), readByte_writeByte_same x _ hwf⟩
  · by_cases hxas : x ∈ as <;> by_cases hyas : y ∈ as
    · rw [numberOr_of_mem hxas, numberOr_of_mem hyas] at hxy
      exact hdistinct x hxas hbx y hyas hby hxy
    · rw [numberOr_of_mem hxas, numberOr_of_notMem hyas] at hxy
      exact absurd hxy (hlater x hxas hbx).ne'
    · rw [numberOr_of_notMem hxas, numberOr_of_mem hyas] at hxy
      exact absurd hxy (hlater y hyas hby).ne
    · rw [hahead x hx hxas, hahead y hy hyas]

/-- The draws of a list of bytes can be numbered (R191). -/
theorem exists_numbersDraws (as : List Nat) {s : State} (hwf : memWf s.mem = true) :
    ∃ n, NumbersDraws as s (drawBytes as s) n := by
  induction as generalizing s with
  | nil => exact ⟨id, nofun, nofun⟩
  | cons a as ih =>
    cases hbacked : inMem s.memMap a with
    | true =>
      obtain ⟨n, hn⟩ := ih (s := drawByte a s) (memWf_writeByte a _ hwf)
      rw [drawBytes_cons_backed hbacked]
      exact ⟨_, hn.cons hwf⟩
    | false =>
      obtain ⟨n, hheld, hdistinct⟩ := ih hwf
      have htail : ∀ x ∈ a :: as, inMem s.memMap x = true → x ∈ as := fun x hx hb =>
        (List.mem_cons.mp hx).resolve_left (by rintro rfl; simp [hbacked] at hb)
      rw [drawBytes_cons_unbacked hbacked]
      exact ⟨n, fun x hx hb => hheld x (htail x hx hb) hb, fun x hx hbx y hy hby =>
        hdistinct x (htail x hx hbx) hbx y (htail y hy hby) hby⟩

/-! ### The reset turn -/

theorem noteAbandoned_mark (s : State) :
    (noteAbandoned s).mark = if runningConflict s then some (s.mark.getD .overlap) else s.mark := by
  unfold noteAbandoned
  split <;> rfl

theorem runningRegions_of_idle {c : CoreUnit} (h : c.phase = .idle) : runningRegions c = [] := by
  simp [runningRegions, h]

theorem runningConflict_of_idle {s : State} (h : s.core.phase = .idle) : runningConflict s = false := by
  rw [runningConflict, runningRegions_of_idle h]
  rfl

/-- An IDLE instance frees no byte (R190). -/
theorem resetUnit_mem_of_idle {s : State} (h : s.core.phase = .idle) : (resetUnit s).mem = s.mem := by
  rw [resetUnit_mem, runningRegions_of_idle h]
  exact noteAbandoned_mem s

/-- The reset frees the written regions in use and leaves every other byte alone (R191). -/
theorem readByte_resetUnit {s : State} {a : Nat} (h : OutsideWritten (runningRegions s.core) a) :
    readByte (resetUnit s).mem a = readByte s.mem a := by
  rw [resetUnit_mem, readByte_drawBytes, noteAbandoned_mem]
  rw [mem_writtenBytes]
  rintro ⟨r, hr, hw, ha⟩
  exact h r hr hw ha

/-- A reset turn of an instance that exists resets it, as instance 0 between two exchanges, and no other one. -/
theorem step_of_reset_turn {s : State} {k : Nat} {c : CoreUnit} (hc : (units s)[k]? = some c) (hturn : nextTurn s = .reset k) :
    ∃ t, step s = .next t ∧ (units t)[k]? = some (CoreUnit.reset c.base) ∧ (∀ m, m ≠ k → (units t)[m]? = (units s)[m]?)
      ∧ t.memMap = s.memMap ∧ t.mem = (resetUnit (asCore k (dropTurn s))).mem
      ∧ t.draws = (resetUnit (asCore k (dropTurn s))).draws
      ∧ t.mark = (resetUnit (asCore k (dropTurn s))).mark := by
  have hcore : (asCore k (dropTurn s)).core = c := asCore_core hc
  obtain ⟨-, hmapK, -⟩ := asCore_frame k (dropTurn s)
  obtain ⟨t, ht, hself, hother, hmem, hmap, hmark, hdraws, -⟩ := onUnit_of_next (s := dropTurn s)
    (f := fun u => .next (resetUnit u)) hc rfl (resetUnit_peers _)
  rw [resetUnit_core, hcore] at hself
  exact ⟨t, (step_of_reset hturn).trans ht, hself, hother, hmap.trans ((resetUnit_memMap _).trans hmapK), hmem, hdraws, hmark⟩

/-- No host write clears a written-flag (R39). -/
theorem written_of_unitWrite {c e : CoreUnit} {addr : Nat} {size : AccessSize} {v : Word} (h : unitWrite c addr size v = .ok e)
    {d : DataReg} (hd : (regGet c.regs d).written = true) : (regGet e.regs d).written = true := by
  rcases unitWrite_ok h with ⟨-, rfl | rfl | ⟨r, -, rfl⟩⟩
  · exact hd
  · exact hd
  · rw [unitSetReg_regs, regGet_regSet]
    split
    · rfl
    · exact hd

/-- Settles O39: the reset of instance 0 in the instance's place, and the abandoned command's conflict is the one mark. -/
theorem resetInitialisesTheInstance : Obligations.ResetInitialisesTheInstance := by
  refine ⟨fun s k c hc hturn => ?_, fun c e addr size v h d => written_of_unitWrite h⟩
  obtain ⟨t, hstep, hself, hother, hmap, hmem, -, hmark⟩ := step_of_reset_turn hc hturn
  obtain ⟨hmemK, -, hmarkK, -⟩ := asCore_frame k s
  rw [asCore_dropTurn, resetUnit_mark, noteAbandoned_mark] at hmark
  have hmarkT : t.mark = if runningConflict (asCore k s) then some (s.mark.getD .overlap) else s.mark := by
    rw [hmark, dropTurn_mark, hmarkK]
    rfl
  refine ⟨t, _, hstep, hself, rfl, rfl, rfl, fun r => congrArg DReg.written (regGet_reset r), rfl, hmarkT, hother, hmap,
    fun hidle => ?_⟩
  have hidleK : (asCore k s).core.phase = .idle := by rw [asCore_core hc]; exact hidle
  refine ⟨by rw [hmarkT, runningConflict_of_idle hidleK]; rfl, fun a => ?_⟩
  rw [hmem, asCore_dropTurn, resetUnit_mem_of_idle (s := dropTurn (asCore k s)) hidleK, dropTurn_mem, hmemK]

/-- Settles O40: the bytes of the written regions in use are the ones drawn, in one numbering of the draws. -/
theorem resetWhileBusyFreesTheOutputs : Obligations.ResetWhileBusyFreesTheOutputs := by
  intro s k c w hc hturn _
  obtain ⟨t, hstep, hself, hother, -, hmem, hdraws, -⟩ := step_of_reset_turn hc hturn
  obtain ⟨hmemK, hmapK, -, hdrawsK, -⟩ := asCore_frame k (dropTurn s)
  have hcore : (asCore k (dropTurn s)).core = c := asCore_core hc
  refine ⟨t, hstep, hself, hother, fun a ha => ?_, fun hwf => ?_⟩
  · rw [hmem, readByte_resetUnit (by rw [hcore]; exact ha), hmemK, dropTurn_mem]
  · have hwfK : memWf (noteAbandoned (asCore k (dropTurn s))).mem = true := by rw [noteAbandoned_mem, hmemK]; exact hwf
    obtain ⟨n, hheld, hdistinct⟩ := exists_numbersDraws (writtenBytes (runningRegions c)) hwfK
    rw [resetUnit_mem, hcore] at hmem
    rw [resetUnit_draws, hcore] at hdraws
    rw [← hmem, ← hdraws, noteAbandoned_memMap, noteAbandoned_draws, hmapK, hdrawsK] at hheld
    rw [noteAbandoned_memMap, hmapK] at hdistinct
    simp only [mem_writtenBytes] at hheld hdistinct
    exact ⟨n, hheld, fun a b ha hba hb hbb => hdistinct a ha hba b hb hbb⟩

end Sys2Proof.Machine
end

section
/-! SUPPORT. Model faults (60_exceptions R176): each agent's fault marks an unmarked state with its reason, and no step
clears or replaces a mark. -/

namespace Sys2Proof.Machine

/-! ### The engine -/

/-- A command that a check makes raise marks the state and changes nothing else but the turn, on any instance's turn. -/
theorem step_of_engine_raise {s : State} {k : Nat} {c : CoreUnit} {w : Word} {i : Instr} {r : ModelFault}
    (hmark : s.mark = none) (hturn : nextTurn s = .engine k) (hc : (units s)[k]? = some c) (hbusy : c.phase = .busy w)
    (hdecode : decode w = .ok i) (hraise : checks i (asCore k s) = .raise r) :
    step s = .next (withMark r (dropTurn s)) := by
  obtain ⟨-, -, hmarkK, -⟩ := asCore_frame k (dropTurn s)
  have hexec : exec i (asCore k (dropTurn s)) = .next (withMark r (asCore k (dropTurn s))) := by
    refine exec_of_raise ?_ (hmarkK.trans hmark)
    rw [asCore_dropTurn, checks_dropTurn, hraise]
  rw [step_of_engine_busy (by rw [hmark]; rfl) hturn hc hbusy hdecode, hexec, settle, mapNext, asCore_withMark,
    asCore_asCore]

theorem checks_of_unwritten {i : Instr} {s : State} (hw : unitWritten s.core (readRegs i) = false) (hmark : s.mark = none) :
    checks i s = .raise .unwrittenReg := by
  simp [checks, readsUnwritten, hw, hmark]

/-! ### The host's load -/

theorem hostOp_load_of_ok {s : State} {size : AccessSize} {addr x : Nat} {append : Bool} {v : Int}
    (h : busLoad s addr size = .ok v) : hostOp (.load size addr x append) s
      = .next (setHpc (s.hpc + 1) (setTemp x (if append then tempOf s x ++ [v] else [v]) (noteLoad s addr size))) := by
  simp [hostOp, h]

theorem hostOp_load_of_error {s : State} {size : AccessSize} {addr x : Nat} {append : Bool} {e : BusStop}
    (h : busLoad s addr size = .error e) : hostOp (.load size addr x append) s = busStopped s e := by
  simp [hostOp, h]

theorem getD_tempsSet (l : List (List Int)) (t : Nat) (v : List Int) : (tempsSet l t v).getD t [] = v := by
  induction t generalizing l with
  | zero => cases l <;> rfl
  | succ t ih =>
    cases l with
    | nil => exact ih []
    | cons _ l => exact ih l

/-- A load from the register block of an instance notes whether the register read is unwritten (R39). -/
theorem noteLoad_mark_of_unit {s : State} {addr k : Nat} {size : AccessSize} {c : CoreUnit}
    (h : unitFor s addr (sizeBytes size) = some k) (hc : (units s)[k]? = some c) :
    (noteLoad s addr size).mark
      = if unitReadsUnwritten c addr size then some (s.mark.getD .unwrittenReg) else s.mark := by
  rw [← getD_units hc]
  simp only [noteLoad, h]
  split <;> rfl

theorem noteLoad_of_data {s : State} {addr : Nat} {size : AccessSize} (h : unitFor s addr (sizeBytes size) = none) :
    noteLoad s addr size = s := by
  simp only [noteLoad, h]

/-- On the host's turn a step is the host's operation on the state with the turn taken off (R81). -/
theorem step_of_host_op {s : State} {op : HostOp} (hmark : haltedBy s.mark = none) (hturn : nextTurn s = .host)
    (hop : s.prog[s.hpc]? = some op) : step s = hostOp op (dropTurn s) :=
  (step_of_host hmark hturn).trans (hostTurn_dropTurn hop)

/-! ### The mark -/

/-- No agent clears or replaces a mark (R176). -/
theorem mark_kept_by_step {s t : State} {m : ModelFault} (hm : s.mark = some m) (hstep : step s = .next t) :
    t.mark = some m := by
  rcases step_next hstep with ⟨k, -, hengine⟩ | ⟨-, hhost⟩ | ⟨k, hreset⟩
  · rcases onUnit_next_cases (fun _ _ => engineStep_peers) hengine with rfl | ⟨c, u, -, hu, -, -, -, hmark⟩
    · exact hm
    · obtain ⟨-, -, hmarkK, -⟩ := asCore_frame k (dropTurn s)
      have hmK : (asCore k (dropTurn s)).mark = some m := hmarkK.trans hm
      obtain ⟨-, -, -, hsame | hnone⟩ := engineStep_frame hu
      · rw [hmark, hsame, hmK]
      · rw [hnone] at hmK; cases hmK
  · obtain ⟨-, hkept, -⟩ := hostTurn_frame hhost
    exact hkept m hm
  · rcases onUnit_next_cases (fun _ _ => reset_peers) hreset with rfl | ⟨c, u, -, hu, -, -, -, hmark⟩
    · exact hm
    · cases hu
      obtain ⟨-, -, hmarkK, -⟩ := asCore_frame k (dropTurn s)
      obtain ⟨-, -, hkept⟩ := mark_kept (hmarkK.trans hm)
      rw [hmark, resetUnit_mark, hkept]

/-- Past a mark other than UNWRITTEN_REG only a reset is taken (log 5). -/
theorem step_of_halted {s : State} {m : ModelFault} (hm : s.mark = some m) (hne : m ≠ .unwrittenReg)
    (hturn : ∀ k, nextTurn s ≠ .reset k) : step s = .fault (.marked m) := by
  have hhalted : haltedBy s.mark = some m := by rw [hm, haltedBy, if_neg hne]
  cases hnext : nextTurn s with
  | engine k => rw [step, advance, hhalted, hnext]
  | host => rw [step, advance, hhalted, hnext]
  | reset k => exact absurd hnext (hturn k)

/-- Settles O41: each clause is the law of one agent or of the mark. -/
theorem modelFaultMarksForGood : Obligations.ModelFaultMarksForGood := by
  refine ⟨fun s k c w i hmark hturn hc hbusy hdecode => ⟨fun r hraise => ?_, fun hw => ?_⟩,
    fun s size addr v r hmark hturn hop hstore => ?_,
    fun s size addr x append hmark hturn hop => ⟨fun r hload => ?_, fun v hload => ?_⟩,
    fun s r => ⟨fun hm => raiseFault_of_unmarked hm r, fun m hm => raiseFault_of_marked hm r⟩,
    fun s t m hm hstep => mark_kept_by_step hm hstep, fun s m hm hne hturn => step_of_halted hm hne hturn⟩
  · exact step_of_engine_raise hmark hturn hc hbusy hdecode hraise
  · obtain ⟨-, -, hmarkK, -⟩ := asCore_frame k s
    exact step_of_engine_raise hmark hturn hc hbusy hdecode
      (checks_of_unwritten (by rw [asCore_core hc]; exact hw) (hmarkK.trans hmark))
  · rw [← storeWord_dropTurn] at hstore
    rw [step_of_host_op hmark hturn hop, hostOp_store_of_error hstore, busStopped]
  · rw [step_of_host_op hmark hturn hop, hostOp_load_of_error hload, busStopped]
  · refine ⟨_, (step_of_host_op hmark hturn hop).trans (hostOp_load_of_ok hload), by simp, by simp, by simp, ?_, rfl,
      fun k c d hunit hc hidle hsize halign haddr => ?_, fun hdata => ?_⟩
    · rw [tempOf, setHpc_temps, setTemp_temps, getD_tempsSet]
      rfl
    · subst hsize haddr
      rw [setHpc_mark, setTemp_mark, noteLoad_mark_of_unit (s := dropTurn s) hunit hc,
        unitReadsUnwritten_of_idle_data hidle (accessedReg_at c halign _)]
      cases (regGet c.regs d).written <;> rfl
    · rw [setHpc_mark, setTemp_mark, noteLoad_of_data (s := dropTurn s) hdata, dropTurn_mark]

end Sys2Proof.Machine
end
